-- ==== Sys2Proof/Word.lean ====
section
/-!
DEFINITION. The words of the N7-ABP block: a byte is 8 bits, the alternating bit is one bit, a port and the payload
length are 16 bits, a checksum is 32 bits (R13), and a buffer, frame or datagram is a sequence of bytes (R14, R60).
-/

namespace Sys2Proof

/-- The smallest addressable unit (R13, R61). -/
abbrev Byte := BitVec 8

/-- An alternating bit (R24, R34, R93). -/
abbrev Bit := BitVec 1

/-- A port or a payload length as it stands in a frame (R91, R92, R95). -/
abbrev Half := BitVec 16

/-- A checksum (R96, R101, R137). -/
abbrev Word := BitVec 32

/-- A byte sequence, indexed from offset 0 (R14). -/
abbrev Bytes := List Byte

/-- One unit handed to or returned by the Channel: a byte sequence with a length, a frame or not (00_scope.md, glossary). -/
abbrev Datagram := Bytes

end Sys2Proof
end

