-- ==== Sys2Proof/Config.lean ====
section
/-!
DEFINITION. What an implementation fixes (R7 to R12, 92_eei_decisions.md "Open parameters") and the three free values. The
configuration the machine runs with is Sys2Proof.Machine.block (Machine/Operands.lean). The open parameters RTO,
IDLE_TIMEOUT, SIGNALLING and REGMAP and the widths of a build are not represented (R293, R390, R12).
-/

namespace Sys2Proof

/-- The frame sizes that are fixed by the layout of the two frames (R7). -/
def Config.headerSize : Nat := 12

/-- The header bytes under the data frame's checksum (R7, R141). -/
def Config.crcCoverHdr : Nat := 8

/-- The length of an ack frame (R7, R100). -/
def Config.ackSize : Nat := 9

/-- The bytes under the ack frame's checksum (R7, R101). -/
def Config.ackCover : Nat := 5

/-- `CRC_PARAMS` (R9, R130): width 32; the polynomial in both bit orders; the initial value as it stands in the register;
whether a byte enters least significant bit first; whether the result is read in that order; the final XOR. -/
structure CrcParams where
  poly          : Word
  polyReflected : Word
  init          : Word
  reflectIn     : Bool
  reflectOut    : Bool
  finalXor      : Word
  deriving DecidableEq, Repr

/-- The order of the bytes of a multi-byte field (R63, R64). -/
inductive ByteOrder where
  | big
  | little
  deriving DecidableEq, Repr

/-- The parameters of a build. -/
structure Config where
  /-- `CRC_PARAMS` (R9, D2) -/
  crc               : CrcParams
  /-- `PORT_ORDER` (R64, D3) -/
  portOrder         : ByteOrder
  /-- `CRC_FIELD_ORDER` (R64, D3) -/
  crcFieldOrder     : ByteOrder
  /-- `MAX_FRAME` (R7) -/
  maxFrame          : Nat
  /-- `CHUNK_MAX` (R8, D4) -/
  chunkMax          : Nat
  /-- `NAME_LEN` (R7) -/
  nameLen           : Nat
  /-- `INIT_BIT` (R11, D11) -/
  initBit           : Bit
  /-- `SHORT_FIRST_REFUSED` (93_implementation_defined.md U7) -/
  shortFirstRefused : Bool
  /-- `CORRUPT_BIT`, counted from bit 0 of frame offset 12 (R313, D36) -/
  corruptBit        : Nat
  /-- `DRAWS_ALWAYS` (R314, D36) -/
  drawsAlways       : Bool
  deriving DecidableEq, Repr

/-- `MAX_PAYLOAD = MAX_FRAME - HEADER_SIZE` (R8). -/
def Config.maxPayload (c : Config) : Nat := c.maxFrame - Config.headerSize

/-- The FaultInjector's injected random source (R310, R314): draw number `n`, a number in [0, 1) in units of 2^-32. A FREE
VALUE with no body (assumption log 18): nothing can be proved of a draw but that it is below 1. -/
opaque Config.randomSource : Nat → BitVec 32

/-- What a host read of `tx.pending` gives while `tx.phase = CALL`, applied to the bytes the register was last given: "any
value (the model must not constrain it)" (93_implementation_defined.md U8). A FREE VALUE with no body (assumption log 7). -/
opaque Config.pendingPort : Bytes → Bytes

/-- Byte `i` of what the read port of `rx.fileName` or `rx.lastAck` shows while its valid bit is false, applied to the bytes the
register holds: "A hardware build may hold stale bytes" (93_implementation_defined.md U4). A FREE VALUE with no body
(assumption log 6). -/
opaque Config.unspecifiedByte : Bytes → Nat → Byte

end Sys2Proof
end

