-- ==== Sys2Proof/Syntax.lean ====
section
/-!
DEFINITION. The instructions, whole: one constructor of `Instr` per row of spec/opcode_table.json, in the table's order, and
the shapes their encodings take. The table holds four tables of patterns (R110: the op codes and vectors have "no pin,
wire or register meaning"): frames on the wire (R99, R102), a 4-bit operation select (R110), the sender's 5-bit and the
receiver's 6-bit event vector (R111, R112).
-/

namespace Sys2Proof

/-- `EndFlag` (R16): the tri-state of a data frame (R94, C6). -/
inductive EndFlag where
  | none
  | moreFollow
  | last
  deriving DecidableEq, Repr

/-- `endFlag` as DEC_DATA reports it (R181): one of the three, or RESERVED for the bytes 0x03 to 0xFF (R105). -/
inductive WireFlag where
  | none
  | moreFollow
  | last
  | reserved
  deriving DecidableEq, Repr

/-- The fields of a data frame other than endFlag, which is in the row's pattern (R90, R99). -/
structure DataFields where
  sourcePort    : Half
  destPort      : Half
  altBit        : Bit
  payloadLength : Half
  checksum      : Word
  payload       : Bytes
  deriving DecidableEq, Repr

/-- The fields of an ack frame (R100, R102). -/
structure AckFields where
  sourcePort : Half
  destPort   : Half
  altBit     : Bit
  checksum   : Word
  deriving DecidableEq, Repr

/-- One constructor per row of spec/opcode_table.json. The operations carry the operands of their rows; an event row
carries none: what it reads (the datagram, the outcome of a send) is in the shell's ports (State). -/
inductive Instr where
  -- frames
  | dataNone (f : DataFields)
  | dataMore (f : DataFields)
  | dataLast (f : DataFields)
  | ack (f : AckFields)
  -- operations
  | crc32 (bytes : Bytes)
  | crc32Verify (bytes : Bytes) (expected : Word)
  | encData (sourcePort destPort : Nat) (altBit : Bit) (endFlag : EndFlag) (payload : Bytes)
  | decData (datagram : Datagram)
  | encAck (sourcePort destPort : Nat) (altBit : Bit)
  | decAck (datagram : Datagram)
  -- host commands
  | txStart (name file : Bytes)
  | rxRestart
  | cfgTx (src dst : Nat)
  | cfgRx (src dst : Nat)
  | hwReset
  -- sender events
  | txSend
  | txChannelFailure
  | txTimeout
  | txAckBadCorrupt
  | txAckBadWrongBit
  | txAckOk
  -- receiver events
  | rxChannelFailure
  | rxIdleTimeout
  | rxZeroDatagram
  | rxPacketCorrupt
  | rxPacketWrongBit
  | rxPacketOkMore
  | rxPacketOkLast
  deriving DecidableEq, Repr

/-- The rows of the sender's event table (R111). -/
inductive TxRow where
  | send
  | channelFailure
  | timeout
  | ackBadCorrupt
  | ackBadWrongBit
  | ackOk
  deriving DecidableEq, Repr

/-- The rows of the receiver's event table (R112). -/
inductive RxRow where
  | channelFailure
  | idleTimeout
  | zeroDatagram
  | packetCorrupt
  | packetWrongBit
  | packetOkMore
  | packetOkLast
  deriving DecidableEq, Repr

/-- The operand ports of a host transaction. An operation reads those its row of R110 names and ignores the others:
`bytes` is the byte sequence of CRC32 and CRC32_VERIFY, the payload of ENC_DATA, the datagram of DEC_DATA and DEC_ACK, the
name of TX_START; `src` and `dst` are the two ports of ENC_DATA, ENC_ACK, CFG_TX and CFG_RX. -/
structure HostOperands where
  bytes    : Bytes
  file     : Bytes
  expected : Word
  src      : Nat
  dst      : Nat
  altBit   : Bit
  endFlag  : EndFlag
  deriving DecidableEq, Repr

/-- All operand ports zero or empty. -/
def HostOperands.zero : HostOperands := ⟨[], [], 0, 0, 0, 0, .none⟩

/-- What is presented at the block's boundary (D1: whole transactions), one shape per table of patterns. -/
inductive Encoded where
  /-- the 4-bit op-select with its operands (R110) -/
  | op (code : BitVec 4) (operands : HostOperands)
  /-- the sender's event vector `c f t k m` (R111) -/
  | txVector (v : BitVec 5)
  /-- the receiver's event vector `f t z k m l` (R112) -/
  | rxVector (v : BitVec 6)
  /-- a datagram read as a data frame, by the role of the receiver (R107) -/
  | dataFrame (d : Datagram)
  /-- a datagram read as an ack frame, by the role of the sender (R107) -/
  | ackFrame (d : Datagram)
  deriving DecidableEq, Repr

end Sys2Proof
end

