-- ==== Sys2Proof/Machine/Operands.lean ====
section
/-!
DEFINITION. The configuration the machine runs with, and the operand forms: byte sequences and their accesses (R14), fields
of 16 and 32 bits in either byte order (R63, R64), ports reduced to 16 bits (R103), the flag and altBit bytes (R93, R94), the
filename field, the transfer stream and its chunks (R214 to R216).
-/

namespace Sys2Proof.Machine

/-- The default `CRC_PARAMS` (R9, R130, D2). -/
def crcDefault : CrcParams where
  poly := 0x04C11DB7
  polyReflected := 0xEDB88320
  init := 0xFFFFFFFF
  reflectIn := true
  reflectOut := true
  finalXor := 0xFFFFFFFF

/-- The configuration of the block: the values of R7 to R11 and the defaults of the open parameters (assumption log 8). -/
def block : Config where
  crc := crcDefault
  portOrder := .big
  crcFieldOrder := .big
  maxFrame := 1400
  chunkMax := 1386
  nameLen := 20
  initBit := 0
  shortFirstRefused := false
  corruptBit := 0
  drawsAlways := true

/-! Byte sequences (R14). -/

/-- `B[i]` (R14). It exists for `0 <= i < len(B)` only; every use below stands behind the length test that ensures it. -/
def byteAt (B : Bytes) (i : Nat) : Byte := B.getD i 0

/-- `B[a:b]`: the bytes at offsets a to b-1 (R14). -/
def slice (B : Bytes) (a b : Nat) : Bytes := (B.drop a).take (b - a)

/-- `MemRead(B@o, n)`, that is `B[o:o+n]` (R14). -/
def memRead (B : Bytes) (o n : Nat) : Bytes := slice B o (o + n)

/-- `MemWrite(B@o, n, v)`: `B[o:o+n]` replaced by the n-byte sequence `v`, n being the length of `v` (R14). -/
def memWrite (B : Bytes) (o : Nat) (v : Bytes) : Bytes := B.take o ++ v ++ B.drop (o + v.length)

/-- `zeros(n)` (R14). -/
def zeros (n : Nat) : Bytes := List.replicate n 0

/-- `allZero(B)`: every byte is 0x00, true for the empty sequence (R14, R257). -/
def allZero (B : Bytes) : Bool := B.all (· == 0)

/-! Multi-byte fields (R14, R63, R64, R66). -/

/-- The 2-byte sequence of a field; `put16` of R14 in the order `big`. -/
def put16 (o : ByteOrder) (v : Half) : Bytes :=
  match o with
  | .big => [v.extractLsb' 8 8, v.extractLsb' 0 8]
  | .little => [v.extractLsb' 0 8, v.extractLsb' 8 8]

/-- The 4-byte sequence of a field; `put32` of R14 in the order `big`. -/
def put32 (o : ByteOrder) (v : Word) : Bytes :=
  match o with
  | .big => [v.extractLsb' 24 8, v.extractLsb' 16 8, v.extractLsb' 8 8, v.extractLsb' 0 8]
  | .little => [v.extractLsb' 0 8, v.extractLsb' 8 8, v.extractLsb' 16 8, v.extractLsb' 24 8]

/-- The 16-bit field at offset `i`; `be16(B, i)` of R14 in the order `big`. -/
def get16 (o : ByteOrder) (B : Bytes) (i : Nat) : Half :=
  match o with
  | .big => byteAt B i ++ byteAt B (i + 1)
  | .little => byteAt B (i + 1) ++ byteAt B i

/-- The 32-bit field at offset `i`; `be32(B, i)` of R14 in the order `big`. -/
def get32 (o : ByteOrder) (B : Bytes) (i : Nat) : Word :=
  match o with
  | .big => byteAt B i ++ byteAt B (i + 1) ++ byteAt B (i + 2) ++ byteAt B (i + 3)
  | .little => byteAt B (i + 3) ++ byteAt B (i + 2) ++ byteAt B (i + 1) ++ byteAt B i

/-- `be16(B, i)` (R14). -/
def be16 (B : Bytes) (i : Nat) : Half := get16 .big B i

/-- `port mod 2^16`: a wider port is reduced, not refused (R23, R33, R91, R103, R164). -/
def low16 (port : Nat) : Half := BitVec.ofNat 16 port

/-- `zext_8(altBit)` (R93, R103). -/
def altByteOf (b : Bit) : Byte := b.setWidth 8

/-- `D[4][0]` (R93, R181). -/
def altBitOf (b : Byte) : Bit := b.setWidth 1

/-- `flagByte` (R94, R161). -/
def flagByteOf : EndFlag → Byte
  | .none => 0x00
  | .moreFollow => 0x01
  | .last => 0x02

/-- `endFlag` of a flag byte (R94, R105, R181). -/
def wireFlagOf (b : Byte) : WireFlag :=
  if b = 0x00 then .none else if b = 0x01 then .moreFollow else if b = 0x02 then .last else .reserved

/-! The transfer stream (R98, R214 to R217). -/

/-- `nameField = name ‖ zeros(20 - len(name))` (R98, R215). -/
def nameField (c : Config) (name : Bytes) : Bytes := name ++ zeros (c.nameLen - name.length)

/-- `tx.T = nameField ‖ file` (R214). -/
def transferStream (c : Config) (name file : Bytes) : Bytes := nameField c name ++ file

/-- The payload length of the chunk cut at offset `o` of a stream of `len` bytes: `min(CHUNK_MAX, len - o)` (R218). -/
def chunkLength (c : Config) (len o : Nat) : Nat := min c.chunkMax (len - o)

/-- The flag of that chunk: LAST if it ends the stream, else MORE_FOLLOW (R217, R218). -/
def chunkFlag (c : Config) (len o : Nat) : EndFlag :=
  if o + chunkLength c len o = len then .last else .moreFollow

/-- The payload of that chunk (R216, R218). -/
def chunkPayload (c : Config) (T : Bytes) (o : Nat) : Bytes := slice T o (o + chunkLength c T.length o)

/-- The number of chunks of a stream of `len` bytes, `ceil(len / CHUNK_MAX)` (R216). -/
def chunkCount (c : Config) (len : Nat) : Nat := (len + c.chunkMax - 1) / c.chunkMax

/-- The name a first packet carries: its first 20 bytes, or the bytes there are padded with 0x00 (R258, R259). -/
def capturedName (c : Config) (p : Bytes) : Bytes :=
  p.take (min c.nameLen p.length) ++ zeros (c.nameLen - min c.nameLen p.length)

/-- What a first packet appends: its payload after the filename field (R258, R259). -/
def capturedContent (c : Config) (p : Bytes) : Bytes := p.drop (min c.nameLen p.length)

end Sys2Proof.Machine
end

