-- ==== Sys2Proof/WellFormed.lean ====
section
/-!
DEFINITION. Well-formed instructions and well-formed configurations. An instruction is ill-formed only where no encoding
stands for it: a data frame whose payloadLength field is not the length of its payload (R95, R106). Every other operand is
legal: a port of any width is reduced (R164), a payload or a name that is too long is an outcome of the instruction (R163,
R326), not ill-formedness.
-/

namespace Sys2Proof

/-- "must equal `len(payload)`" (R95). A received frame may be longer than MAX_FRAME (R365; assumption log 36). -/
def DataFields.wellFormed (f : DataFields) : Bool := f.payloadLength.toNat == f.payload.length

def Instr.wellFormed : Instr → Bool
  | .dataNone f => f.wellFormed
  | .dataMore f => f.wellFormed
  | .dataLast f => f.wellFormed
  | .ack _ => true
  | .crc32 _ => true
  | .crc32Verify _ _ => true
  | .encData _ _ _ _ _ => true
  | .decData _ => true
  | .encAck _ _ _ => true
  | .decAck _ => true
  | .txStart _ _ => true
  | .rxRestart => true
  | .cfgTx _ _ => true
  | .cfgRx _ _ => true
  | .hwReset => true
  | .txSend => true
  | .txChannelFailure => true
  | .txTimeout => true
  | .txAckBadCorrupt => true
  | .txAckBadWrongBit => true
  | .txAckOk => true
  | .rxChannelFailure => true
  | .rxIdleTimeout => true
  | .rxZeroDatagram => true
  | .rxPacketCorrupt => true
  | .rxPacketWrongBit => true
  | .rxPacketOkMore => true
  | .rxPacketOkLast => true

/-- The two forms of the polynomial are each other's bit reversal (R130). -/
def CrcParams.wellFormed (p : CrcParams) : Bool := p.polyReflected == p.poly.reverse

/-- The constraint of R8, `NAME_LEN <= CHUNK_MAX <= MAX_PAYLOAD <= 65535`, as a condition on the configuration (R380,
93_implementation_defined.md U11). -/
def Config.wellFormed (c : Config) : Bool :=
  c.crc.wellFormed && decide (Config.headerSize ≤ c.maxFrame) && decide (c.nameLen ≤ c.chunkMax) &&
    decide (c.chunkMax ≤ c.maxPayload) && decide (c.maxPayload ≤ 65535)

end Sys2Proof
end

