-- ==== Sys2Proof/Decode.lean ====
section
/-!
DEFINITION. Decoding: total on any bytes, any operation code and any event vector, rejecting by name; then the encoder,
written from the same patterns; then the table's words. The frames are read in the byte order of the bit patterns R99 and
R102, most significant byte first. A data frame's length is the datagram's (R106); a frame does not say its kind, its role
does (R107).
-/

namespace Sys2Proof

/-- Why bits are no instruction. -/
inductive Reject where
  /-- an operation code that selects no operation: 0000, 0111, 1100, 1101, 1110 (R110) -/
  | noSuchOperation (code : BitVec 4)
  /-- a datagram shorter than a data frame's header (R184) -/
  | runt
  /-- a data frame's length is not 12 + payloadLength (R106, R185) -/
  | lengthMismatch
  /-- an altBit byte 0x02 to 0xFF (R104) -/
  | reservedAltBit
  /-- an endFlag byte 0x03 to 0xFF (R105) -/
  | reservedEndFlag
  /-- an ack frame's length is not 9 (R106, R198) -/
  | notNineBytes
  deriving DecidableEq, Repr

/-! Frames. -/

/-- The fields of the pattern R99 in a datagram of 12 bytes or more. -/
def dataFieldsOf (D : Datagram) : DataFields where
  sourcePort := Machine.get16 .big D 0
  destPort := Machine.get16 .big D 2
  altBit := Machine.altBitOf (Machine.byteAt D 4)
  payloadLength := Machine.get16 .big D 6
  checksum := Machine.get32 .big D 8
  payload := D.drop 12

/-- The instruction of the row of R99 with that endFlag. -/
def dataRow (flag : EndFlag) (f : DataFields) : Instr :=
  match flag with
  | .none => .dataNone f
  | .moreFollow => .dataMore f
  | .last => .dataLast f

/-- The three legal forms of R99, with the length rule R106, which has no bound but that of the 16-bit field (R365; assumption
log 36). -/
def decodeDataFrame (D : Datagram) : Except Reject Instr :=
  if D.length < 12 then .error .runt
  else if D.length ≠ 12 + (dataFieldsOf D).payloadLength.toNat then .error .lengthMismatch
  else if Machine.byteAt D 4 &&& 0xFE ≠ 0 then .error .reservedAltBit
  else if Machine.byteAt D 5 = 0x00 then .ok (.dataNone (dataFieldsOf D))
  else if Machine.byteAt D 5 = 0x01 then .ok (.dataMore (dataFieldsOf D))
  else if Machine.byteAt D 5 = 0x02 then .ok (.dataLast (dataFieldsOf D))
  else .error .reservedEndFlag

/-- The fields of the pattern R102 in a datagram of 9 bytes. -/
def ackFieldsOf (D : Datagram) : AckFields where
  sourcePort := Machine.get16 .big D 0
  destPort := Machine.get16 .big D 2
  altBit := Machine.altBitOf (Machine.byteAt D 4)
  checksum := Machine.get32 .big D 5

/-- The form of R102, legal only at 9 bytes (R106). -/
def decodeAckFrame (D : Datagram) : Except Reject Instr :=
  if D.length ≠ 9 then .error .notNineBytes
  else if Machine.byteAt D 4 &&& 0xFE ≠ 0 then .error .reservedAltBit
  else .ok (.ack (ackFieldsOf D))

/-! Operations. -/

/-- The operation table of R110. -/
def decodeOp (code : BitVec 4) (o : HostOperands) : Except Reject Instr :=
  match code.toNat with
  | 1 => .ok (.crc32 o.bytes)
  | 2 => .ok (.crc32Verify o.bytes o.expected)
  | 3 => .ok (.encData o.src o.dst o.altBit o.endFlag o.bytes)
  | 4 => .ok (.decData o.bytes)
  | 5 => .ok (.encAck o.src o.dst o.altBit)
  | 6 => .ok (.decAck o.bytes)
  | 8 => .ok (.txStart o.bytes o.file)
  | 9 => .ok .rxRestart
  | 10 => .ok (.cfgTx o.src o.dst)
  | 11 => .ok (.cfgRx o.src o.dst)
  | 15 => .ok .hwReset
  | _ => .error (.noSuchOperation code)

/-! Events: the vectors are evaluated left to right, and a bit after the deciding one is not evaluated (R111, R112). -/

/-- The classification table of R111, `c f t k m` being bits 4 to 0. Every vector falls in one row. -/
def decodeTxVector (v : BitVec 5) : TxRow :=
  if v.getLsbD 4 then .send
  else if v.getLsbD 3 then .channelFailure
  else if v.getLsbD 2 then .timeout
  else if !v.getLsbD 1 then .ackBadCorrupt
  else if !v.getLsbD 0 then .ackBadWrongBit
  else .ackOk

/-- The classification table of R112, `f t z k m l` being bits 5 to 0. Every vector falls in one row. -/
def decodeRxVector (v : BitVec 6) : RxRow :=
  if v.getLsbD 5 then .channelFailure
  else if v.getLsbD 4 then .idleTimeout
  else if v.getLsbD 3 then .zeroDatagram
  else if !v.getLsbD 2 then .packetCorrupt
  else if !v.getLsbD 1 then .packetWrongBit
  else if !v.getLsbD 0 then .packetOkMore
  else .packetOkLast

/-- The instruction of a row of R111. -/
def TxRow.instr : TxRow → Instr
  | .send => .txSend
  | .channelFailure => .txChannelFailure
  | .timeout => .txTimeout
  | .ackBadCorrupt => .txAckBadCorrupt
  | .ackBadWrongBit => .txAckBadWrongBit
  | .ackOk => .txAckOk

/-- The instruction of a row of R112. -/
def RxRow.instr : RxRow → Instr
  | .channelFailure => .rxChannelFailure
  | .idleTimeout => .rxIdleTimeout
  | .zeroDatagram => .rxZeroDatagram
  | .packetCorrupt => .rxPacketCorrupt
  | .packetWrongBit => .rxPacketWrongBit
  | .packetOkMore => .rxPacketOkMore
  | .packetOkLast => .rxPacketOkLast

/-- What the four tables make of what is presented at the block's boundary. -/
def decode : Encoded → Except Reject Instr
  | .op code o => decodeOp code o
  | .txVector v => .ok (decodeTxVector v).instr
  | .rxVector v => .ok (decodeRxVector v).instr
  | .dataFrame d => decodeDataFrame d
  | .ackFrame d => decodeAckFrame d

/-! The encoder. -/

/-- The bytes of the pattern R99 with the flag byte of a row. -/
def dataFrameBytes (flag : EndFlag) (f : DataFields) : Datagram :=
  Machine.put16 .big f.sourcePort ++ Machine.put16 .big f.destPort ++ [Machine.altByteOf f.altBit, Machine.flagByteOf flag] ++
    Machine.put16 .big f.payloadLength ++ Machine.put32 .big f.checksum ++ f.payload

/-- The bytes of the pattern R102. -/
def ackFrameBytes (f : AckFields) : Datagram :=
  Machine.put16 .big f.sourcePort ++ Machine.put16 .big f.destPort ++ [Machine.altByteOf f.altBit] ++
    Machine.put32 .big f.checksum

/-- What stands for an instruction at the block's boundary; a bit marked `x` in a row is written 0, an operand port an
operation does not read is zero or empty. -/
def encode : Instr → Encoded
  | .dataNone f => .dataFrame (dataFrameBytes .none f)
  | .dataMore f => .dataFrame (dataFrameBytes .moreFollow f)
  | .dataLast f => .dataFrame (dataFrameBytes .last f)
  | .ack f => .ackFrame (ackFrameBytes f)
  | .crc32 b => .op 0b0001 { HostOperands.zero with bytes := b }
  | .crc32Verify b e => .op 0b0010 { HostOperands.zero with bytes := b, expected := e }
  | .encData s d a f p => .op 0b0011 { HostOperands.zero with src := s, dst := d, altBit := a, endFlag := f, bytes := p }
  | .decData b => .op 0b0100 { HostOperands.zero with bytes := b }
  | .encAck s d a => .op 0b0101 { HostOperands.zero with src := s, dst := d, altBit := a }
  | .decAck b => .op 0b0110 { HostOperands.zero with bytes := b }
  | .txStart n f => .op 0b1000 { HostOperands.zero with bytes := n, file := f }
  | .rxRestart => .op 0b1001 HostOperands.zero
  | .cfgTx s d => .op 0b1010 { HostOperands.zero with src := s, dst := d }
  | .cfgRx s d => .op 0b1011 { HostOperands.zero with src := s, dst := d }
  | .hwReset => .op 0b1111 HostOperands.zero
  | .txSend => .txVector 0b10000
  | .txChannelFailure => .txVector 0b01000
  | .txTimeout => .txVector 0b00100
  | .txAckBadCorrupt => .txVector 0b00000
  | .txAckBadWrongBit => .txVector 0b00010
  | .txAckOk => .txVector 0b00011
  | .rxChannelFailure => .rxVector 0b100000
  | .rxIdleTimeout => .rxVector 0b010000
  | .rxZeroDatagram => .rxVector 0b001000
  | .rxPacketCorrupt => .rxVector 0b000000
  | .rxPacketWrongBit => .rxVector 0b000100
  | .rxPacketOkMore => .rxVector 0b000110
  | .rxPacketOkLast => .rxVector 0b000111

/-! The table's words. -/

/-- The `n` bytes of an 8n-bit word, most significant byte first: bit 95 (71) of a frame's pattern is bit 7 of its byte 0
(R99, R102). -/
def wordBytes (n w : Nat) : Bytes := (List.range n).map fun i => BitVec.ofNat 8 (w / 256 ^ (n - 1 - i))

/-- One byte whose role is not given: the three tables of 4, 5 and 6 bits overlap in it, so some words stand for one row
each of two or three tables. The operation select goes first; of the words that select no operation, 00000000 and
0001xxxx are read as a sender vector, 00000111 and 001xxxxx as a receiver vector (assumption log 15). -/
def decodeByteWord (w : Nat) : Option Instr :=
  if w < 16 then
    match decodeOp (BitVec.ofNat 4 w) HostOperands.zero with
    | .ok i => some i
    | .error _ =>
      if w = 0 then some (decodeTxVector (BitVec.ofNat 5 w)).instr
      else if w = 7 then some (decodeRxVector (BitVec.ofNat 6 w)).instr
      else none
  else if w < 32 then some (decodeTxVector (BitVec.ofNat 5 w)).instr
  else if w < 64 then some (decodeRxVector (BitVec.ofNat 6 w)).instr
  else none

/-- What the decoder reads from `nbits` bits numbered as spec/opcode_table.json numbers them, operands above them being
zero. The number of bits tells the table: 96 a data frame's header (its payload is payloadLength bytes 0x00), 72 an ack
frame, 4 an operation, 5 a sender vector, 6 a receiver vector; 8 is a row of the last three in a whole byte. -/
def decodeTableWord (nbits w : Nat) : Option Instr :=
  match nbits with
  | 96 => (decodeDataFrame (wordBytes 12 w ++ Machine.zeros (Machine.get16 .big (wordBytes 12 w) 6).toNat)).toOption
  | 72 => (decodeAckFrame (wordBytes 9 w)).toOption
  | 4 => (decodeOp (BitVec.ofNat 4 w) HostOperands.zero).toOption
  | 5 => some (decodeTxVector (BitVec.ofNat 5 w)).instr
  | 6 => some (decodeRxVector (BitVec.ofNat 6 w)).instr
  | 8 => decodeByteWord w
  | _ => none

end Sys2Proof
end

