-- ==== Sys2Proof/Machine/Crc.lean ====
section
/-!
DEFINITION. The CRC-32 of 40_crc32.md: the streaming transactions of R140, CRC32 as R133 in terms of them, CRC32_VERIFY
(R142), and the two equivalent forms R134 and R136, which nothing in the machine calls.
-/

namespace Sys2Proof.Machine

/-- One bit of R133's inner loop, the register shifted toward bit 0. For parameters whose input is not reflected the
register is shifted toward bit 31, as in R134 (assumption log 25). -/
def crcBit (p : CrcParams) (c : Word) : Word :=
  if p.reflectIn then
    if c.getLsbD 0 then (c >>> 1) ^^^ p.polyReflected else c >>> 1
  else
    if c.getLsbD 31 then (c <<< 1) ^^^ p.poly else c <<< 1

/-- The byte enters the low 8 bits (R133); for input that is not reflected, the high 8 bits (R134). -/
def crcEnter (p : CrcParams) (c : Word) (b : Byte) : Word :=
  if p.reflectIn then c ^^^ b.setWidth 32 else c ^^^ (b.setWidth 32 <<< 24)

/-- `crc_init` (R132, R140). -/
def crcInit (p : CrcParams) : Word := p.init

/-- `crc_update(byte)`: one byte step of R133 (R140). -/
def crcUpdate (p : CrcParams) (c : Word) (b : Byte) : Word := (crcBit p)^[8] (crcEnter p c b)

/-- `crc_value` (R140). -/
def crcValue (p : CrcParams) (c : Word) : Word :=
  (if p.reflectIn = p.reflectOut then c else c.reverse) ^^^ p.finalXor

/-- The register after the bytes of `B`, in increasing offset order (R131, R133). -/
def crcRun (p : CrcParams) (c : Word) (B : Bytes) : Word := B.foldl (crcUpdate p) c

/-- CRC32 (R133). -/
def crc32 (p : CrcParams) (B : Bytes) : Word := crcValue p (crcRun p (crcInit p) B)

/-- CRC32_VERIFY: recompute and compare all 32 bits (R142, R143). -/
def crc32Verify (p : CrcParams) (B : Bytes) (expected : Word) : Bool := crc32 p B == expected

/-! The equivalent forms, for the default parameters. -/

/-- One bit of R134's loop. -/
def divisionBit (c : Word) : Word :=
  if c.getLsbD 31 then (c <<< 1) ^^^ 0x04C11DB7 else c <<< 1

/-- One byte of R134's loop. -/
def divisionByte (c : Word) (b : Byte) : Word :=
  divisionBit^[8] (c ^^^ (b.reverse.setWidth 32 <<< 24))

/-- CRC32 by polynomial division (R134). -/
def crc32ByDivision (B : Bytes) : Word := (B.foldl divisionByte 0xFFFFFFFF).reverse ^^^ 0xFFFFFFFF

/-- `TAB[k]` (R136). -/
def crcTable (k : Byte) : Word := (crcBit crcDefault)^[8] (k.setWidth 32)

/-- One byte step of R136. -/
def tableByte (c : Word) (b : Byte) : Word :=
  (c >>> 8) ^^^ crcTable ((c ^^^ b.setWidth 32).setWidth 8)

/-- CRC32 by table (R136). -/
def crc32ByTable (B : Bytes) : Word := (B.foldl tableByte 0xFFFFFFFF) ^^^ 0xFFFFFFFF

end Sys2Proof.Machine
end

