-- ==== Sys2Proof/Machine/State.lean ====
section
/-!
DEFINITION. The state as plain data: the sender's registers (R23 to R30), the receiver's registers (R33 to R41), and the
environment as far as a step reads or writes it (R46; the inputs, ports and result are the model's own fields, assumption
logs 1 to 4), the reasons a step can stop, and the state after reset (R44, R47, R360).
-/

namespace Sys2Proof.Machine

/-! Enumerations of the registers. -/

/-- `tx.phase` (R24). -/
inductive TxPhase where
  | call
  | ack
  deriving DecidableEq, Repr

/-- `tx.status` (R28). -/
inductive TxStatus where
  | idle
  | running
  | done
  | errChannel
  | errPayload
  | errName
  deriving DecidableEq, Repr

/-- `rx.status` (R40). -/
inductive RxStatus where
  | stopped
  | running
  | idleEnd
  | errChannel
  deriving DecidableEq, Repr

/-! The registers. -/

/-- The sender shell's registers; `tx.state` is the pair of `phase` and `bit` (R24). -/
structure TxRegs where
  srcPort        : Half
  dstPort        : Half
  phase          : TxPhase
  bit            : Bit
  bytesProcessed : Nat
  pending        : Bytes
  retryCount     : Nat
  status         : TxStatus
  T              : Bytes
  timerArmed     : Bool
  deriving DecidableEq, Repr

/-- The receiver shell's registers; `rx.state` is `bit` (R34). -/
structure RxRegs where
  srcPort       : Half
  dstPort       : Half
  bit           : Bit
  buf           : Bytes
  fileName      : Bytes
  fileNameValid : Bool
  lastAck       : Bytes
  lastAckValid  : Bool
  cntOk         : Nat
  cntCorrupt    : Nat
  cntWrongBit   : Nat
  status        : RxStatus
  timerArmed    : Bool
  deriving DecidableEq, Repr

/-! Results of the operations (R110). -/

/-- The header outputs of DEC_DATA (R181). -/
structure DataHeader where
  sourcePort    : Half
  destPort      : Half
  altByte       : Byte
  flagByte      : Byte
  altBit        : Bit
  endFlag       : WireFlag
  payloadLength : Half
  checksum      : Word
  deriving DecidableEq, Repr

/-- The results of DEC_DATA (R181). On a runt the header outputs hold no value, which is the `none` of R184 itself, and
the payload is empty (assumption log 32). -/
structure DataVerdict where
  runt       : Bool
  lengthOk   : Bool
  fieldsOk   : Bool
  checksumOk : Bool
  frameOk    : Bool
  header     : Option DataHeader
  payload    : Bytes
  deriving DecidableEq, Repr

/-- The header outputs of DEC_ACK (R196). -/
structure AckHeader where
  sourcePort : Half
  destPort   : Half
  altByte    : Byte
  altBit     : Bit
  checksum   : Word
  deriving DecidableEq, Repr

/-- The results of DEC_ACK (R196). Off nine bytes the header outputs hold no value, the `none` of R198 itself. -/
structure AckVerdict where
  lengthOk   : Bool
  fieldsOk   : Bool
  checksumOk : Bool
  frameOk    : Bool
  header     : Option AckHeader
  deriving DecidableEq, Repr

/-- The error an encoder can raise, with its `info` (R163, R324). -/
inductive CodecError where
  | payloadTooLarge (length : Nat)
  deriving DecidableEq, Repr

/-- The registers the host may read (R44). The timer flags are hidden and `tx.T` is only supplied. -/
inductive RegName where
  | txSrcPort
  | txDstPort
  | txState
  | txBytesProcessed
  | txPending
  | txRetryCount
  | txStatus
  | rxSrcPort
  | rxDstPort
  | rxState
  | rxBuf
  | rxFileName
  | rxFileNameValid
  | rxLastAck
  | rxLastAckValid
  | rxCntOk
  | rxCntCorrupt
  | rxCntWrongBit
  | rxStatus
  deriving DecidableEq, Repr

/-- What a register read gives. -/
inductive RegValue where
  | number (n : Nat)
  | flag (b : Bool)
  | bytes (B : Bytes)
  | txState (phase : TxPhase) (bit : Bit)
  | rxState (bit : Bit)
  /-- the read of a register behind a false valid bit: reported to the host as an error of its own (R45, U4), with the bytes
  the port shows, which are free (assumption log 6) -/
  | unspecified (B : Bytes)
  deriving DecidableEq, Repr

/-- What a host operation returned (R110, column "results"; R327; U6 for `refused`). -/
inductive OpResult where
  | crc (c : Word)
  | verified (ok : Bool)
  | frame (F : Bytes)
  | error (e : CodecError)
  | data (v : DataVerdict)
  | ack (v : AckVerdict)
  | commandDone
  | commandRefused
  | nameTooLong
  | register (v : RegValue)
  deriving DecidableEq, Repr

/-! The environment (45_environment.md). -/

/-- The three outcomes of `Channel.receive` (R290). -/
inductive RecvOutcome where
  | failure
  | timeout
  | bytes (d : Datagram)
  deriving DecidableEq, Repr

/-- The environment's choice of an outcome: one of the three, any bytes at all (R77), or the oldest datagram the Channel
holds in that direction and Timeout if it holds none (assumption log 26). -/
inductive RecvChoice where
  | failure
  | timeout
  | bytes (d : Datagram)
  | oldest
  deriving DecidableEq, Repr

/-- What the environment grants a shell in one step: how its receive ends, and whether its send is done or fails (R290). -/
structure ShellPort where
  recv   : RecvOutcome
  sendOk : Bool
  deriving DecidableEq, Repr

/-- A direction of the Channel. -/
inductive Direction where
  | toRx
  | toTx
  deriving DecidableEq, Repr

/-- The end of the Channel that one shell calls (R5, "channel endpoint"). -/
inductive ChannelEnd where
  | sender
  | receiver
  deriving DecidableEq, Repr

/-- What the host's closing has left of one end of the Channel (R290, D38; assumption log 33). -/
structure EndState where
  /-- the end is closed and has not been reopened -/
  closed : Bool
  /-- a close has not yet been seen: the pending or next call still has to return Failure -/
  abort  : Bool
  deriving DecidableEq, Repr

/-- One `FileSink.writeAll(name, bytes)` (R268, R297). -/
structure SinkCall where
  name    : Bytes
  content : Bytes
  deriving DecidableEq, Repr

/-- The FaultInjector's `Stats` (R310). -/
structure InjectorStats where
  lost       : Nat
  duplicated : Nat
  corrupted  : Nat
  deriving DecidableEq, Repr

/-- The FaultInjector, of which the model has one for both directions (DESIGN CHOICE: R310 leaves open how many there are;
assumption log 34): probabilities in units of 2^-32 (1 is 2^32), how many draws its random source has given, its
counters (R310, R314; assumption log 18). -/
structure Injector where
  pLoss     : Nat
  pDup      : Nat
  pCorrupt  : Nat
  drawsUsed : Nat
  stats     : InjectorStats
  deriving DecidableEq, Repr

/-- What the Channel may do by itself to the datagrams it holds (R77, R291, R310 to R315). -/
inductive ChannelMove where
  /-- a datagram from anywhere: a late copy, a changed one, a stranger's -/
  | insert (dir : Direction) (d : Datagram)
  /-- loss -/
  | lose (dir : Direction) (d : Datagram)
  /-- duplication -/
  | duplicate (dir : Direction) (d : Datagram)
  /-- the FaultInjector applied to a datagram -/
  | inject (dir : Direction) (d : Datagram)
  /-- the test bench sets the FaultInjector's probabilities -/
  | setInjector (pLoss pDup pCorrupt : Nat)
  deriving DecidableEq, Repr

/-- One input of the machine: what the outside world does in one step (assumption log 1). -/
inductive Input where
  /-- the host issues an operation or a command (R110, R299) -/
  | host (code : BitVec 4) (operands : HostOperands)
  /-- the host reads a register (R44, R299) -/
  | read (r : RegName)
  /-- the sender shell takes its turn -/
  | txTurn (recv : RecvChoice) (sendOk : Bool)
  /-- the receiver shell takes its turn -/
  | rxTurn (recv : RecvChoice) (sendOk : Bool)
  /-- a datagram arrives at the shell the direction leads to (R291, R329 (a)) -/
  | arrive (dir : Direction) (d : Datagram) (sendOk : Bool)
  /-- the Channel or the FaultInjector acts -/
  | channel (m : ChannelMove)
  /-- the host closes the Channel at one end (R290, R299, D38; assumption log 33) -/
  | close (e : ChannelEnd)
  /-- the socket code, which is out of scope (R4), gives that end a new Channel; a call that a close has aborted still returns
  Failure (R290; assumption log 33) -/
  | reopen (e : ChannelEnd)
  deriving DecidableEq, Repr

/-- The environment's part of the state. -/
structure Env where
  /-- inputs still to come, the next one first (the model's own field) -/
  inputs   : List Input
  /-- the sender's port in this step (the model's own field) -/
  txPort   : ShellPort
  /-- the receiver's port in this step (the model's own field) -/
  rxPort   : ShellPort
  /-- what the last host operation returned (the model's own field) -/
  result   : Option OpResult
  /-- datagrams in the Channel toward the receiver, oldest first (R46, R291) -/
  toRx     : List Datagram
  /-- datagrams in the Channel toward the sender, oldest first (R46, R291) -/
  toTx     : List Datagram
  /-- the sender's end of the Channel (R290, R299, D38; assumption log 33) -/
  txEnd    : EndState
  /-- the receiver's end of the Channel (R290, R299, D38; assumption log 33) -/
  rxEnd    : EndState
  /-- the calls of FileSink, oldest first (R268, R297) -/
  sink     : List SinkCall
  /-- the FaultInjector, one for both directions (R310; assumption log 34) -/
  injector : Injector
  deriving DecidableEq, Repr

/-- The whole state. The block's own registers are `tx` and `rx` (R20). -/
structure State where
  tx  : TxRegs
  rx  : RxRegs
  env : Env
  deriving DecidableEq, Repr

/-! Why a step stops. -/

inductive Fault where
  /-- TX.ACK_OK with a `tx.pending` shorter than a header, whose byte 5 does not exist (R14). Raised by acceptAck only, in
  no state that meets the invariant of Safety.lean. Safe. -/
  | pendingNotAFrame
  deriving DecidableEq, Repr

inductive Refusal where
  /-- An instruction that has no meaning yet. Raised by exec's arms only; no arm raises it now. Safe. -/
  | notModelled (mnemonic : String)
  /-- An operation code that selects no operation: "a model refuses them" (R110, U5). Raised by step only. Safe. -/
  | noSuchOperation (code : BitVec 4)
  /-- An event row of the sender executed where the shell is not running or its vector selects another row: "A model's
  transition function gives these eight pairs no step" (R228). Raised by onTxRow only, never from step. Safe. -/
  | txRowNotSelected (row : TxRow)
  /-- An event row of the receiver executed where the shell is not running or its vector selects another row (R254).
  Raised by onRxRow only, never from step. Safe. -/
  | rxRowNotSelected (row : RxRow)
  deriving DecidableEq, Repr

/-! Reset. -/

/-- The sender's registers after reset (R44, R360). -/
def TxRegs.reset : TxRegs where
  srcPort := 0
  dstPort := 0
  phase := .call
  bit := 0
  bytesProcessed := 0
  pending := []
  retryCount := 0
  status := .idle
  T := []
  timerArmed := false

/-- The receiver's registers after reset (R44, R360). DESIGN CHOICE: the contents of `fileName` and `lastAck`, which the
spec calls unspecified behind their valid bits, are zero bytes (assumption log 5). -/
def RxRegs.reset : RxRegs where
  srcPort := 0
  dstPort := 0
  bit := 0
  buf := []
  fileName := List.replicate 20 0
  fileNameValid := false
  lastAck := List.replicate 9 0
  lastAckValid := false
  cntOk := 0
  cntCorrupt := 0
  cntWrongBit := 0
  status := .stopped
  timerArmed := false

/-- An environment in which nothing has happened yet. DESIGN CHOICE: the spec gives the environment no reset (R362);
assumption logs 1 to 4, 18, 22 and 33. -/
def Env.initial : Env where
  inputs := []
  txPort := ⟨.timeout, true⟩
  rxPort := ⟨.timeout, true⟩
  result := none
  toRx := []
  toTx := []
  txEnd := ⟨false, false⟩
  rxEnd := ⟨false, false⟩
  sink := []
  injector := ⟨0, 0, 0, 0, ⟨0, 0, 0⟩⟩

/-- The machine right after reset (R47, R360, R361). -/
def State.reset : State where
  tx := TxRegs.reset
  rx := RxRegs.reset
  env := Env.initial

end Sys2Proof.Machine
end

