-- ==== Sys2Proof/Machine/Flags.lean ====
section
/-!
DEFINITION. The values that play the role of flags (R43): the verdict bits of DEC_DATA (R184 to R189) and of DEC_ACK (R198
to R201). They are outputs, stored nowhere.
-/

namespace Sys2Proof.Machine

/-- `runt`: no complete header (R184). -/
def dataRunt (D : Datagram) : Bool := decide (D.length < Config.headerSize)

/-- `lengthOk` of a data frame that is no runt: true exactly when `L = HEADER_SIZE + payloadLength` (R185). "DEC_DATA has no upper
length check of its own beyond the 16-bit `payloadLength`" (R365, followed over R90 and R296: DEDUCED, assumption log 36). -/
def dataLengthOk (D : Datagram) : Bool := D.length == Config.headerSize + (be16 D 6).toNat

/-- `altByte <= 0x01` (R187, R200). -/
def altByteLegal (b : Byte) : Bool := decide (b.toNat ≤ 1)

/-- `flagByte <= 0x02` (R187). -/
def flagByteLegal (b : Byte) : Bool := decide (b.toNat ≤ 2)

/-- `fieldsOk` of a data frame that is no runt (R187). -/
def dataFieldsOk (D : Datagram) : Bool := altByteLegal (byteAt D 4) && flagByteLegal (byteAt D 5)

/-- `checksumOk` of a data frame whose length is right: CRC32 over `D[0:8] ‖ D[12:L]` against the stored value (R186, R141). -/
def dataChecksumOk (c : Config) (D : Datagram) : Bool :=
  crc32Verify c.crc (slice D 0 Config.crcCoverHdr ++ slice D Config.headerSize D.length) (get32 c.crcFieldOrder D 8)

/-- `lengthOk` of an ack frame (R198). -/
def ackLengthOk (D : Datagram) : Bool := D.length == Config.ackSize

/-- `fieldsOk` of an ack frame of nine bytes (R200). -/
def ackFieldsOk (D : Datagram) : Bool := altByteLegal (byteAt D 4)

/-- `checksumOk` of an ack frame of nine bytes: CRC32 over `D[0:5]` against the stored value (R199). -/
def ackChecksumOk (c : Config) (D : Datagram) : Bool :=
  crc32Verify c.crc (slice D 0 Config.ackCover) (get32 c.crcFieldOrder D 5)

end Sys2Proof.Machine
end

