-- ==== Sys2Proof/Machine/Codec.lean ====
section
/-!
DEFINITION. The PacketCodec: ENC_DATA (R161), ENC_ACK (R170), DEC_DATA (R181), DEC_ACK (R196), pure functions of the
configuration and the operands (R160, R180).
-/

namespace Sys2Proof.Machine

/-- The 8 header bytes before the checksum (R161). -/
def dataHeaderBytes (c : Config) (sourcePort destPort : Nat) (altBit : Bit) (endFlag : EndFlag) (n : Nat) : Bytes :=
  put16 c.portOrder (low16 sourcePort) ++ put16 c.portOrder (low16 destPort) ++ [altByteOf altBit, flagByteOf endFlag] ++
    put16 .big (BitVec.ofNat 16 n)

/-- A data frame once its size has passed: header, checksum over header and payload, payload (R161). -/
def packData (c : Config) (sourcePort destPort : Nat) (altBit : Bit) (endFlag : EndFlag) (payload : Bytes) : Bytes :=
  let H := dataHeaderBytes c sourcePort destPort altBit endFlag payload.length
  H ++ put32 c.crcFieldOrder (crc32 c.crc (H ++ payload)) ++ payload

/-- ENC_DATA (R161): the size check comes first (R162, R163). -/
def encData (c : Config) (sourcePort destPort : Nat) (altBit : Bit) (endFlag : EndFlag) (payload : Bytes) :
    Except CodecError Bytes :=
  if Config.headerSize + payload.length > c.maxFrame then .error (.payloadTooLarge payload.length)
  else .ok (packData c sourcePort destPort altBit endFlag payload)

/-- The 5 bytes before an ack frame's checksum (R170). -/
def ackHeaderBytes (c : Config) (sourcePort destPort : Nat) (altBit : Bit) : Bytes :=
  put16 c.portOrder (low16 sourcePort) ++ put16 c.portOrder (low16 destPort) ++ [altByteOf altBit]

/-- ENC_ACK (R170): it never fails (R171). -/
def encAck (c : Config) (sourcePort destPort : Nat) (altBit : Bit) : Bytes :=
  let H := ackHeaderBytes c sourcePort destPort altBit
  H ++ put32 c.crcFieldOrder (crc32 c.crc H)

/-- The header outputs of DEC_DATA for 12 bytes or more, whatever the verdicts (R183). -/
def dataHeaderOf (c : Config) (D : Datagram) : DataHeader where
  sourcePort := get16 c.portOrder D 0
  destPort := get16 c.portOrder D 2
  altByte := byteAt D 4
  flagByte := byteAt D 5
  altBit := altBitOf (byteAt D 4)
  endFlag := wireFlagOf (byteAt D 5)
  payloadLength := be16 D 6
  checksum := get32 c.crcFieldOrder D 8

/-- DEC_DATA (R181), total (R182). On a runt the payload output is the empty sequence, as R181 and R184 have it, where
92_eei_decisions.md D5 says "none" of it (DEDUCED; assumption log 32). -/
def decData (c : Config) (D : Datagram) : DataVerdict :=
  if dataRunt D then
    { runt := true, lengthOk := false, fieldsOk := false, checksumOk := false, frameOk := false, header := none, payload := [] }
  else if dataLengthOk D then
    { runt := false, lengthOk := true, fieldsOk := dataFieldsOk D, checksumOk := dataChecksumOk c D,
      frameOk := dataFieldsOk D && dataChecksumOk c D, header := some (dataHeaderOf c D),
      payload := slice D Config.headerSize D.length }
  else
    { runt := false, lengthOk := false, fieldsOk := dataFieldsOk D, checksumOk := false, frameOk := false,
      header := some (dataHeaderOf c D), payload := [] }

/-- The header outputs of DEC_ACK for nine bytes (R196). -/
def ackHeaderOf (c : Config) (D : Datagram) : AckHeader where
  sourcePort := get16 c.portOrder D 0
  destPort := get16 c.portOrder D 2
  altByte := byteAt D 4
  altBit := altBitOf (byteAt D 4)
  checksum := get32 c.crcFieldOrder D 5

/-- DEC_ACK (R196), total (R197). -/
def decAck (c : Config) (D : Datagram) : AckVerdict :=
  if ackLengthOk D then
    { lengthOk := true, fieldsOk := ackFieldsOk D, checksumOk := ackChecksumOk c D,
      frameOk := ackFieldsOk D && ackChecksumOk c D, header := some (ackHeaderOf c D) }
  else
    { lengthOk := false, fieldsOk := false, checksumOk := false, frameOk := false, header := none }

/-- The decoded altBit of an ack frame, if there is one. -/
def AckVerdict.bit (v : AckVerdict) : Option Bit := v.header.map (·.altBit)

/-- The decoded altBit of a data frame, if there is one. -/
def DataVerdict.bit (v : DataVerdict) : Option Bit := v.header.map (·.altBit)

/-- The decoded endFlag of a data frame is LAST. -/
def DataVerdict.isLast (v : DataVerdict) : Bool := v.header.map (·.endFlag) == some .last

end Sys2Proof.Machine
end

