-- ==== Sys2Proof/Machine/Ops.lean ====
section
/-!
DEFINITION. The named operations over the state that the meanings share: replacing one part of the state, answering the
host, sending and receiving on the Channel (R71, R290), the classification vectors (R111, R112), entering a fatal error
(R330), and the guards of the event rows. What plays the role of taking an exception in this block is entering a fatal
error, one operation per shell; the return from it is a start (R334): startTx and startRx in Sender.lean and Receiver.lean.
-/

namespace Sys2Proof.Machine

/-- What a step of this machine answers. -/
abbrev StepResult := Host.Outcome State Fault Refusal

/-! Replacing one part of the state. -/

def State.setTx (s : State) (t : TxRegs) : State := { s with tx := t }

def State.setRx (s : State) (r : RxRegs) : State := { s with rx := r }

def State.setEnv (s : State) (e : Env) : State := { s with env := e }

/-- The inputs still to come. -/
def State.setInputs (s : State) (l : List Input) : State := s.setEnv { s.env with inputs := l }

/-- A host operation's answer (R110). -/
def State.answer (s : State) (r : OpResult) : State := s.setEnv { s.env with result := some r }

/-! The Channel. -/

/-- `Channel.send` that is done: one datagram more in that direction (R71, R290; assumption log 27). -/
def transmit (dir : Direction) (d : Datagram) (s : State) : State :=
  match dir with
  | .toRx => s.setEnv { s.env with toRx := s.env.toRx ++ [d] }
  | .toTx => s.setEnv { s.env with toTx := s.env.toTx ++ [d] }

/-- A call at this end returns Failure: it is closed, or a close has not yet been seen (R290, D38; assumption log 33). -/
def EndState.fails (e : EndState) : Bool := e.closed || e.abort

/-- The host closes an end: "it makes the pending or next call return Failure" (R290). -/
def EndState.close (_ : EndState) : EndState := ⟨true, true⟩

/-- An end is given a new Channel. The call that a close has aborted is not revived (R290, D38; assumption log 33). -/
def EndState.reopen (e : EndState) : EndState := { e with closed := false }

/-- A call at this end has returned, with Failure if a close was still to be seen. -/
def EndState.called (e : EndState) : EndState := { e with abort := false }

/-- One end of the Channel replaced by a function of it. -/
def State.onEnd (s : State) (e : ChannelEnd) (f : EndState → EndState) : State :=
  match e with
  | .sender => s.setEnv { s.env with txEnd := f s.env.txEnd }
  | .receiver => s.setEnv { s.env with rxEnd := f s.env.rxEnd }

/-- What a receive is granted: where the end fails it returns Failure, whatever the environment chose (R290, D38). -/
def grantRecv (e : EndState) (choice : RecvChoice) : RecvChoice := if e.fails then .failure else choice

/-- Whether a send is granted: where the end fails it returns Failure (R290, D38). -/
def grantOk (e : EndState) (sendOk : Bool) : Bool := sendOk && !e.fails

/-- The outcome of a receive under the environment's choice (R77, R290, R333). -/
def resolve (choice : RecvChoice) (queue : List Datagram) : RecvOutcome :=
  match choice with
  | .failure => .failure
  | .timeout => .timeout
  | .bytes d => .bytes d
  | .oldest =>
    match queue with
    | [] => .timeout
    | d :: _ => .bytes d

/-- A receive consumes the datagram it returns, if the Channel held it (R71). -/
def consume (o : RecvOutcome) (queue : List Datagram) : List Datagram :=
  match o with
  | .failure => queue
  | .timeout => queue
  | .bytes d => queue.erase d

/-- The datagram a receive returned. -/
def RecvOutcome.datagram : RecvOutcome → Datagram
  | .failure => []
  | .timeout => []
  | .bytes d => d

/-- The outcome of the sender's receive. -/
def txOutcome (choice : RecvChoice) (s : State) : RecvOutcome := resolve (grantRecv s.env.txEnd choice) s.env.toTx

/-- The outcome of the receiver's receive. -/
def rxOutcome (choice : RecvChoice) (s : State) : RecvOutcome := resolve (grantRecv s.env.rxEnd choice) s.env.toRx

/-- The sender's turn: in WAIT_ACK it performs `Channel.receive(RTO)`, in WAIT_CALL it does not (R111, R228) and its call is
the send of SEND. Either call has returned with this step. -/
def pollTx (choice : RecvChoice) (sendOk : Bool) (s : State) : State :=
  match s.tx.phase with
  | .call =>
    s.setEnv { s.env with
      txPort := { s.env.txPort with sendOk := grantOk s.env.txEnd sendOk }
      txEnd := s.env.txEnd.called }
  | .ack =>
    s.setEnv { s.env with
      txPort := ⟨txOutcome choice s, grantOk s.env.txEnd sendOk⟩
      toTx := consume (txOutcome choice s) s.env.toTx
      txEnd := s.env.txEnd.called }

/-- The receiver's turn: it performs `Channel.receive(IDLE_TIMEOUT)` (R112, R254). -/
def pollRx (choice : RecvChoice) (sendOk : Bool) (s : State) : State :=
  s.setEnv { s.env with
    rxPort := ⟨rxOutcome choice s, grantOk s.env.rxEnd sendOk⟩
    toRx := consume (rxOutcome choice s) s.env.toRx
    rxEnd := s.env.rxEnd.called }

/-- The sender's receive of this step has ended with the datagram `d`. -/
def receiveTx (d : Datagram) (s : State) : State :=
  s.setEnv { s.env with txPort := { s.env.txPort with recv := .bytes d } }

/-- The receiver's receive of this step has ended with the datagram `d`. -/
def receiveRx (d : Datagram) (s : State) : State :=
  s.setEnv { s.env with rxPort := { s.env.rxPort with recv := .bytes d } }

/-! Classification (R111, R112, R332). -/

/-- The vector `c f t k m`, a bit that is not evaluated being 0 (R111). -/
def txVector (c : Config) (s : State) : BitVec 5 :=
  match s.tx.phase with
  | .call => 0b10000
  | .ack =>
    match s.env.txPort.recv with
    | .failure => 0b01000
    | .timeout => 0b00100
    | .bytes d =>
      if (decAck c d).frameOk = false then 0b00000
      else if (decAck c d).bit = some s.tx.bit then 0b00011
      else 0b00010

/-- Under SHORT_FIRST_REFUSED a short first packet is classed as PACKET_CORRUPT (U7); the block does not set it. -/
def shortFirst (c : Config) (r : DataVerdict) (s : State) : Bool :=
  c.shortFirstRefused && !s.rx.fileNameValid && decide (r.payload.length < c.nameLen) && r.bit == some s.rx.bit

/-- The vector `f t z k m l`, a bit that is not evaluated being 0 (R112). -/
def rxVector (c : Config) (s : State) : BitVec 6 :=
  match s.env.rxPort.recv with
  | .failure => 0b100000
  | .timeout => 0b010000
  | .bytes d =>
    if allZero d then 0b001000
    else if (decData c d).frameOk = false ∨ shortFirst c (decData c d) s = true then 0b000000
    else if (decData c d).bit ≠ some s.rx.bit then 0b000100
    else if (decData c d).isLast then 0b000111
    else 0b000110

/-- The row of R111 the sender's state and port select. -/
def txSelect (s : State) : TxRow := decodeTxVector (txVector block s)

/-- The row of R112 the receiver's state and port select. -/
def rxSelect (s : State) : RxRow := decodeRxVector (rxVector block s)

/-- An event row of the sender is a step only while the session runs and its vector selects the row (R111, R228). -/
def onTxRow (row : TxRow) (body : State → StepResult) (s : State) : StepResult :=
  if s.tx.status = .running ∧ txSelect s = row then body s else .refused (.txRowNotSelected row)

/-- An event row of the receiver is a step only while it runs and its vector selects the row (R112, R254). -/
def onRxRow (row : RxRow) (body : State → StepResult) (s : State) : StepResult :=
  if s.rx.status = .running ∧ rxSelect s = row then body s else .refused (.rxRowNotSelected row)

/-! Fatal errors (R324, R325, R330). -/

/-- The sender enters a fatal error: the status takes the code, the timer flag is cleared, nothing is saved (R330). -/
def enterTxFatal (code : TxStatus) (s : State) : State :=
  s.setTx { s.tx with status := code, timerArmed := false }

/-- The receiver enters its fatal error (R330, R266). -/
def enterRxFatal (s : State) : State :=
  s.setRx { s.rx with status := .errChannel, timerArmed := false }

end Sys2Proof.Machine
end

