-- ==== Sys2Proof/Machine/Checksum.lean ====
section
/-!
DEFINITION. The meanings of CRC32 and CRC32_VERIFY. "Neither operation raises an error, touches a register of 10_state.md
or calls the environment" (R144).
-/

namespace Sys2Proof.Machine

/-- CRC32 (R133). -/
def execCrc32 (bytes : Bytes) (s : State) : StepResult := .next (s.answer (.crc (crc32 block.crc bytes)))

/-- CRC32_VERIFY (R142). -/
def execCrc32Verify (bytes : Bytes) (expected : Word) (s : State) : StepResult :=
  .next (s.answer (.verified (crc32Verify block.crc bytes expected)))

end Sys2Proof.Machine
end

