-- ==== Sys2Proof/Machine/Decoder.lean ====
section
/-!
DEFINITION. The meanings of DEC_DATA and DEC_ACK issued by the host: pure and total (R180, R182, R197).
-/

namespace Sys2Proof.Machine

/-- DEC_DATA (R181). -/
def execDecData (datagram : Datagram) (s : State) : StepResult := .next (s.answer (.data (decData block datagram)))

/-- DEC_ACK (R196). -/
def execDecAck (datagram : Datagram) (s : State) : StepResult := .next (s.answer (.ack (decAck block datagram)))

end Sys2Proof.Machine
end

