-- ==== Sys2Proof/Machine/Encoder.lean ====
section
/-!
DEFINITION. The meanings of ENC_DATA and ENC_ACK issued by the host: pure, the frame or the error on the result (R160, R324).
-/

namespace Sys2Proof.Machine

/-- ENC_DATA (R161): the frame, or PayloadTooLarge and no bytes (R163, R324). -/
def execEncData (sourcePort destPort : Nat) (altBit : Bit) (endFlag : EndFlag) (payload : Bytes) (s : State) : StepResult :=
  match encData block sourcePort destPort altBit endFlag payload with
  | .ok F => .next (s.answer (.frame F))
  | .error e => .next (s.answer (.error e))

/-- ENC_ACK (R170). -/
def execEncAck (sourcePort destPort : Nat) (altBit : Bit) (s : State) : StepResult :=
  .next (s.answer (.frame (encAck block sourcePort destPort altBit)))

end Sys2Proof.Machine
end

