-- ==== Sys2Proof/Machine/Receiver.lean ====
section
/-!
DEFINITION. The receiver shell (44_receiver_fsm.md): CFG_RX, RX_RESTART and the seven rows of R112.
-/

namespace Sys2Proof.Machine

/-! Host commands. -/

/-- The two port registers take the low 16 bits (R252, R33). -/
def configureRx (src dst : Nat) (s : State) : State :=
  s.setRx { s.rx with srcPort := low16 src, dstPort := low16 dst }

/-- CFG_RX (R252): refused while running, changing nothing (U6; assumption log 20). -/
def execCfgRx (src dst : Nat) (s : State) : StepResult :=
  if s.rx.status = .running then .next (s.answer .commandRefused)
  else .next ((configureRx src dst s).answer .commandDone)

/-- The start of the receive loop (R253), which is also the only return from an ended run (R334). The timer flag is set:
the receiver is blocked in receive from here on (R41; assumption log 10). -/
def startRx (c : Config) (s : State) : State :=
  s.setRx { s.rx with
    bit := c.initBit
    buf := []
    fileNameValid := false
    lastAckValid := false
    cntOk := 0
    cntCorrupt := 0
    cntWrongBit := 0
    status := .running
    timerArmed := true }

/-- RX_RESTART (R253). -/
def execRxRestart (s : State) : StepResult :=
  if s.rx.status = .running then .next (s.answer .commandRefused)
  else .next ((startRx block s).answer .commandDone)

/-! Events. -/

/-- PACKET_OK's first action: capture the name from a first packet and append the rest, else append all (R258, R259). -/
def takePayload (c : Config) (p : Bytes) (r : RxRegs) : RxRegs :=
  if r.fileNameValid then { r with buf := r.buf ++ p }
  else { r with fileName := capturedName c p, fileNameValid := true, buf := r.buf ++ capturedContent c p }

/-- What PACKET_OK records once its ack is sent: the ack, the count, the flipped bit (R258). -/
def recordAck (A : Bytes) (r : RxRegs) : RxRegs :=
  { r with lastAck := A, lastAckValid := true, cntOk := r.cntOk + 1, bit := 1 - r.bit }

/-- The hand-over of a LAST-flagged packet, then the session reset (R258, R268). -/
def handOver (c : Config) (s : State) : State :=
  (s.setEnv { s.env with sink := s.env.sink ++ [⟨s.rx.fileName, s.rx.buf⟩] }).setRx
    { s.rx with bit := c.initBit, buf := [], fileNameValid := false }

/-- The ack the receiver sends for the bit it waits for: its own ports, not the frame's (R258, D10). -/
def ackNow (c : Config) (r : RxRegs) : Bytes := encAck c r.srcPort.toNat r.dstPort.toNat r.bit

/-- PACKET_OK's actions in their order for the datagram `d` (R258): append, send the ack (R266), record, hand over. -/
def acceptPacket (c : Config) (d : Datagram) (s : State) : State :=
  if s.env.rxPort.sendOk then
    let t := (transmit .toTx (ackNow c s.rx) s).setRx
      (recordAck (ackNow c s.rx) (takePayload c (decData c d).payload s.rx))
    if (decData c d).isLast then handOver c t else t
  else enterRxFatal (s.setRx (takePayload c (decData c d).payload s.rx))

/-- PACKET_CORRUPT's action (R260). -/
def countCorrupt (s : State) : State := s.setRx { s.rx with cntCorrupt := s.rx.cntCorrupt + 1 }

/-- PACKET_WRONG_BIT's actions: count, then resend the last ack if one was ever sent (R262, R263, R266). -/
def resendAck (s : State) : State :=
  let t := s.setRx { s.rx with cntWrongBit := s.rx.cntWrongBit + 1 }
  if s.rx.lastAckValid then
    if s.env.rxPort.sendOk then transmit .toTx s.rx.lastAck t else enterRxFatal t
  else t

/-- IDLE_TIMEOUT's action (R264). The loop ends, so the receiver is no longer blocked in receive and its timer flag is
false (R41; assumption log 10). -/
def endIdle (s : State) : State := s.setRx { s.rx with status := .idleEnd, timerArmed := false }

/-- The action of a row of R112. -/
def rxAction (c : Config) (row : RxRow) (s : State) : StepResult :=
  match row with
  | .channelFailure => .next (enterRxFatal s)
  | .idleTimeout => .next (endIdle s)
  | .zeroDatagram => .next s
  | .packetCorrupt => .next (countCorrupt s)
  | .packetWrongBit => .next (resendAck s)
  | .packetOkMore => .next (acceptPacket c s.env.rxPort.recv.datagram s)
  | .packetOkLast => .next (acceptPacket c s.env.rxPort.recv.datagram s)

/-- RX.CHANNEL_FAILURE (R266). -/
def execRxChannelFailure (s : State) : StepResult := onRxRow .channelFailure (rxAction block .channelFailure) s

/-- RX.IDLE_TIMEOUT (R264). -/
def execRxIdleTimeout (s : State) : StepResult := onRxRow .idleTimeout (rxAction block .idleTimeout) s

/-- RX.ZERO_DATAGRAM (R256): no register is written and nothing is sent. -/
def execRxZeroDatagram (s : State) : StepResult := onRxRow .zeroDatagram (rxAction block .zeroDatagram) s

/-- RX.PACKET_CORRUPT (R260). -/
def execRxPacketCorrupt (s : State) : StepResult := onRxRow .packetCorrupt (rxAction block .packetCorrupt) s

/-- RX.PACKET_WRONG_BIT (R262). -/
def execRxPacketWrongBit (s : State) : StepResult := onRxRow .packetWrongBit (rxAction block .packetWrongBit) s

/-- RX.PACKET_OK.more (R258): endFlag NONE or MORE_FOLLOW. -/
def execRxPacketOkMore (s : State) : StepResult := onRxRow .packetOkMore (rxAction block .packetOkMore) s

/-- RX.PACKET_OK.last (R258): endFlag LAST. -/
def execRxPacketOkLast (s : State) : StepResult := onRxRow .packetOkLast (rxAction block .packetOkLast) s

/-- A datagram arrives at the receiver: blocked in receive it takes the step the datagram selects (R254), otherwise the
Channel keeps it (R291; assumption log 14). A receive that a close has aborted returns no datagram (R290; assumption log 33).
DESIGN CHOICE: what arrives is a further datagram, and no equal one that the Channel holds is taken out (R71; assumption
log 35). -/
def arriveAtRx (d : Datagram) (s : State) : StepResult :=
  if s.rx.status = .running ∧ s.env.rxEnd.fails = false then
    rxAction block (rxSelect (receiveRx d s)) (receiveRx d s)
  else .next (transmit .toRx d s)

end Sys2Proof.Machine
end

