-- ==== Sys2Proof/Machine/Sender.lean ====
section
/-!
DEFINITION. The sender shell (43_sender_fsm.md): CFG_TX, TX_START and the six rows of R111.
-/

namespace Sys2Proof.Machine

/-! Host commands. -/

/-- The two port registers take the low 16 bits (R212, R23). -/
def configureTx (src dst : Nat) (s : State) : State :=
  s.setTx { s.tx with srcPort := low16 src, dstPort := low16 dst }

/-- CFG_TX (R212): refused while running, changing nothing (U6; assumption log 20). -/
def execCfgTx (src dst : Nat) (s : State) : StepResult :=
  if s.tx.status = .running then .next (s.answer .commandRefused)
  else .next ((configureTx src dst s).answer .commandDone)

/-- The creation of a session for a name that fits (R213): every session register is overwritten, which is also the only
return from an ended session (R334). -/
def startTx (c : Config) (name file : Bytes) (s : State) : State :=
  s.setTx { s.tx with
    T := transferStream c name file
    bit := c.initBit
    phase := .call
    bytesProcessed := 0
    pending := []
    retryCount := 0
    timerArmed := false
    status := .running }

/-- A name that does not fit leaves a status and no session (R213, R326). -/
def refuseName (s : State) : State := s.setTx { s.tx with status := .errName }

/-- TX_START (R213). -/
def execTxStart (name file : Bytes) (s : State) : StepResult :=
  if s.tx.status = .running then .next (s.answer .commandRefused)
  else if name.length > block.nameLen then .next ((refuseName s).answer .nameTooLong)
  else .next ((startTx block name file s).answer .commandDone)

/-! Events. -/

/-- The frame of the chunk at `tx.bytesProcessed` (R218). -/
def nextFrame (c : Config) (t : TxRegs) : Except CodecError Bytes :=
  encData c t.srcPort.toNat t.dstPort.toNat t.bit (chunkFlag c t.T.length t.bytesProcessed)
    (chunkPayload c t.T t.bytesProcessed)

/-- SEND's actions in their order (R218): encode (R227), store, send (R226), arm the timer, enter WAIT_ACK. -/
def sendChunk (c : Config) (s : State) : State :=
  match nextFrame c s.tx with
  | .error (.payloadTooLarge _) => enterTxFatal .errPayload s
  | .ok F =>
    if s.env.txPort.sendOk then
      (transmit .toRx F s).setTx { s.tx with pending := F, timerArmed := true, phase := .ack }
    else enterTxFatal .errChannel (s.setTx { s.tx with pending := F })

/-- "retransmit last chunk unchanged" (R222, R224): send, count, arm the timer again. -/
def retransmit (s : State) : State :=
  if s.env.txPort.sendOk then
    (transmit .toRx s.tx.pending s).setTx { s.tx with retryCount := s.tx.retryCount + 1, timerArmed := true }
  else enterTxFatal .errChannel s

/-- ACK_OK's actions (R220, R221). A pending frame shorter than a header has no byte 5 (R14); no reachable state holds
one (assumption log 17). -/
def acceptAck (s : State) : StepResult :=
  if s.tx.pending.length < Config.headerSize then .fault .pendingNotAFrame
  else .next (s.setTx { s.tx with
    bytesProcessed := s.tx.bytesProcessed + (s.tx.pending.length - Config.headerSize)
    bit := 1 - s.tx.bit
    phase := .call
    timerArmed := false
    status := if byteAt s.tx.pending 5 = 0x02 then .done else s.tx.status })

/-- The action of a row of R111. -/
def txAction (c : Config) (row : TxRow) (s : State) : StepResult :=
  match row with
  | .send => .next (sendChunk c s)
  | .channelFailure => .next (enterTxFatal .errChannel s)
  | .timeout => .next (retransmit s)
  | .ackBadCorrupt => .next (retransmit s)
  | .ackBadWrongBit => .next (retransmit s)
  | .ackOk => acceptAck s

/-- TX.SEND (R218). -/
def execTxSend (s : State) : StepResult := onTxRow .send (txAction block .send) s

/-- TX.CHANNEL_FAILURE (R226). -/
def execTxChannelFailure (s : State) : StepResult := onTxRow .channelFailure (txAction block .channelFailure) s

/-- TX.TIMEOUT (R224). -/
def execTxTimeout (s : State) : StepResult := onTxRow .timeout (txAction block .timeout) s

/-- TX.ACK_BAD.corrupt (R222, "ack corrupt"). -/
def execTxAckBadCorrupt (s : State) : StepResult := onTxRow .ackBadCorrupt (txAction block .ackBadCorrupt) s

/-- TX.ACK_BAD.wrongbit (R222, "carries the wrong bit"). -/
def execTxAckBadWrongBit (s : State) : StepResult := onTxRow .ackBadWrongBit (txAction block .ackBadWrongBit) s

/-- TX.ACK_OK (R220). -/
def execTxAckOk (s : State) : StepResult := onTxRow .ackOk (txAction block .ackOk) s

/-- A datagram arrives at the sender: blocked in receive it takes the step the datagram selects (R111, R223), otherwise the
Channel keeps it (R228, R291; assumption log 14). A receive that a close has aborted returns no datagram (R290; assumption
log 33). DESIGN CHOICE: what arrives is a further datagram, and no equal one that the Channel holds is taken out (R71;
assumption log 35). -/
def arriveAtTx (d : Datagram) (s : State) : StepResult :=
  if s.tx.status = .running ∧ s.tx.phase = .ack ∧ s.env.txEnd.fails = false then
    txAction block (txSelect (receiveTx d s)) (receiveTx d s)
  else .next (transmit .toTx d s)

end Sys2Proof.Machine
end

