-- ==== Sys2Proof/Machine/Frames.lean ====
section
/-!
DEFINITION. The meanings of the four frame rows: a frame arrives at the shell that its role addresses, a data frame at the
receiver and an ack frame at the sender (R107); its checksum is whatever its 4 bytes say, and the shell judges it
(assumption log 13).
-/

namespace Sys2Proof.Machine

/-- DATA.NONE (R99): to the receiver "not LAST" (R190). -/
def execDataNone (f : DataFields) (s : State) : StepResult := arriveAtRx (dataFrameBytes .none f) s

/-- DATA.MORE (R99). -/
def execDataMore (f : DataFields) (s : State) : StepResult := arriveAtRx (dataFrameBytes .moreFollow f) s

/-- DATA.LAST (R99). -/
def execDataLast (f : DataFields) (s : State) : StepResult := arriveAtRx (dataFrameBytes .last f) s

/-- ACK (R100, R102). -/
def execAck (f : AckFields) (s : State) : StepResult := arriveAtTx (ackFrameBytes f) s

end Sys2Proof.Machine
end

