-- ==== Sys2Proof/Machine/Reset.lean ====
section
/-!
DEFINITION. The meaning of HW_RESET.
-/

namespace Sys2Proof.Machine

/-- Every register of the block takes its reset value; the environment is not reached (R360, R362). -/
def resetBlock (s : State) : State := (s.setTx TxRegs.reset).setRx RxRegs.reset

/-- HW_RESET (R360): never refused (U6). -/
def execHwReset (s : State) : StepResult := .next ((resetBlock s).answer .commandDone)

end Sys2Proof.Machine
end

