-- ==== Sys2Proof/Machine/Dispatch.lean ====
section
/-! DEFINITION. One arm per instruction, each one direct call of its meaning. -/

namespace Sys2Proof.Machine

def exec (i : Instr) (s : State) : Host.Outcome State Fault Refusal :=
  match i with
  | .dataNone f => Sys2Proof.Machine.execDataNone f s
  | .dataMore f => Sys2Proof.Machine.execDataMore f s
  | .dataLast f => Sys2Proof.Machine.execDataLast f s
  | .ack f => Sys2Proof.Machine.execAck f s
  | .crc32 bytes => Sys2Proof.Machine.execCrc32 bytes s
  | .crc32Verify bytes expected => Sys2Proof.Machine.execCrc32Verify bytes expected s
  | .encData sourcePort destPort altBit endFlag payload => Sys2Proof.Machine.execEncData sourcePort destPort altBit endFlag payload s
  | .decData datagram => Sys2Proof.Machine.execDecData datagram s
  | .encAck sourcePort destPort altBit => Sys2Proof.Machine.execEncAck sourcePort destPort altBit s
  | .decAck datagram => Sys2Proof.Machine.execDecAck datagram s
  | .txStart name file => Sys2Proof.Machine.execTxStart name file s
  | .rxRestart => Sys2Proof.Machine.execRxRestart s
  | .cfgTx src dst => Sys2Proof.Machine.execCfgTx src dst s
  | .cfgRx src dst => Sys2Proof.Machine.execCfgRx src dst s
  | .hwReset => Sys2Proof.Machine.execHwReset s
  | .txSend => Sys2Proof.Machine.execTxSend s
  | .txChannelFailure => Sys2Proof.Machine.execTxChannelFailure s
  | .txTimeout => Sys2Proof.Machine.execTxTimeout s
  | .txAckBadCorrupt => Sys2Proof.Machine.execTxAckBadCorrupt s
  | .txAckBadWrongBit => Sys2Proof.Machine.execTxAckBadWrongBit s
  | .txAckOk => Sys2Proof.Machine.execTxAckOk s
  | .rxChannelFailure => Sys2Proof.Machine.execRxChannelFailure s
  | .rxIdleTimeout => Sys2Proof.Machine.execRxIdleTimeout s
  | .rxZeroDatagram => Sys2Proof.Machine.execRxZeroDatagram s
  | .rxPacketCorrupt => Sys2Proof.Machine.execRxPacketCorrupt s
  | .rxPacketWrongBit => Sys2Proof.Machine.execRxPacketWrongBit s
  | .rxPacketOkMore => Sys2Proof.Machine.execRxPacketOkMore s
  | .rxPacketOkLast => Sys2Proof.Machine.execRxPacketOkLast s

end Sys2Proof.Machine
end

