-- ==== Sys2Proof/Machine/Channel.lean ====
section
/-!
DEFINITION. What the Channel does by itself (R77, R291) and the FaultInjector (R310 to R316). Test environment, not the
block (R4).
-/

namespace Sys2Proof.Machine

/-! The FaultInjector. -/

/-- A category fires when its draw, below 1, is below its probability, both in units of 2^-32 (R314). -/
def fires (p : Nat) (draw : BitVec 32) : Bool := decide (draw.toNat < p)

/-- The loss transform: the whole datagram becomes zero bytes of the same length (R311, C3). -/
def lossTransform (d : Datagram) : Datagram := zeros d.length

/-- The corrupt transform: bit CORRUPT_BIT of the payload region is flipped; a datagram without that bit, an ack or an
empty data frame among them, passes unchanged (R313, D36; assumption log 18). -/
def corruptTransform (c : Config) (d : Datagram) : Datagram :=
  d.modify (Config.headerSize + c.corruptBit / 8) (fun b => b ^^^ (1#8 <<< (c.corruptBit % 8)))

/-- What happened to a datagram (R310, "each category"). -/
inductive InjectorCase where
  | loss
  | duplicate
  | corrupt
  | pass
  deriving DecidableEq, Repr

/-- The category that applies for the three draws: loss before duplicate before corrupt, at most one (R314, R315). -/
def injectorCase (j : Injector) (d1 d2 d3 : BitVec 32) : InjectorCase :=
  if fires j.pLoss d1 then .loss
  else if fires j.pDup d2 then .duplicate
  else if fires j.pCorrupt d3 then .corrupt
  else .pass

/-- What becomes of the datagram (R311 to R313, R315). -/
def injectorOutput (c : Config) (k : InjectorCase) (d : Datagram) : List Datagram :=
  match k with
  | .loss => [lossTransform d]
  | .duplicate => [d, d]
  | .corrupt => [corruptTransform c d]
  | .pass => [d]

/-- The running counters (R310). -/
def countCase (k : InjectorCase) (t : InjectorStats) : InjectorStats :=
  match k with
  | .loss => { t with lost := t.lost + 1 }
  | .duplicate => { t with duplicated := t.duplicated + 1 }
  | .corrupt => { t with corrupted := t.corrupted + 1 }
  | .pass => t

/-- How many draws one datagram consumes: three, or with DRAWS_ALWAYS off those up to the category that fired (R314, D36). -/
def drawsOf (c : Config) (k : InjectorCase) : Nat :=
  if c.drawsAlways then 3
  else
    match k with
    | .loss => 1
    | .duplicate => 2
    | .corrupt => 3
    | .pass => 3

/-- The category for the next draws of the random source `draw`. -/
def nextCase (draw : Nat → BitVec 32) (j : Injector) : InjectorCase :=
  injectorCase j (draw j.drawsUsed) (draw (j.drawsUsed + 1)) (draw (j.drawsUsed + 2))

/-- The FaultInjector after one datagram. -/
def injectorAfter (c : Config) (draw : Nat → BitVec 32) (j : Injector) : Injector :=
  { j with drawsUsed := j.drawsUsed + drawsOf c (nextCase draw j), stats := countCase (nextCase draw j) j.stats }

/-! The Channel. -/

/-- The datagrams in one direction replaced by a function of them. -/
def onQueue (dir : Direction) (f : List Datagram → List Datagram) (s : State) : State :=
  match dir with
  | .toRx => s.setEnv { s.env with toRx := f s.env.toRx }
  | .toTx => s.setEnv { s.env with toTx := f s.env.toTx }

/-- One move of the Channel. Losing or duplicating a datagram the Channel does not hold changes nothing; the FaultInjector
takes a held datagram out, or an incoming one, and puts in what becomes of it (R310: "an outgoing/incoming datagram"). -/
def channelMove (c : Config) (m : ChannelMove) (s : State) : State :=
  match m with
  | .insert dir d => onQueue dir (fun q => q ++ [d]) s
  | .lose dir d => onQueue dir (fun q => q.erase d) s
  | .duplicate dir d => onQueue dir (fun q => if d ∈ q then q ++ [d] else q) s
  | .inject dir d =>
    let k := nextCase Config.randomSource s.env.injector
    let t := onQueue dir (fun q => q.erase d ++ injectorOutput c k d) s
    t.setEnv { t.env with injector := injectorAfter c Config.randomSource s.env.injector }
  | .setInjector pLoss pDup pCorrupt =>
    s.setEnv { s.env with injector := { s.env.injector with pLoss := pLoss, pDup := pDup, pCorrupt := pCorrupt } }

end Sys2Proof.Machine
end

