-- ==== Sys2Proof/Machine/Registers.lean ====
section
/-!
DEFINITION. The host's reads of registers between steps (R44, R299, R339), with the numbers of the two status registers
(R28, R40, D25). A read has no side effect on the block (R71).
-/

namespace Sys2Proof.Machine

/-- The codes of `tx.status` (R28). -/
def txStatusCode : TxStatus → Nat
  | .idle => 0
  | .running => 1
  | .done => 2
  | .errChannel => 3
  | .errPayload => 4
  | .errName => 5

/-- The codes of `rx.status` (R40). -/
def rxStatusCode : RxStatus → Nat
  | .stopped => 0
  | .running => 1
  | .idleEnd => 2
  | .errChannel => 3

/-- What a read port of `tx.pending` shows: its bytes while a frame is in flight (R26); in a WAIT_CALL state any value (U8,
assumption log 7). -/
def pendingSeen (t : TxRegs) : Bytes :=
  match t.phase with
  | .ack => t.pending
  | .call => Config.pendingPort t.pending

/-- What a read port of `rx.fileName` or `rx.lastAck` shows: the register's bytes behind a true valid bit (R36, R38). Behind a
false one the read is reported to the host as an error, "a fault, not a zero" (R45, U4), with `width` bytes of any value; the
machine goes on (assumption log 6). -/
def guardedSeen (valid : Bool) (width : Nat) (B : Bytes) : RegValue :=
  if valid then .bytes B else .unspecified ((List.range width).map (Config.unspecifiedByte B))

/-- The value a register read gives (R44). -/
def registerValue (r : RegName) (s : State) : RegValue :=
  match r with
  | .txSrcPort => .number s.tx.srcPort.toNat
  | .txDstPort => .number s.tx.dstPort.toNat
  | .txState => .txState s.tx.phase s.tx.bit
  | .txBytesProcessed => .number s.tx.bytesProcessed
  | .txPending => .bytes (pendingSeen s.tx)
  | .txRetryCount => .number s.tx.retryCount
  | .txStatus => .number (txStatusCode s.tx.status)
  | .rxSrcPort => .number s.rx.srcPort.toNat
  | .rxDstPort => .number s.rx.dstPort.toNat
  | .rxState => .rxState s.rx.bit
  | .rxBuf => .bytes s.rx.buf
  | .rxFileName => guardedSeen s.rx.fileNameValid block.nameLen s.rx.fileName
  | .rxFileNameValid => .flag s.rx.fileNameValid
  | .rxLastAck => guardedSeen s.rx.lastAckValid Config.ackSize s.rx.lastAck
  | .rxLastAckValid => .flag s.rx.lastAckValid
  | .rxCntOk => .number s.rx.cntOk
  | .rxCntCorrupt => .number s.rx.cntCorrupt
  | .rxCntWrongBit => .number s.rx.cntWrongBit
  | .rxStatus => .number (rxStatusCode s.rx.status)

/-- A host read, between any two steps (R44, R299): the value of the register, on `env.result`; no register changes (R71). -/
def readRegister (r : RegName) (s : State) : StepResult := .next (s.answer (.register (registerValue r s)))

end Sys2Proof.Machine
end

