-- ==== Sys2Proof/Machine/Fetch.lean ====
section
/-!
DEFINITION. From an input to an instruction: the operation select is decoded (R110), a shell's turn polls the Channel and
decodes the vector its state and port give (R111, R112, R254), an arriving datagram is decoded as a frame by role (R107);
and the reverse, how an instruction is placed so that the very next step runs it.
-/

namespace Sys2Proof.Machine

/-- What an input comes to: an instruction to run in a state, or a step that runs none. -/
inductive Fetched where
  | run (i : Instr) (s : State)
  | other (r : StepResult)

/-- The port of the addressed shell takes the environment's answer to a send of this step. -/
def grantSend (dir : Direction) (sendOk : Bool) (s : State) : State :=
  match dir with
  | .toRx => s.setEnv { s.env with rxPort := { s.env.rxPort with sendOk := sendOk } }
  | .toTx => s.setEnv { s.env with txPort := { s.env.txPort with sendOk := sendOk } }

/-- One input. A turn of a shell that is not running does nothing: it "takes no further event" (R221, R330, R334; assumption
log 12). A datagram that is no frame reaches its shell all the same (R223, R261). -/
def fetch (x : Input) (s : State) : Fetched :=
  match x with
  | .host code o =>
    match decodeOp code o with
    | .ok i => .run i s
    | .error _ => .other (.refused (.noSuchOperation code))
  | .read r => .other (readRegister r s)
  | .txTurn choice sendOk =>
    if s.tx.status = .running then
      .run (txSelect (pollTx choice sendOk s)).instr (pollTx choice sendOk s)
    else .other (.next s)
  | .rxTurn choice sendOk =>
    if s.rx.status = .running then
      .run (rxSelect (pollRx choice sendOk s)).instr (pollRx choice sendOk s)
    else .other (.next s)
  | .arrive .toRx d sendOk =>
    match decodeDataFrame d with
    | .ok i => .run i (grantSend .toRx sendOk s)
    | .error _ => .other (arriveAtRx d (grantSend .toRx sendOk s))
  | .arrive .toTx d sendOk =>
    match decodeAckFrame d with
    | .ok i => .run i (grantSend .toTx sendOk s)
    | .error _ => .other (arriveAtTx d (grantSend .toTx sendOk s))
  | .channel m => .other (.next (channelMove block m s))
  | .close e => .other (.next (s.onEnd e EndState.close))
  | .reopen e => .other (.next (s.onEnd e EndState.reopen))

/-- The host's TRANSFER pseudo-operation: TX_START, then for each chunk a turn of the sender (SEND), of the receiver and of
the sender (ACK_OK), the Channel delivering what it holds (R114). -/
def transferInputs (c : Config) (name file : Bytes) : List Input :=
  .host 0b1000 { HostOperands.zero with bytes := name, file := file } ::
    (List.replicate (chunkCount c (transferStream c name file).length)
      [.txTurn .oldest true, .rxTurn .oldest true, .txTurn .oldest true]).flatten

/-! Placing an instruction (assumption log 16). -/

/-- The sender in WAIT_CALL of a running session: as it is, or a new session of an empty name and file. -/
def readyTxCall (s : State) : State :=
  if s.tx.status = .running ∧ s.tx.phase = .call then s else s.setTx (startTx block [] [] s).tx

/-- The sender in WAIT_ACK of a running session: as it is, or such a new session with its chunk in flight. -/
def readyTxAck (s : State) : State :=
  if s.tx.status = .running ∧ s.tx.phase = .ack then s
  else
    let t := (startTx block [] [] s).tx
    match nextFrame block t with
    | .ok F => s.setTx { t with pending := F, timerArmed := true, phase := .ack }
    | .error _ => s

/-- The receiver running: as it is, or restarted. -/
def readyRx (s : State) : State := if s.rx.status = .running then s else s.setRx (startRx block s).rx

/-- The state a row of R111 needs. -/
def readyTx (row : TxRow) (s : State) : State :=
  match row with
  | .send => readyTxCall s
  | .channelFailure => readyTxAck s
  | .timeout => readyTxAck s
  | .ackBadCorrupt => readyTxAck s
  | .ackBadWrongBit => readyTxAck s
  | .ackOk => readyTxAck s

/-- An outcome of the sender's receive that selects a row of R111 (for SEND it is not evaluated). -/
def txChoiceFor (row : TxRow) (s : State) : RecvChoice :=
  match row with
  | .send => .timeout
  | .channelFailure => .failure
  | .timeout => .timeout
  | .ackBadCorrupt => .bytes []
  | .ackBadWrongBit => .bytes (encAck block 0 0 (1 - s.tx.bit))
  | .ackOk => .bytes (encAck block 0 0 s.tx.bit)

/-- An outcome of the receiver's receive that selects a row of R112. -/
def rxChoiceFor (row : RxRow) (s : State) : RecvChoice :=
  match row with
  | .channelFailure => .failure
  | .idleTimeout => .timeout
  | .zeroDatagram => .bytes []
  | .packetCorrupt => .bytes [1]
  | .packetWrongBit => .bytes (packData block 0 0 (1 - s.rx.bit) .moreFollow [])
  | .packetOkMore => .bytes (packData block 0 0 s.rx.bit .moreFollow [])
  | .packetOkLast => .bytes (packData block 0 0 s.rx.bit .last [])

/-- The state with what stands for an instruction as the next input, and the shell in the state its row needs, its end of the
Channel open. -/
def placeEncoded (e : Encoded) (s : State) : State :=
  match e with
  | .op code o => s.setInputs (.host code o :: s.env.inputs)
  | .dataFrame d => s.setInputs (.arrive .toRx d true :: s.env.inputs)
  | .ackFrame d => s.setInputs (.arrive .toTx d true :: s.env.inputs)
  | .txVector v =>
    let t := (readyTx (decodeTxVector v) s).onEnd .sender fun _ => ⟨false, false⟩
    t.setInputs (.txTurn (txChoiceFor (decodeTxVector v) t) true :: t.env.inputs)
  | .rxVector v =>
    let t := (readyRx s).onEnd .receiver fun _ => ⟨false, false⟩
    t.setInputs (.rxTurn (rxChoiceFor (decodeRxVector v) t) true :: t.env.inputs)

/-- What a table word that is no instruction puts in the same place: a datagram of those bytes, or an operation code that
selects none. -/
def encodedOfRejectedWord (nbits w : Nat) : Encoded :=
  match nbits with
  | 96 => .dataFrame (wordBytes 12 w ++ zeros (get16 .big (wordBytes 12 w) 6).toNat)
  | 72 => .ackFrame (wordBytes 9 w)
  | _ => .op (if w < 16 then BitVec.ofNat 4 w else 0b0000) HostOperands.zero

/-- A table word placed (assumption logs 15, 16). -/
def placeTableWord (nbits w : Nat) (s : State) : State :=
  match decodeTableWord nbits w with
  | some i => placeEncoded (encode i) s
  | none => placeEncoded (encodedOfRejectedWord nbits w) s

end Sys2Proof.Machine
end

