-- ==== Sys2Proof/Machine/Step.lean ====
section
/-!
DEFINITION. One step: the next input is taken from the list and carried out (R18: a step is one row, atomically). With no
input the machine waits and nothing changes (R361; assumption log 1).
-/

namespace Sys2Proof.Machine

def step (s : State) : Host.Outcome State Fault Refusal :=
  match s.env.inputs with
  | [] => .next s
  | x :: rest =>
    match fetch x (s.setInputs rest) with
    | .run i t => exec i t
    | .other r => r

/-- `s` with the instruction of a table word placed so that the very next step runs it (assumption logs 15, 16). -/
def State.withFetchWord (s : State) (nbits w : Nat) : State := placeTableWord nbits w s

end Sys2Proof.Machine
end

