-- ==== Sys2Proof/Safety.lean ====
section
/-!
DEFINITION. What counts as a safe run, in the terms the statements use: the invariants of the sender's registers (R26, R30,
R31) and of the receiver's (R36 to R38, R41, R42); and what a step does, read from its input: the instruction it runs, the
datagram a shell's receive returns in it.
-/

namespace Sys2Proof.Machine

/-- The sender's registers are consistent. R31 (d), one chunk unacknowledged, is the shape of `pending` itself. -/
structure TxInv (t : TxRegs) : Prop where
  /-- R31 (a) -/
  offset : t.bytesProcessed ≤ t.T.length
  /-- R26: "a byte sequence of length 0 or `HEADER_SIZE` to `MAX_FRAME`" -/
  pendingSize : t.pending = [] ∨ (12 ≤ t.pending.length ∧ t.pending.length ≤ 1400)
  /-- R30: armed exactly while `tx.active and tx.phase = ACK` -/
  timer : t.timerArmed = true ↔ (t.status = .running ∧ t.phase = .ack)
  /-- R219: an active session has unacknowledged bytes left -/
  bytesLeft : t.status = .running → t.bytesProcessed < t.T.length
  /-- R31 (b): the frame in flight is the ENC_DATA frame of the chunk at `tx.bytesProcessed` with bit `tx.bit` -/
  inFlight : t.status = .running → t.phase = .ack → nextFrame block t = .ok t.pending
  /-- R216, R31 (c): chunk `k` is sent with alternating bit `k mod 2` -/
  bitOfChunk : t.status = .running → ∃ k, t.bytesProcessed = k * 1386 ∧ t.bit = BitVec.ofNat 1 k

/-- The receiver's registers are consistent. R42 (c) is claimed while the receiver runs (assumption log 19). -/
structure RxInv (r : RxRegs) : Prop where
  /-- R36: 20 bytes -/
  fileNameSize : r.fileName.length = 20
  /-- R38: 9 bytes -/
  lastAckSize : r.lastAck.length = 9
  /-- R41: armed exactly while `rx.running` -/
  timer : r.timerArmed = true ↔ r.status = .running
  /-- R37: before a first packet the session is as reset -/
  fresh : r.fileNameValid = false → r.buf = [] ∧ r.bit = 0
  /-- R42 (b): the last ack is a well-formed ack frame -/
  lastAckFrame : r.lastAckValid = true → ∃ src dst b, r.lastAck = encAck block src dst b
  /-- R42 (c): the last ack acknowledges the previous bit -/
  lastAckBit : r.status = .running → r.fileNameValid = true →
    r.lastAckValid = true ∧ byteAt r.lastAck 4 = altByteOf (1 - r.bit)

/-- The invariant of the machine. -/
structure State.Inv (s : State) : Prop where
  tx : TxInv s.tx
  rx : RxInv s.rx

/-! What a step does, read from its input. -/

/-- The step of `s` runs the instruction `i` in the state `u`. -/
def Runs (s : State) (i : Instr) (u : State) : Prop :=
  ∃ x rest, s.env.inputs = x :: rest ∧ fetch x (s.setInputs rest) = .run i u

/-- The datagram that the sender's receive returns in the next step, if it returns one: the sender is in WAIT_ACK of a
running session, and its turn's receive ends with bytes or a datagram arrives at its open end (R111, R291). -/
def State.txReceives (s : State) : Option Datagram :=
  if s.tx.status = .running ∧ s.tx.phase = .ack then
    match s.env.inputs with
    | .txTurn choice _ :: _ =>
      match txOutcome choice s with
      | .bytes d => some d
      | .failure => none
      | .timeout => none
    | .arrive .toTx d _ :: _ => if s.env.txEnd.fails then none else some d
    | _ => none
  else none

/-- The datagram that the receiver's receive returns in the next step, if it returns one (R112, R254, R291). -/
def State.rxReceives (s : State) : Option Datagram :=
  if s.rx.status = .running then
    match s.env.inputs with
    | .rxTurn choice _ :: _ =>
      match rxOutcome choice s with
      | .bytes d => some d
      | .failure => none
      | .timeout => none
    | .arrive .toRx d _ :: _ => if s.env.rxEnd.fails then none else some d
    | _ => none
  else none

end Sys2Proof.Machine
end

