-- ==== Sys2Proof/Certificates/Slice0/Obligations.lean ====
section
/-!
DEFINITION. The statements for the provers. Each docstring names the rule of spec/ it formalises. A next state is written as
the state before with the fields the rule changes, so each such statement is also the frame: everything not named is
unchanged. Where an operation's answer is on `env.result`, an outcome is in a port, a sent datagram is in `env.toRx` or
`env.toTx` and a FileSink call is in `env.sink`, that place is the model's (assumption logs 2 to 4, 22, 27); the values are the
rule's. `block` is the configuration at the spec's defaults (assumption log 8).
-/

open Sys2Proof Sys2Proof.Machine

/-! Reset. -/

/-- R360: HW_RESET, in any state, gives every register the value of the reset column; no frame is sent and no FileSink call
is made. The contents of `rx.fileName` and `rx.lastAck` are unspecified and not claimed. That nothing else of the environment
is reached is R362, an inference the spec marks as its own, in the model's reading (assumption log 21). -/
def Obligations.HwResetGivesResetValues : Prop :=
  ∀ s : State, ∃ t, exec .hwReset s = .next t ∧
    t.tx = { srcPort := 0, dstPort := 0, phase := .call, bit := 0, bytesProcessed := 0, pending := [], retryCount := 0,
             status := .idle, T := [], timerArmed := false } ∧
    t.rx.srcPort = 0 ∧ t.rx.dstPort = 0 ∧ t.rx.bit = 0 ∧ t.rx.buf = [] ∧ t.rx.fileNameValid = false ∧
    t.rx.lastAckValid = false ∧ t.rx.cntOk = 0 ∧ t.rx.cntCorrupt = 0 ∧ t.rx.cntWrongBit = 0 ∧ t.rx.status = .stopped ∧
    t.rx.timerArmed = false ∧ t.env = { s.env with result := t.env.result }

/-- 10_state.md R44, R47 with D32 ("also the power-on state"): the machine right after reset has the reset column's values. -/
def Obligations.PowerOnHasResetValues : Prop :=
  State.reset.tx = { srcPort := 0, dstPort := 0, phase := .call, bit := 0, bytesProcessed := 0, pending := [],
                     retryCount := 0, status := .idle, T := [], timerArmed := false } ∧
    State.reset.rx.srcPort = 0 ∧ State.reset.rx.dstPort = 0 ∧ State.reset.rx.bit = 0 ∧ State.reset.rx.buf = [] ∧
    State.reset.rx.fileNameValid = false ∧ State.reset.rx.lastAckValid = false ∧ State.reset.rx.cntOk = 0 ∧
    State.reset.rx.cntCorrupt = 0 ∧ State.reset.rx.cntWrongBit = 0 ∧ State.reset.rx.status = .stopped ∧
    State.reset.rx.timerArmed = false

/-! CRC-32. -/

/-- R133: the loop, written out; the result does not depend on the state. -/
def Obligations.Crc32RunsTheBitwiseLoop : Prop :=
  ∀ (B : Bytes) (s : State),
    exec (.crc32 B) s = .next { s with env := { s.env with result := some (.crc
      ((B.foldl (fun c b =>
          (fun c : Word => if c.getLsbD 0 then (c >>> 1) ^^^ 0xEDB88320 else c >>> 1)^[8] (c ^^^ b.setWidth 32))
        0xFFFFFFFF) ^^^ 0xFFFFFFFF)) } }

/-- 40_crc32.md R134, an inference the spec marks as its own: polynomial division gives the same result for every input. -/
def Obligations.Crc32IsPolynomialDivision : Prop := ∀ B : Bytes, crc32 block.crc B = crc32ByDivision B

/-- 40_crc32.md R136, an inference the spec marks as its own: the table-driven form gives the same result for every input,
and the table's entries for checking. -/
def Obligations.Crc32IsTheTableForm : Prop :=
  (∀ B : Bytes, crc32 block.crc B = crc32ByTable B) ∧
    crcTable 0 = 0x00000000 ∧ crcTable 1 = 0x77073096 ∧ crcTable 2 = 0xEE0E612C ∧ crcTable 3 = 0x990951BA ∧
    crcTable 4 = 0x076DC419 ∧ crcTable 8 = 0x0EDB8832 ∧ crcTable 16 = 0x1DB71064 ∧ crcTable 32 = 0x3B6E20C8 ∧
    crcTable 64 = 0x76DC4190 ∧ crcTable 128 = 0xEDB88320 ∧ crcTable 255 = 0x2D02EF8D

/-- 40_crc32.md R140, an inference the spec marks as its own: `crc_init`, `crc_update` per byte and `crc_value` are CRC32,
and for any split feeding X then Y without an init in between gives CRC32 of both together. -/
def Obligations.Crc32StreamsAcrossASplit : Prop :=
  crcInit block.crc = 0xFFFFFFFF ∧ (∀ c, crcValue block.crc c = c ^^^ 0xFFFFFFFF) ∧
    (∀ c b, crcUpdate block.crc c b =
      (fun c : Word => if c.getLsbD 0 then (c >>> 1) ^^^ 0xEDB88320 else c >>> 1)^[8] (c ^^^ b.setWidth 32)) ∧
    (∀ B : Bytes, crc32 block.crc B = crcValue block.crc (B.foldl (crcUpdate block.crc) (crcInit block.crc))) ∧
    ∀ X Y : Bytes,
      crcValue block.crc (Y.foldl (crcUpdate block.crc) (X.foldl (crcUpdate block.crc) (crcInit block.crc))) =
        crc32 block.crc (X ++ Y)

/-- 40_crc32.md R138, its first sentence: two byte sequences of the same length that differ in exactly one bit have
different CRCs. -/
def Obligations.Crc32DetectsOneBitErrors : Prop :=
  ∀ (P S : Bytes) (b : Byte) (k : Nat), k < 8 →
    crc32 block.crc (P ++ b :: S) ≠ crc32 block.crc (P ++ (b ^^^ (1#8 <<< k)) :: S)

/-- R142: recompute and compare, all 32 bits. -/
def Obligations.Crc32VerifyComparesAllBits : Prop :=
  ∀ (B : Bytes) (expected : Word) (s : State),
    exec (.crc32Verify B expected) s =
      .next { s with env := { s.env with result := some (.verified (decide (crc32 block.crc B = expected))) } }

/-! The encoder. -/

/-- R161, R163: the size check, then the header, the checksum over header and payload, the payload, byte by byte. -/
def Obligations.EncDataPacksTheFrame : Prop :=
  ∀ (src dst : Nat) (a : Bit) (f : EndFlag) (p : Bytes) (s : State),
    let flag : Byte := match f with | .none => 0x00 | .moreFollow => 0x01 | .last => 0x02
    let H : Bytes := [BitVec.ofNat 8 (src / 256), BitVec.ofNat 8 src, BitVec.ofNat 8 (dst / 256), BitVec.ofNat 8 dst,
      BitVec.ofNat 8 a.toNat, flag, BitVec.ofNat 8 (p.length / 256), BitVec.ofNat 8 p.length]
    let c := (crc32 block.crc (H ++ p)).toNat
    let C : Bytes := [BitVec.ofNat 8 (c / 2 ^ 24), BitVec.ofNat 8 (c / 2 ^ 16), BitVec.ofNat 8 (c / 2 ^ 8), BitVec.ofNat 8 c]
    let r : OpResult := if 12 + p.length > 1400 then .error (.payloadTooLarge p.length) else .frame (H ++ C ++ p)
    exec (.encData src dst a f p) s = .next { s with env := { s.env with result := some r } }

/-- R170: the ack frame, byte by byte. -/
def Obligations.EncAckPacksNineBytes : Prop :=
  ∀ (src dst : Nat) (a : Bit) (s : State),
    let H : Bytes := [BitVec.ofNat 8 (src / 256), BitVec.ofNat 8 src, BitVec.ofNat 8 (dst / 256), BitVec.ofNat 8 dst,
      BitVec.ofNat 8 a.toNat]
    let c := (crc32 block.crc H).toNat
    let C : Bytes := [BitVec.ofNat 8 (c / 2 ^ 24), BitVec.ofNat 8 (c / 2 ^ 16), BitVec.ofNat 8 (c / 2 ^ 8), BitVec.ofNat 8 c]
    exec (.encAck src dst a) s = .next { s with env := { s.env with result := some (.frame (H ++ C)) } }

/-- 41_frame_encoder.md R167, an inference the spec marks as its own: two different operand tuples of the legal domain give
two different frames. -/
def Obligations.EncDataIsInjective : Prop :=
  ∀ (s₁ d₁ s₂ d₂ : Nat) (a₁ a₂ : Bit) (f₁ f₂ : EndFlag) (p₁ p₂ F : Bytes),
    s₁ < 65536 → d₁ < 65536 → s₂ < 65536 → d₂ < 65536 → p₁.length ≤ 1388 → p₂.length ≤ 1388 →
    encData block s₁ d₁ a₁ f₁ p₁ = .ok F → encData block s₂ d₂ a₂ f₂ p₂ = .ok F →
    s₁ = s₂ ∧ d₁ = d₂ ∧ a₁ = a₂ ∧ f₁ = f₂ ∧ p₁ = p₂

/-! The decoder. -/

/-- R181: DEC_DATA on any datagram, output by output. -/
def Obligations.DecDataReportsEveryOutput : Prop :=
  ∀ (D : Datagram) (s : State), ∃ v : DataVerdict,
    exec (.decData D) s = .next { s with env := { s.env with result := some (.data v) } } ∧
    if D.length < 12 then
      v = { runt := true, lengthOk := false, fieldsOk := false, checksumOk := false, frameOk := false, header := none,
            payload := [] }
    else ∃ h : DataHeader, v.header = some h ∧ v.runt = false ∧
      h.sourcePort.toNat = (byteAt D 0).toNat * 256 + (byteAt D 1).toNat ∧
      h.destPort.toNat = (byteAt D 2).toNat * 256 + (byteAt D 3).toNat ∧
      h.altByte = byteAt D 4 ∧ h.altBit.toNat = (byteAt D 4).toNat % 2 ∧ h.flagByte = byteAt D 5 ∧
      h.endFlag = (if byteAt D 5 = 0x00 then .none else if byteAt D 5 = 0x01 then .moreFollow
        else if byteAt D 5 = 0x02 then .last else .reserved) ∧
      h.payloadLength.toNat = (byteAt D 6).toNat * 256 + (byteAt D 7).toNat ∧
      h.checksum.toNat = (byteAt D 8).toNat * 2 ^ 24 + (byteAt D 9).toNat * 2 ^ 16 + (byteAt D 10).toNat * 2 ^ 8 +
        (byteAt D 11).toNat ∧
      v.lengthOk = decide (D.length = 12 + h.payloadLength.toNat) ∧
      v.fieldsOk = decide (h.altByte.toNat ≤ 1 ∧ h.flagByte.toNat ≤ 2) ∧
      v.payload = (if v.lengthOk then D.drop 12 else []) ∧
      v.checksumOk = (v.lengthOk && decide (crc32 block.crc (D.take 8 ++ v.payload) = h.checksum)) ∧
      v.frameOk = (v.lengthOk && v.fieldsOk && v.checksumOk)

/-- R196: DEC_ACK on any datagram, output by output. -/
def Obligations.DecAckReportsEveryOutput : Prop :=
  ∀ (D : Datagram) (s : State), ∃ v : AckVerdict,
    exec (.decAck D) s = .next { s with env := { s.env with result := some (.ack v) } } ∧
    if D.length ≠ 9 then
      v = { lengthOk := false, fieldsOk := false, checksumOk := false, frameOk := false, header := none }
    else ∃ h : AckHeader, v.header = some h ∧ v.lengthOk = true ∧
      h.sourcePort.toNat = (byteAt D 0).toNat * 256 + (byteAt D 1).toNat ∧
      h.destPort.toNat = (byteAt D 2).toNat * 256 + (byteAt D 3).toNat ∧
      h.altByte = byteAt D 4 ∧ h.altBit.toNat = (byteAt D 4).toNat % 2 ∧
      h.checksum.toNat = (byteAt D 5).toNat * 2 ^ 24 + (byteAt D 6).toNat * 2 ^ 16 + (byteAt D 7).toNat * 2 ^ 8 +
        (byteAt D 8).toNat ∧
      v.fieldsOk = decide (h.altByte.toNat ≤ 1) ∧
      v.checksumOk = decide (crc32 block.crc (D.take 5) = h.checksum) ∧
      v.frameOk = (v.fieldsOk && v.checksumOk)

/-- 41_frame_encoder.md R172, in the words the spec marks as its own inference: `decode(encode(h, p)) == (h, p,
checksumOk=true)` within the size bounds, for data and ack frames; a port comes back modulo 2^16. -/
def Obligations.DecodersInvertEncoders : Prop :=
  (∀ (src dst : Nat) (a : Bit) (f : EndFlag) (p : Bytes), p.length ≤ 1388 →
    ∃ (F : Bytes) (h : DataHeader), encData block src dst a f p = .ok F ∧
      decData block F = { runt := false, lengthOk := true, fieldsOk := true, checksumOk := true, frameOk := true,
                          header := some h, payload := p } ∧
      h.sourcePort.toNat = src % 65536 ∧ h.destPort.toNat = dst % 65536 ∧ h.altBit = a ∧
      h.endFlag = (match f with | .none => .none | .moreFollow => .moreFollow | .last => .last) ∧
      h.payloadLength.toNat = p.length) ∧
    ∀ (src dst : Nat) (a : Bit), ∃ h : AckHeader,
      decAck block (encAck block src dst a) =
        { lengthOk := true, fieldsOk := true, checksumOk := true, frameOk := true, header := some h } ∧
      h.sourcePort.toNat = src % 65536 ∧ h.destPort.toNat = dst % 65536 ∧ h.altBit = a

/-- 42_frame_decoder.md R194, an inference the spec marks as its own: any one-bit flip of any frame ENC_DATA produces is
rejected by DEC_DATA, wherever the bit is: in the payloadLength field by the length test, anywhere else by the checksum with
the length test still true. -/
def Obligations.OneBitFlipOfADataFrameIsRejected : Prop :=
  ∀ (src dst : Nat) (a : Bit) (f : EndFlag) (p F : Bytes) (i k : Nat),
    encData block src dst a f p = .ok F → i < F.length → k < 8 →
    let v := decData block (F.set i (byteAt F i ^^^ (1#8 <<< k)))
    v.frameOk = false ∧ (if 6 ≤ i ∧ i < 8 then v.lengthOk = false else v.lengthOk = true ∧ v.checksumOk = false)

/-- 42_frame_decoder.md R202: any one-bit flip of an ENC_ACK output is rejected by DEC_ACK (all 72 positions). -/
def Obligations.OneBitFlipOfAnAckIsRejected : Prop :=
  ∀ (src dst : Nat) (a : Bit) (i k : Nat), i < 9 → k < 8 →
    (decAck block ((encAck block src dst a).set i (byteAt (encAck block src dst a) i ^^^ (1#8 <<< k)))).frameOk = false

/-- 30_encoding.md R108, an inference the spec marks as its own: for every length the all-zero datagram fails both decoders
(as a data frame only 12 bytes pass the length test), and no encoder produces it; the two CRC values. -/
def Obligations.ZeroDatagramIsNoFrame : Prop :=
  (∀ L : Nat, (decData block (List.replicate L 0)).frameOk = false ∧
    (decData block (List.replicate L 0)).lengthOk = decide (L = 12) ∧ (decAck block (List.replicate L 0)).frameOk = false) ∧
    (∀ (src dst : Nat) (a : Bit) (f : EndFlag) (p F : Bytes), encData block src dst a f p = .ok F → allZero F = false) ∧
    (∀ (src dst : Nat) (a : Bit), allZero (encAck block src dst a) = false) ∧
    crc32 block.crc (List.replicate 8 0) = 0x6522DF69 ∧ crc32 block.crc (List.replicate 5 0) = 0xC622F71D

/-! Encodings. -/

/-- Decoding what the encoder writes for a well-formed instruction gives it back, all 28 rows. -/
def Obligations.DecodeInvertsEncode : Prop := ∀ i : Instr, i.wellFormed = true → decode (encode i) = .ok i

/-- A datagram that decodes as a frame is exactly what the encoder writes for it, and the instruction is well-formed: no bit
of a frame is dropped. -/
def Obligations.EncodeInvertsFrameDecode : Prop :=
  ∀ (D : Datagram) (i : Instr),
    (decodeDataFrame D = .ok i → encode i = .dataFrame D ∧ i.wellFormed = true) ∧
      (decodeAckFrame D = .ok i → encode i = .ackFrame D ∧ i.wellFormed = true)

/-- The row patterns and the decoders of the block accept the same shapes: a datagram is one of the table's frames exactly
where its length and fields are right (R99, R102, R104 to R106, R185, R187, R198, R200). -/
def Obligations.FrameRowsAreTheLegalShapes : Prop :=
  ∀ D : Datagram,
    ((∃ i, decodeDataFrame D = .ok i) ↔ (decData block D).lengthOk = true ∧ (decData block D).fieldsOk = true) ∧
      ((∃ i, decodeAckFrame D = .ok i) ↔ (decAck block D).lengthOk = true ∧ (decAck block D).fieldsOk = true)

/-- Words written out from the patterns decode to the instructions they stand for (R99, R102, R110 to R112). -/
def Obligations.SampleWordsDecode : Prop :=
  decodeDataFrame [0x13, 0x88, 0x17, 0x70, 0x00, 0x01, 0x00, 0x05, 0x7D, 0xA3, 0x01, 0xEE, 0x68, 0x65, 0x6C, 0x6C, 0x6F] =
      .ok (.dataMore ⟨5000, 6000, 0, 5, 0x7DA301EE, [0x68, 0x65, 0x6C, 0x6C, 0x6F]⟩) ∧
    decodeAckFrame [0x17, 0x70, 0x13, 0x88, 0x01, 0xE5, 0xE0, 0x23, 0xEF] = .ok (.ack ⟨6000, 5000, 1, 0xE5E023EF⟩) ∧
    decode (.op 0b1010 { HostOperands.zero with src := 5000, dst := 6000 }) = .ok (.cfgTx 5000 6000) ∧
    decode (.txVector 0b00011) = .ok .txAckOk ∧ decode (.rxVector 0b000111) = .ok .rxPacketOkLast

/-- R110, U5: the codes 0000, 0111, 1100, 1101, 1110 select no operation and are refused; every other code is one. -/
def Obligations.UnusedOperationCodesAreRefused : Prop :=
  ∀ (s : State) (code : BitVec 4) (o : HostOperands) (rest : List Input), s.env.inputs = .host code o :: rest →
    if code = 0b0000 ∨ code = 0b0111 ∨ code = 0b1100 ∨ code = 0b1101 ∨ code = 0b1110 then
      step s = .refused (.noSuchOperation code)
    else ∃ i, decodeOp code o = .ok i ∧ step s = exec i { s with env := { s.env with inputs := rest } }

/-! The step. -/

/-- One step is the next input carried out: with no input nothing changes; an operation, a shell's selected row or an
arriving frame is run by exec in the state without that input (after the shell's receive), the row being the one R111 or R112
selects, and a datagram that is no frame reaches its shell all the same (R223, R261); a read, a move of the Channel, a close
and a reopening run no instruction. The model's choices are the list of inputs (assumption log 1), that a turn of a stopped
shell changes nothing (log 12), that an arriving frame is run as an instruction (log 13) and grants the send of its step
(log 29), and the two inputs of a close (log 33). -/
def Obligations.StepRunsTheNextInput : Prop :=
  ∀ s : State,
    (s.env.inputs = [] → step s = .next s) ∧
    (∀ code o rest i, s.env.inputs = .host code o :: rest → decodeOp code o = .ok i →
      step s = exec i (s.setInputs rest)) ∧
    (∀ r rest, s.env.inputs = .read r :: rest → step s = readRegister r (s.setInputs rest)) ∧
    (∀ ch ok rest, s.env.inputs = .txTurn ch ok :: rest →
      step s = if s.tx.status = .running then
          exec (decodeTxVector (txVector block (pollTx ch ok (s.setInputs rest)))).instr (pollTx ch ok (s.setInputs rest))
        else .next (s.setInputs rest)) ∧
    (∀ ch ok rest, s.env.inputs = .rxTurn ch ok :: rest →
      step s = if s.rx.status = .running then
          exec (decodeRxVector (rxVector block (pollRx ch ok (s.setInputs rest)))).instr (pollRx ch ok (s.setInputs rest))
        else .next (s.setInputs rest)) ∧
    (∀ d ok rest i, s.env.inputs = .arrive .toRx d ok :: rest → decodeDataFrame d = .ok i →
      step s = exec i (grantSend .toRx ok (s.setInputs rest))) ∧
    (∀ d ok rest i, s.env.inputs = .arrive .toTx d ok :: rest → decodeAckFrame d = .ok i →
      step s = exec i (grantSend .toTx ok (s.setInputs rest))) ∧
    (∀ d ok rest e, s.env.inputs = .arrive .toRx d ok :: rest → decodeDataFrame d = .error e →
      step s = arriveAtRx d (grantSend .toRx ok (s.setInputs rest))) ∧
    (∀ d ok rest e, s.env.inputs = .arrive .toTx d ok :: rest → decodeAckFrame d = .error e →
      step s = arriveAtTx d (grantSend .toTx ok (s.setInputs rest))) ∧
    (∀ m rest, s.env.inputs = .channel m :: rest → step s = .next (channelMove block m (s.setInputs rest))) ∧
    (∀ e rest, s.env.inputs = .close e :: rest → step s = .next ((s.setInputs rest).onEnd e EndState.close)) ∧
    (∀ e rest, s.env.inputs = .reopen e :: rest → step s = .next ((s.setInputs rest).onEnd e EndState.reopen))

/-- What stands for a well-formed instruction, placed in any state, is what the very next step runs, in a state that differs
from the placed one in the environment only; where the invariant held, it answers a next state. Placing is the model's
(assumption log 16). -/
def Obligations.PlacedInstructionIsRunNext : Prop :=
  ∀ (i : Instr) (s : State), i.wellFormed = true → ∃ u, step (placeEncoded (encode i) s) = exec i u ∧
    u.tx = (placeEncoded (encode i) s).tx ∧ u.rx = (placeEncoded (encode i) s).rx ∧ u.env.inputs = s.env.inputs ∧
    u.env.result = s.env.result ∧ u.env.sink = s.env.sink ∧ u.env.injector = s.env.injector ∧
    (s.Inv → ∃ t, exec i u = .next t)

/-- 43_sender_fsm.md R228: a (state, event) pair without a row has no step when executed, and a step never reaches one. That
having no step is a refusal is the model's (assumption log 11). -/
def Obligations.StepNeverReachesAPairWithoutARow : Prop :=
  (∀ s : State, s.tx.phase = .call → ∀ row, row ≠ TxRow.send → exec row.instr s = .refused (.txRowNotSelected row)) ∧
    (∀ s : State, s.tx.phase = .ack → exec .txSend s = .refused (.txRowNotSelected .send)) ∧
    ∀ s : State, (∀ row, step s ≠ .refused (.txRowNotSelected row)) ∧ (∀ row, step s ≠ .refused (.rxRowNotSelected row)) ∧
      ∀ m, step s ≠ .refused (.notModelled m)

/-- 10_state.md R31 and R42, 43_sender_fsm.md R228, 30_encoding.md R110: in a state that meets the invariant no step faults, and
every step answers a next state but one on an operation code that selects nothing, which is refused. The model's choices in it:
such a code is an input that the step refuses, and with no input the step waits (assumption log 1); a host read behind a false
valid bit, which R45 calls a fault, is an error in the answer and the step goes on (log 6); a stopped shell's turn changes
nothing and goes on (log 12); a refused command goes on (log 20). -/
def Obligations.StepCompletesUnderTheInvariant : Prop :=
  ∀ s : State, s.Inv → (∃ t, step s = .next t) ∨
    ∃ code o rest, s.env.inputs = .host code o :: rest ∧
      (code = 0b0000 ∨ code = 0b0111 ∨ code = 0b1100 ∨ code = 0b1101 ∨ code = 0b1110) ∧
      step s = .refused (.noSuchOperation code)

/-- 10_state.md R44, R45, R28, R40 and 93_implementation_defined.md U4, U8: a host read of any register, at any
time, answers its value and changes no register; behind a false valid bit `rx.fileName` and `rx.lastAck` answer the error, with
as many bytes as the register has and no claim what they are (U4); `tx.pending` is claimed only in WAIT_ACK. That a read is an
input of its own, that its answer is on `env.result`, and that the machine goes on after that error is the model's (assumption
logs 1, 4, 6, 7); that a running shell's registers may be read too is R299's reading over R44's (assumption log 31). -/
def Obligations.HostReadsGiveTheRegisters : Prop :=
  ∀ (s : State) (r : RegName) (rest : List Input), s.env.inputs = .read r :: rest → ∃ v : RegValue,
    (match r with
      | .txSrcPort => v = .number s.tx.srcPort.toNat
      | .txDstPort => v = .number s.tx.dstPort.toNat
      | .txState => v = .txState s.tx.phase s.tx.bit
      | .txBytesProcessed => v = .number s.tx.bytesProcessed
      | .txPending => ∃ B, v = .bytes B ∧ (s.tx.phase = .ack → B = s.tx.pending)
      | .txRetryCount => v = .number s.tx.retryCount
      | .txStatus => ∃ n, v = .number n ∧ (s.tx.status = .idle ↔ n = 0) ∧ (s.tx.status = .running ↔ n = 1) ∧
          (s.tx.status = .done ↔ n = 2) ∧ (s.tx.status = .errChannel ↔ n = 3) ∧ (s.tx.status = .errPayload ↔ n = 4) ∧
          (s.tx.status = .errName ↔ n = 5)
      | .rxSrcPort => v = .number s.rx.srcPort.toNat
      | .rxDstPort => v = .number s.rx.dstPort.toNat
      | .rxState => v = .rxState s.rx.bit
      | .rxBuf => v = .bytes s.rx.buf
      | .rxFileName => if s.rx.fileNameValid then v = .bytes s.rx.fileName else ∃ B, v = .unspecified B ∧ B.length = 20
      | .rxFileNameValid => v = .flag s.rx.fileNameValid
      | .rxLastAck => if s.rx.lastAckValid then v = .bytes s.rx.lastAck else ∃ B, v = .unspecified B ∧ B.length = 9
      | .rxLastAckValid => v = .flag s.rx.lastAckValid
      | .rxCntOk => v = .number s.rx.cntOk
      | .rxCntCorrupt => v = .number s.rx.cntCorrupt
      | .rxCntWrongBit => v = .number s.rx.cntWrongBit
      | .rxStatus => ∃ n, v = .number n ∧ (s.rx.status = .stopped ↔ n = 0) ∧ (s.rx.status = .running ↔ n = 1) ∧
          (s.rx.status = .idleEnd ↔ n = 2) ∧ (s.rx.status = .errChannel ↔ n = 3)) ∧
    step s = .next { s with env := { s.env with inputs := rest, result := some (.register v) } }

/-! Invariants. -/

/-- The machine after reset meets the invariant of Safety.lean. -/
def Obligations.ResetMeetsTheInvariant : Prop := State.reset.Inv

/-- Every step keeps the invariant: R26, R30, R31, R216, R219 for the sender, R36 to R38, R41, R42 for the receiver. -/
def Obligations.StepKeepsTheInvariant : Prop := ∀ s t : State, s.Inv → step s = .next t → t.Inv

/-! The sender. -/

/-- R212: the ports take the low 16 bits; refused while running, changing nothing. The answer on `env.result` is the model's
(assumption log 20). -/
def Obligations.CfgTxSetsPortsWhenStopped : Prop :=
  ∀ (src dst : Nat) (s : State), ∃ r,
    exec (.cfgTx src dst) s = .next
      (if s.tx.status = .running then { s with env := { s.env with result := r } }
       else { s with tx := { s.tx with srcPort := BitVec.ofNat 16 src, dstPort := BitVec.ofNat 16 dst },
                     env := { s.env with result := r } })

/-- R213: TX_START while running changes nothing; a name over 20 bytes gives TX_ERR_NAME and no session; otherwise every
session register is written. The answer on `env.result` is the model's (assumption log 20). -/
def Obligations.TxStartCreatesASession : Prop :=
  ∀ (name file : Bytes) (s : State), ∃ r,
    exec (.txStart name file) s = .next
      (if s.tx.status = .running then { s with env := { s.env with result := r } }
       else if name.length > 20 then { s with tx := { s.tx with status := .errName }, env := { s.env with result := r } }
       else
        { s with
          tx := { s.tx with T := name ++ List.replicate (20 - name.length) 0 ++ file, bit := 0, phase := .call,
                            bytesProcessed := 0, pending := [], retryCount := 0, timerArmed := false, status := .running }
          env := { s.env with result := r } })

/-- R218: SEND cuts the chunk at `tx.bytesProcessed`, encodes it with `tx.bit`, stores it, sends it, arms the timer and enters
WAIT_ACK; a failing send stops the session with `tx.pending` already written. -/
def Obligations.SendTransmitsTheNextChunk : Prop :=
  ∀ s : State, s.tx.status = .running → s.tx.phase = .call →
    let o := s.tx.bytesProcessed
    let n := min 1386 (s.tx.T.length - o)
    let flag := if o + n = s.tx.T.length then EndFlag.last else EndFlag.moreFollow
    ∃ F, encData block s.tx.srcPort.toNat s.tx.dstPort.toNat s.tx.bit flag ((s.tx.T.drop o).take n) = .ok F ∧
      exec .txSend s = .next
        (if s.env.txPort.sendOk then
          { s with tx := { s.tx with pending := F, timerArmed := true, phase := .ack },
                   env := { s.env with toRx := s.env.toRx ++ [F] } }
         else { s with tx := { s.tx with pending := F, timerArmed := false, status := .errChannel } })

/-- R220: ACK_OK advances the offset by the payload in flight, flips the bit, returns to WAIT_CALL, disarms the timer, and
ends the session if the frame was flagged LAST; nothing is transmitted. A pending frame has a header (R26). -/
def Obligations.AckOkAdvancesTheSender : Prop :=
  ∀ (s : State) (d : Datagram) (h : AckHeader), s.tx.status = .running → s.tx.phase = .ack →
    s.env.txPort.recv = .bytes d → (decAck block d).frameOk = true → (decAck block d).header = some h →
    h.altBit = s.tx.bit → 12 ≤ s.tx.pending.length →
    exec .txAckOk s = .next { s with tx := { s.tx with
      bytesProcessed := s.tx.bytesProcessed + (s.tx.pending.length - 12)
      bit := 1 - s.tx.bit
      phase := .call
      timerArmed := false
      status := if byteAt s.tx.pending 5 = 0x02 then .done else .running } }

/-- R222, R224: a corrupt ack, an ack with the wrong bit and a timeout retransmit the last chunk unchanged, count, and arm the
timer again; a failing send stops the session and counts nothing. -/
def Obligations.BadAckAndTimeoutRetransmit : Prop :=
  ∀ s : State, s.tx.status = .running → s.tx.phase = .ack →
    let t : State :=
      if s.env.txPort.sendOk then
        { s with tx := { s.tx with retryCount := s.tx.retryCount + 1, timerArmed := true },
                 env := { s.env with toRx := s.env.toRx ++ [s.tx.pending] } }
      else { s with tx := { s.tx with status := .errChannel, timerArmed := false } }
    (s.env.txPort.recv = .timeout → exec .txTimeout s = .next t) ∧
    (∀ d, s.env.txPort.recv = .bytes d → (decAck block d).frameOk = false → exec .txAckBadCorrupt s = .next t) ∧
    (∀ d h, s.env.txPort.recv = .bytes d → (decAck block d).frameOk = true → (decAck block d).header = some h →
      h.altBit ≠ s.tx.bit → exec .txAckBadWrongBit s = .next t)

/-- R226: a Failure of the sender's receive, or of a send in SEND, ACK_BAD or TIMEOUT, stops the session; nothing is sent and
every other register keeps its value, except that SEND has already written `tx.pending`. -/
def Obligations.ChannelFailureStopsTheSender : Prop :=
  ∀ s : State, s.tx.status = .running →
    (s.tx.phase = .ack → s.env.txPort.recv = .failure →
      exec .txChannelFailure s = .next { s with tx := { s.tx with status := .errChannel, timerArmed := false } }) ∧
    (s.tx.phase = .call → s.env.txPort.sendOk = false → ∃ F, nextFrame block s.tx = .ok F ∧
      exec .txSend s = .next { s with tx := { s.tx with pending := F, status := .errChannel, timerArmed := false } }) ∧
    ∀ row, row = TxRow.timeout ∨ row = .ackBadCorrupt ∨ row = .ackBadWrongBit → txSelect s = row →
      s.env.txPort.sendOk = false →
      exec row.instr s = .next { s with tx := { s.tx with status := .errChannel, timerArmed := false } }

/-- 43_sender_fsm.md R227, an inference the spec marks as its own: under a configuration whose chunks do not fit the frame,
SEND of a chunk that is too large stops the session with TX_ERR_PAYLOAD; nothing is sent, `tx.pending` and `tx.phase` are
not written. In the block it cannot occur. -/
def Obligations.OversizedChunkStopsTheSender : Prop :=
  (∀ (c : Config) (s : State), 12 + min c.chunkMax (s.tx.T.length - s.tx.bytesProcessed) > c.maxFrame →
    sendChunk c s = { s with tx := { s.tx with status := .errPayload, timerArmed := false } }) ∧
    ∀ s : State, (sendChunk block s).tx.status ≠ s.tx.status → (sendChunk block s).tx.status = .errChannel

/-- 43_sender_fsm.md R229, an inference the spec marks as its own: `tx.bit` and `tx.bytesProcessed` change only on ACK_OK;
the other instructions that write them are TX_START, which creates a session, and HW_RESET. An arriving ack frame changes
them only where it is an ACK_OK. The second clause says it of every step, whatever its input: the sender's receive has then
returned a valid ack with the bit `tx.bit`. -/
def Obligations.SenderAdvancesOnlyOnAckOk : Prop :=
  (∀ (i : Instr) (s t : State), exec i s = .next t →
    (t.tx.bit ≠ s.tx.bit ∨ t.tx.bytesProcessed ≠ s.tx.bytesProcessed) →
    i = .txAckOk ∨ i = .hwReset ∨ (∃ name file, i = .txStart name file) ∨
      (∃ f, i = .ack f ∧ s.tx.status = .running ∧ s.tx.phase = .ack ∧ (decAck block (ackFrameBytes f)).frameOk = true ∧
        f.altBit = s.tx.bit)) ∧
    ∀ s t : State, step s = .next t → (t.tx.bit ≠ s.tx.bit ∨ t.tx.bytesProcessed ≠ s.tx.bytesProcessed) →
      (∃ u, Runs s .hwReset u) ∨ (∃ name file u, Runs s (.txStart name file) u) ∨
        ∃ d h, s.txReceives = some d ∧ (decAck block d).frameOk = true ∧ (decAck block d).header = some h ∧
          h.altBit = s.tx.bit

/-- 20_memory.md R73: the frame in flight is not modified between the SEND that wrote it and the ACK_OK that retires it: no
instruction but HW_RESET changes `tx.pending` of a running session in WAIT_ACK, and no step that runs no HW_RESET does. The
same of `tx.T`, latched by TX_START only (10_state.md R29), and of the two ports, written by CFG_TX only and not while the
session runs (10_state.md R23). -/
def Obligations.PendingIsUnchangedInFlight : Prop :=
  (∀ (i : Instr) (s t : State), exec i s = .next t → i ≠ .hwReset → s.tx.status = .running → s.tx.phase = .ack →
    t.tx.pending = s.tx.pending ∧ t.tx.T = s.tx.T ∧ t.tx.srcPort = s.tx.srcPort ∧ t.tx.dstPort = s.tx.dstPort) ∧
    ∀ s t : State, step s = .next t → (∀ u, ¬Runs s .hwReset u) → s.tx.status = .running → s.tx.phase = .ack →
      t.tx.pending = s.tx.pending ∧ t.tx.T = s.tx.T ∧ t.tx.srcPort = s.tx.srcPort ∧ t.tx.dstPort = s.tx.dstPort

/-- 43_sender_fsm.md R216 and R217: the chunks cut at offsets 0, C, 2C, ... are, in order, the whole stream; all but the
last have C = 1386 bytes, the last has between 1 and C; exactly the last is flagged LAST (R217). -/
def Obligations.ChunksPartitionTheStream : Prop :=
  ∀ T : Bytes, 20 ≤ T.length →
    let K := (T.length + 1385) / 1386
    ((List.range K).map fun k => chunkPayload block T (k * 1386)).flatten = T ∧ 1 ≤ K ∧
    (∀ k, k + 1 < K → (chunkPayload block T (k * 1386)).length = 1386 ∧
      chunkFlag block T.length (k * 1386) = .moreFollow) ∧
    (chunkPayload block T ((K - 1) * 1386)).length = T.length - (K - 1) * 1386 ∧
    1 ≤ T.length - (K - 1) * 1386 ∧ T.length - (K - 1) * 1386 ≤ 1386 ∧
    chunkFlag block T.length ((K - 1) * 1386) = .last

/-! The receiver. -/

/-- R252: the ports take the low 16 bits; refused while running, changing nothing. The answer on `env.result` is the model's
(assumption log 20). -/
def Obligations.CfgRxSetsPortsWhenStopped : Prop :=
  ∀ (src dst : Nat) (s : State), ∃ r,
    exec (.cfgRx src dst) s = .next
      (if s.rx.status = .running then { s with env := { s.env with result := r } }
       else { s with rx := { s.rx with srcPort := BitVec.ofNat 16 src, dstPort := BitVec.ofNat 16 dst },
                     env := { s.env with result := r } })

/-- 44_receiver_fsm.md R253 and 10_state.md R41: RX_RESTART clears the receiver and starts it; refused while running. The
timer flag (assumption log 10) and the answer on `env.result` (assumption log 20) are the model's. -/
def Obligations.RxRestartClearsTheReceiver : Prop :=
  ∀ s : State, ∃ r,
    exec .rxRestart s = .next
      (if s.rx.status = .running then { s with env := { s.env with result := r } }
       else
        { s with
          rx := { s.rx with bit := 0, buf := [], fileNameValid := false, lastAckValid := false, cntOk := 0,
                            cntCorrupt := 0, cntWrongBit := 0, status := .running, timerArmed := true }
          env := { s.env with result := r } })

/-- R258 (and R259 for a short first packet): PACKET_OK appends, sends the ack, records, counts, flips; a LAST-flagged packet
then hands over and resets the session; a failing send leaves the append and stops the receiver (R266). -/
def Obligations.PacketOkDeliversAndAcknowledges : Prop :=
  ∀ (s : State) (d : Datagram) (h : DataHeader), s.rx.status = .running → s.env.rxPort.recv = .bytes d →
    allZero d = false → (decData block d).frameOk = true → (decData block d).header = some h → h.altBit = s.rx.bit →
    let p := (decData block d).payload
    let m := min 20 p.length
    let r : RxRegs :=
      if s.rx.fileNameValid then { s.rx with buf := s.rx.buf ++ p }
      else { s.rx with fileName := p.take m ++ List.replicate (20 - m) 0, fileNameValid := true,
                       buf := s.rx.buf ++ p.drop m }
    let A := encAck block s.rx.srcPort.toNat s.rx.dstPort.toNat s.rx.bit
    exec (if h.endFlag = .last then .rxPacketOkLast else .rxPacketOkMore) s = .next
      (if s.env.rxPort.sendOk then
        if h.endFlag = .last then
          { s with
            rx := { r with lastAck := A, lastAckValid := true, cntOk := s.rx.cntOk + 1, bit := 0, buf := [],
                           fileNameValid := false }
            env := { s.env with toTx := s.env.toTx ++ [A], sink := s.env.sink ++ [⟨r.fileName, r.buf⟩] } }
        else
          { s with
            rx := { r with lastAck := A, lastAckValid := true, cntOk := s.rx.cntOk + 1, bit := 1 - s.rx.bit }
            env := { s.env with toTx := s.env.toTx ++ [A] } }
      else { s with rx := { r with status := .errChannel, timerArmed := false } })

/-- R260: PACKET_CORRUPT counts and does nothing else. -/
def Obligations.PacketCorruptOnlyCounts : Prop :=
  ∀ (s : State) (d : Datagram), s.rx.status = .running → s.env.rxPort.recv = .bytes d → allZero d = false →
    (decData block d).frameOk = false →
    exec .rxPacketCorrupt s = .next { s with rx := { s.rx with cntCorrupt := s.rx.cntCorrupt + 1 } }

/-- R262, R263: PACKET_WRONG_BIT counts and resends the stored last ack, if there is one; a failing send stops the receiver
with the count taken (R266). -/
def Obligations.PacketWrongBitResendsTheLastAck : Prop :=
  ∀ (s : State) (d : Datagram) (h : DataHeader), s.rx.status = .running → s.env.rxPort.recv = .bytes d →
    allZero d = false → (decData block d).frameOk = true → (decData block d).header = some h → h.altBit ≠ s.rx.bit →
    exec .rxPacketWrongBit s = .next
      (if s.rx.lastAckValid = false then { s with rx := { s.rx with cntWrongBit := s.rx.cntWrongBit + 1 } }
       else if s.env.rxPort.sendOk then
        { s with rx := { s.rx with cntWrongBit := s.rx.cntWrongBit + 1 },
                 env := { s.env with toTx := s.env.toTx ++ [s.rx.lastAck] } }
       else { s with rx := { s.rx with cntWrongBit := s.rx.cntWrongBit + 1, status := .errChannel,
                                       timerArmed := false } })

/-- R256: a zero datagram of any length, the empty one included, changes nothing and sends nothing. -/
def Obligations.ZeroDatagramChangesNothing : Prop :=
  ∀ (s : State) (L : Nat), s.rx.status = .running → s.env.rxPort.recv = .bytes (List.replicate L 0) →
    exec .rxZeroDatagram s = .next s

/-- 44_receiver_fsm.md R264, R266 and 10_state.md R41: the idle timeout and a Failure of the receive end the loop. That the
timer flag is cleared at the idle timeout is the model's reading of R41 (assumption log 10). -/
def Obligations.TimeoutAndFailureEndTheReceiver : Prop :=
  ∀ s : State, s.rx.status = .running →
    (s.env.rxPort.recv = .timeout →
      exec .rxIdleTimeout s = .next { s with rx := { s.rx with status := .idleEnd, timerArmed := false } }) ∧
    (s.env.rxPort.recv = .failure →
      exec .rxChannelFailure s = .next { s with rx := { s.rx with status := .errChannel, timerArmed := false } })

/-- 44_receiver_fsm.md R269, an inference the spec marks as its own: while running, `rx.bit` and `rx.buf` are written by
PACKET_OK only (an arriving data frame may be one), HW_RESET apart. The second clause says it of every step, whatever its
input: the receiver's receive has then returned a valid data frame with the bit `rx.bit`. -/
def Obligations.ReceiverAdvancesOnlyOnPacketOk : Prop :=
  (∀ (i : Instr) (s t : State), exec i s = .next t → s.rx.status = .running →
    (t.rx.bit ≠ s.rx.bit ∨ t.rx.buf ≠ s.rx.buf) →
    i = .rxPacketOkMore ∨ i = .rxPacketOkLast ∨ i = .hwReset ∨
      ∃ f flag, i = dataRow flag f ∧
        (decData block (dataFrameBytes flag f)).frameOk = true ∧ f.altBit = s.rx.bit) ∧
    ∀ s t : State, step s = .next t → s.rx.status = .running → (t.rx.bit ≠ s.rx.bit ∨ t.rx.buf ≠ s.rx.buf) →
      (∃ u, Runs s .hwReset u) ∨
        ∃ d h, s.rxReceives = some d ∧ allZero d = false ∧ (decData block d).frameOk = true ∧
          (decData block d).header = some h ∧ h.altBit = s.rx.bit

/-- 20_memory.md R72: the only writes of `rx.buf` append at its end or empty it. -/
def Obligations.ReassemblyBufferIsAppendOnly : Prop :=
  ∀ s t : State, step s = .next t → t.rx.buf = [] ∨ s.rx.buf <+: t.rx.buf

/-- 10_state.md R39: each counter is incremented by exactly one event kind and by nothing else; only RX_RESTART and HW_RESET
clear them. A PACKET_OK whose ack could not be sent has not counted (R266), and a zero datagram counts nothing. The first
clause says it of every instruction but an arriving frame, the second of every step, whatever its input, by the datagram the
receiver's receive returns in it. -/
def Obligations.CountersCountTheirOwnEvents : Prop :=
  (∀ (i : Instr) (s t : State), exec i s = .next t → i ≠ .hwReset → i ≠ .rxRestart →
    (∀ flag f, i ≠ dataRow flag f) →
    (t.rx.cntOk = s.rx.cntOk ∨ ((i = .rxPacketOkMore ∨ i = .rxPacketOkLast) ∧ t.rx.cntOk = s.rx.cntOk + 1)) ∧
    (t.rx.cntCorrupt = s.rx.cntCorrupt + if i = .rxPacketCorrupt then 1 else 0) ∧
    (t.rx.cntWrongBit = s.rx.cntWrongBit + if i = .rxPacketWrongBit then 1 else 0)) ∧
    ∀ s t : State, step s = .next t → (∀ u, ¬Runs s .hwReset u) → (∀ u, ¬Runs s .rxRestart u) →
      let one (p : DataVerdict → Bool) : Nat :=
        match s.rxReceives with
        | none => 0
        | some d => if !allZero d && p (decData block d) then 1 else 0
      let expected (v : DataVerdict) : Bool := v.header.map (·.altBit) == some s.rx.bit
      t.rx.cntOk = s.rx.cntOk + one (fun v => v.frameOk && expected v && decide (t.rx.status = .running)) ∧
      t.rx.cntCorrupt = s.rx.cntCorrupt + one (fun v => !v.frameOk) ∧
      t.rx.cntWrongBit = s.rx.cntWrongBit + one (fun v => v.frameOk && !expected v)

/-- 44_receiver_fsm.md R270: a frame delivered twice is appended once: the second copy of a packet that was not LAST-flagged
is a PACKET_WRONG_BIT, the buffer stays, and the same ack is sent again. -/
def Obligations.DuplicateFrameIsAppendedOnce : Prop :=
  ∀ (s t : State) (d : Datagram), s.env.rxPort = ⟨.bytes d, true⟩ → exec .rxPacketOkMore s = .next t →
    exec .rxPacketWrongBit t = .next { t with
      rx := { t.rx with cntWrongBit := s.rx.cntWrongBit + 1 }
      env := { t.env with toTx := s.env.toTx ++ [t.rx.lastAck, t.rx.lastAck] } }

/-- 70_reset_and_hazards.md R376: a copy of a LAST-flagged frame that arrives after the session reset. If its bit was 1 the
stored last ack is resent and nothing is handed over; if its bit was 0 it is a PACKET_OK of a new transfer and FileSink is
called a second time. -/
def Obligations.CopyOfTheLastFrame : Prop :=
  ∀ (s t : State) (d : Datagram), s.env.rxPort = ⟨.bytes d, true⟩ → exec .rxPacketOkLast s = .next t →
    if s.rx.bit = 1 then
      ∃ u, exec .rxPacketWrongBit t = .next u ∧ u.env.sink = t.env.sink ∧ u.env.toTx = t.env.toTx ++ [t.rx.lastAck]
    else
      ∃ u, exec .rxPacketOkLast t = .next u ∧ u.env.sink = t.env.sink ++
        [⟨capturedName block (decData block d).payload, capturedContent block (decData block d).payload⟩]

/-! Both shells. -/

/-- 60_exceptions.md R334: the sender leaves an ended status only by TX_START or HW_RESET, the receiver only by RX_RESTART
or HW_RESET, among the instructions and among the steps. -/
def Obligations.EndedShellsLeaveOnlyByAStart : Prop :=
  (∀ (i : Instr) (s t : State), exec i s = .next t →
    (s.tx.status ≠ .running → t.tx.status ≠ s.tx.status → i = .hwReset ∨ ∃ name file, i = .txStart name file) ∧
    (s.rx.status ≠ .running → t.rx.status ≠ s.rx.status → i = .hwReset ∨ i = .rxRestart)) ∧
    ∀ s t : State, step s = .next t →
      (s.tx.status ≠ .running → t.tx.status ≠ s.tx.status →
        ∃ i u, Runs s i u ∧ (i = .hwReset ∨ ∃ name file, i = .txStart name file)) ∧
      (s.rx.status ≠ .running → t.rx.status ≠ s.rx.status → ∃ i u, Runs s i u ∧ (i = .hwReset ∨ i = .rxRestart))

/-- 00_scope.md R17, 20_memory.md R76, 41_frame_encoder.md R160, 42_frame_decoder.md R180: the sender's rows, its commands and
an ack frame leave the receiver's registers; the receiver's rows, its commands and a data frame leave the sender's; the six
codec operations change the answer only. HW_RESET alone writes both. -/
def Obligations.ShellsAreDisjoint : Prop :=
  ∀ (i : Instr) (s t : State), exec i s = .next t →
    ((∃ row, i = TxRow.instr row) ∨ (∃ src dst, i = .cfgTx src dst) ∨ (∃ name file, i = .txStart name file) ∨
      (∃ f, i = .ack f) → t.rx = s.rx) ∧
    ((∃ row, i = RxRow.instr row) ∨ (∃ src dst, i = .cfgRx src dst) ∨ i = .rxRestart ∨
      (∃ flag f, i = dataRow flag f) → t.tx = s.tx) ∧
    (∀ B e src dst a f, (i = .crc32 B ∨ i = .crc32Verify B e ∨ i = .encData src dst a f B ∨ i = .decData B ∨
      i = .encAck src dst a ∨ i = .decAck B) → t = { s with env := { s.env with result := t.env.result } }) ∧
    (i ≠ .hwReset → t.tx = s.tx ∨ t.rx = s.rx)

/-! Arrivals, and frames as instructions. -/

/-- 30_encoding.md R107, 44_receiver_fsm.md R254 and R261, 43_sender_fsm.md R223 and R228, 45_environment.md R291: any
datagram at all that arrives at a running receiver is the step its bytes select there, and at a sender in WAIT_ACK likewise
("nothing is silently discarded"); one that arrives while the shell it addresses is not blocked in receive stays in the
Channel. For the frame rows the judgement is written out by their fields. That an arriving frame is an instruction, that the
Channel keeps an unawaited datagram, that a closed end takes none, and that an arriving datagram is a further one, none being
taken out of the list, are the model's choices (assumption logs 13, 14, 33, 35). A frame longer than MAX_FRAME is judged like
any other (R365; assumption log 36). -/
def Obligations.ArrivingDatagramIsJudgedOrKept : Prop :=
  (∀ (s : State) (d : Datagram),
    arriveAtRx d s =
      if s.rx.status = .running ∧ s.env.rxEnd.fails = false then
        exec (if allZero d then .rxZeroDatagram
          else if (decData block d).frameOk = false then .rxPacketCorrupt
          else if (decData block d).header.map (·.altBit) ≠ some s.rx.bit then .rxPacketWrongBit
          else if (decData block d).header.map (·.endFlag) = some .last then .rxPacketOkLast else .rxPacketOkMore)
          { s with env := { s.env with rxPort := { s.env.rxPort with recv := .bytes d } } }
      else .next { s with env := { s.env with toRx := s.env.toRx ++ [d] } }) ∧
    (∀ (s : State) (d : Datagram),
      arriveAtTx d s =
        if s.tx.status = .running ∧ s.tx.phase = .ack ∧ s.env.txEnd.fails = false then
          exec (if (decAck block d).frameOk = false then .txAckBadCorrupt
            else if (decAck block d).header.map (·.altBit) ≠ some s.tx.bit then .txAckBadWrongBit else .txAckOk)
            { s with env := { s.env with txPort := { s.env.txPort with recv := .bytes d } } }
        else .next { s with env := { s.env with toTx := s.env.toTx ++ [d] } }) ∧
    (∀ (s : State) (f : DataFields) (flag : EndFlag), f.wellFormed = true →
      let d := dataFrameBytes flag f
      exec (dataRow flag f) s =
        if s.rx.status = .running ∧ s.env.rxEnd.fails = false then
          exec (if allZero d then .rxZeroDatagram
            else if f.checksum ≠ crc32 block.crc (d.take 8 ++ f.payload) then .rxPacketCorrupt
            else if f.altBit ≠ s.rx.bit then .rxPacketWrongBit
            else if flag = .last then .rxPacketOkLast else .rxPacketOkMore)
            { s with env := { s.env with rxPort := { s.env.rxPort with recv := .bytes d } } }
        else .next { s with env := { s.env with toRx := s.env.toRx ++ [d] } }) ∧
    ∀ (s : State) (f : AckFields),
      let d := ackFrameBytes f
      exec (.ack f) s =
        if s.tx.status = .running ∧ s.tx.phase = .ack ∧ s.env.txEnd.fails = false then
          exec (if f.checksum ≠ crc32 block.crc (d.take 5) then .txAckBadCorrupt
            else if f.altBit ≠ s.tx.bit then .txAckBadWrongBit else .txAckOk)
            { s with env := { s.env with txPort := { s.env.txPort with recv := .bytes d } } }
        else .next { s with env := { s.env with toTx := s.env.toTx ++ [d] } }

/-- 44_receiver_fsm.md R254, R258: a well-formed data frame whose checksum is right and whose bit is the expected one, at a
running receiver with an open end whose send is done, is delivered, acknowledged and counted; LAST hands over. That an
arriving frame is an instruction, that an end may be closed, and that the frame may be longer than MAX_FRAME (R365) are the
model's reading (assumption logs 13, 33, 36). -/
def Obligations.ArrivingDataFrameIsDelivered : Prop :=
  ∀ (s : State) (f : DataFields) (flag : EndFlag), s.rx.status = .running → s.env.rxEnd.fails = false →
    s.env.rxPort.sendOk = true →
    f.wellFormed = true → f.checksum = crc32 block.crc ((dataFrameBytes flag f).take 8 ++ f.payload) →
    f.altBit = s.rx.bit →
    let m := min 20 f.payload.length
    let r : RxRegs :=
      if s.rx.fileNameValid then { s.rx with buf := s.rx.buf ++ f.payload }
      else { s.rx with fileName := f.payload.take m ++ List.replicate (20 - m) 0, fileNameValid := true,
                       buf := s.rx.buf ++ f.payload.drop m }
    let A := encAck block s.rx.srcPort.toNat s.rx.dstPort.toNat s.rx.bit
    let port : ShellPort := ⟨.bytes (dataFrameBytes flag f), true⟩
    exec (dataRow flag f) s = .next
      (if flag = .last then
        { s with
          rx := { r with lastAck := A, lastAckValid := true, cntOk := s.rx.cntOk + 1, bit := 0, buf := [],
                         fileNameValid := false }
          env := { s.env with rxPort := port, toTx := s.env.toTx ++ [A],
                              sink := s.env.sink ++ [⟨r.fileName, r.buf⟩] } }
      else
        { s with
          rx := { r with lastAck := A, lastAckValid := true, cntOk := s.rx.cntOk + 1, bit := 1 - s.rx.bit }
          env := { s.env with rxPort := port, toTx := s.env.toTx ++ [A] } })

/-- 43_sender_fsm.md R220, R222: an ack frame at a sender in WAIT_ACK with an open end whose send is done: with the right checksum and bit it
advances the sender; with a wrong checksum or bit the frame in flight is retransmitted. A pending frame has a header (R26).
That an arriving frame is an instruction, and that an end may be closed, are the model's reading (assumption logs 13, 33). -/
def Obligations.ArrivingAckFrameIsJudged : Prop :=
  ∀ (s : State) (f : AckFields), s.tx.status = .running → s.tx.phase = .ack → s.env.txEnd.fails = false →
    s.env.txPort.sendOk = true → 12 ≤ s.tx.pending.length →
    let port : ShellPort := ⟨.bytes (ackFrameBytes f), true⟩
    exec (.ack f) s = .next
      (if f.checksum = crc32 block.crc ((ackFrameBytes f).take 5) ∧ f.altBit = s.tx.bit then
        { s with
          tx := { s.tx with bytesProcessed := s.tx.bytesProcessed + (s.tx.pending.length - 12), bit := 1 - s.tx.bit,
                            phase := .call, timerArmed := false,
                            status := if byteAt s.tx.pending 5 = 0x02 then .done else .running }
          env := { s.env with txPort := port } }
      else
        { s with
          tx := { s.tx with retryCount := s.tx.retryCount + 1, timerArmed := true }
          env := { s.env with txPort := port, toRx := s.env.toRx ++ [s.tx.pending] } })

/-! A whole transfer. -/

/-- 43_sender_fsm.md R230, 30_encoding.md R114: a fault-free transfer of K chunks, from any state with the sender stopped, the
receiver fresh and the Channel open and empty, takes K rounds of SEND, PACKET_OK, ACK_OK; it ends TX_DONE with the whole
stream acknowledged and, by 44_receiver_fsm.md R258 and R268, one FileSink call with the padded name and exactly the file,
the receiver reset for the next. The list of inputs, the choice `oldest` of each receive and the open ends are the model's
(assumption logs 1, 26, 33). -/
def Obligations.FaultFreeTransferDeliversTheFile : Prop :=
  ∀ (s : State) (name file : Bytes) (rest : List Input), name.length ≤ 20 → s.tx.status ≠ .running →
    s.rx.status = .running → s.rx.fileNameValid = false → s.rx.buf = [] → s.rx.bit = 0 → s.env.toRx = [] →
    s.env.toTx = [] → s.env.txEnd.fails = false → s.env.rxEnd.fails = false → s.env.inputs = transferInputs block name file ++ rest →
    let K := (20 + file.length + 1385) / 1386
    ∃ t, Host.Core.run Sys2Proof.core (1 + 3 * K) s = .next t ∧ t.env.inputs = rest ∧
      t.tx.status = .done ∧ t.tx.bytesProcessed = 20 + file.length ∧ t.tx.retryCount = 0 ∧ t.tx.bit = BitVec.ofNat 1 K ∧
      t.rx.cntOk = s.rx.cntOk + K ∧ t.rx.cntCorrupt = s.rx.cntCorrupt ∧ t.rx.cntWrongBit = s.rx.cntWrongBit ∧
      t.rx.bit = 0 ∧ t.rx.buf = [] ∧
      t.env.sink = s.env.sink ++ [⟨name ++ List.replicate (20 - name.length) 0, file⟩]

/-! The Channel and the FaultInjector. -/

/-- 45_environment.md R290, R291, R299, R310 to R315, 10_state.md R46, 92_eei_decisions.md D38: what the Channel does by itself
and what closing it does. A move of the Channel changes no register and, in the environment, only the list of the direction
it acts on and the FaultInjector: the FaultInjector puts in what its category gives, uses three draws and counts the
category. Closing or reopening an end changes nothing else, and a reopening does not take back that the pending or next call
has to return Failure. A shell whose end is closed, or whose close no call has yet seen, gets Failure from its next receive,
and the sender in WAIT_CALL from its next send, whatever the environment chose; no step but such a failing turn lets an unseen
close be forgotten. The lists, the moves, the injector's units and
draws and the closed ends are the model's (assumption logs 2, 18, 30, 33, 34). -/
def Obligations.ChannelMovesAndCloseActOnTheChannel : Prop :=
  (∀ (s : State) (m : ChannelMove) (rest : List Input), s.env.inputs = .channel m :: rest →
    let j := s.env.injector
    let n := j.drawsUsed
    let put (dir : Direction) (q : List Datagram → List Datagram) (j' : Injector) : State :=
      match dir with
      | .toRx => { s with env := { s.env with inputs := rest, toRx := q s.env.toRx, injector := j' } }
      | .toTx => { s with env := { s.env with inputs := rest, toTx := q s.env.toTx, injector := j' } }
    step s = .next (match m with
      | .insert dir d => put dir (fun q => q ++ [d]) j
      | .lose dir d => put dir (fun q => q.erase d) j
      | .duplicate dir d => put dir (fun q => if d ∈ q then q ++ [d] else q) j
      | .inject dir d =>
        if (Config.randomSource n).toNat < j.pLoss then
          put dir (fun q => q.erase d ++ [List.replicate d.length 0])
            { j with drawsUsed := n + 3, stats := { j.stats with lost := j.stats.lost + 1 } }
        else if (Config.randomSource (n + 1)).toNat < j.pDup then
          put dir (fun q => q.erase d ++ [d, d])
            { j with drawsUsed := n + 3, stats := { j.stats with duplicated := j.stats.duplicated + 1 } }
        else if (Config.randomSource (n + 2)).toNat < j.pCorrupt then
          put dir (fun q => q.erase d ++ [d.modify 12 (fun b => b ^^^ 1)])
            { j with drawsUsed := n + 3, stats := { j.stats with corrupted := j.stats.corrupted + 1 } }
        else put dir (fun q => q.erase d ++ [d]) { j with drawsUsed := n + 3 }
      | .setInjector pLoss pDup pCorrupt =>
        { s with env := { s.env with inputs := rest, injector := { j with pLoss := pLoss, pDup := pDup, pCorrupt := pCorrupt } } })) ∧
    (∀ (s : State) (rest : List Input),
      (s.env.inputs = .close .sender :: rest →
        step s = .next { s with env := { s.env with inputs := rest, txEnd := ⟨true, true⟩ } }) ∧
      (s.env.inputs = .close .receiver :: rest →
        step s = .next { s with env := { s.env with inputs := rest, rxEnd := ⟨true, true⟩ } }) ∧
      (s.env.inputs = .reopen .sender :: rest →
        step s = .next { s with env := { s.env with inputs := rest, txEnd := ⟨false, s.env.txEnd.abort⟩ } }) ∧
      (s.env.inputs = .reopen .receiver :: rest →
        step s = .next { s with env := { s.env with inputs := rest, rxEnd := ⟨false, s.env.rxEnd.abort⟩ } })) ∧
    (∀ (s : State) (ch : RecvChoice) (ok : Bool) (rest : List Input),
      (s.tx.status = .running → s.env.txEnd.closed = true ∨ s.env.txEnd.abort = true →
        s.env.inputs = .txTurn ch ok :: rest →
        ∃ t, step s = .next t ∧ t.rx = s.rx ∧ t.env.toRx = s.env.toRx ∧ t.env.toTx = s.env.toTx ∧ t.env.sink = s.env.sink ∧
          t.env.txEnd = ⟨s.env.txEnd.closed, false⟩ ∧ t.env.rxEnd = s.env.rxEnd ∧
          t.tx = { s.tx with pending := t.tx.pending, status := .errChannel, timerArmed := false } ∧
          (if s.tx.phase = .ack then t.tx.pending = s.tx.pending else nextFrame block s.tx = .ok t.tx.pending)) ∧
      (s.rx.status = .running → s.env.rxEnd.closed = true ∨ s.env.rxEnd.abort = true →
        s.env.inputs = .rxTurn ch ok :: rest →
        ∃ t, step s = .next t ∧ t.tx = s.tx ∧ t.env.toRx = s.env.toRx ∧ t.env.toTx = s.env.toTx ∧ t.env.sink = s.env.sink ∧
          t.env.rxEnd = ⟨s.env.rxEnd.closed, false⟩ ∧ t.env.txEnd = s.env.txEnd ∧
          t.rx = { s.rx with status := .errChannel, timerArmed := false })) ∧
    ∀ s t : State, step s = .next t →
      (s.env.txEnd.abort = true → t.env.txEnd.abort = false →
        s.tx.status = .running ∧ (∃ ch ok rest, s.env.inputs = .txTurn ch ok :: rest) ∧ t.tx.status = .errChannel) ∧
      (s.env.rxEnd.abort = true → t.env.rxEnd.abort = false →
        s.rx.status = .running ∧ (∃ ch ok rest, s.env.inputs = .rxTurn ch ok :: rest) ∧ t.rx.status = .errChannel)

/-- R311 to R316 of 45_environment.md: for any random source, with all three probabilities 0 a datagram passes unchanged; with
`pLoss = 1` every datagram becomes all zero bytes of its length (R316), whatever the others; loss has priority over
duplicate and duplicate over corrupt, whatever the draws. The units of 2^-32 are the model's (assumption log 18). -/
def Obligations.InjectorPriorityAndPassThrough : Prop :=
  ∀ (draw : Nat → BitVec 32) (j : Injector) (d : Datagram),
    (j.pLoss = 0 → j.pDup = 0 → j.pCorrupt = 0 → injectorOutput block (nextCase draw j) d = [d]) ∧
    (j.pLoss = 2 ^ 32 → injectorOutput block (nextCase draw j) d = [List.replicate d.length 0]) ∧
    (j.pLoss = 0 → j.pDup = 2 ^ 32 → injectorOutput block (nextCase draw j) d = [d, d])

/-- 45_environment.md R313: the corrupt transform of a data frame with a payload guarantees a checksum mismatch at decode
time; an ack frame passes unchanged (D36). The bit flipped is the default of CORRUPT_BIT (assumption log 18). -/
def Obligations.InjectedCorruptionIsDetected : Prop :=
  (∀ (src dst : Nat) (a : Bit) (f : EndFlag) (p F : Bytes), encData block src dst a f p = .ok F → p ≠ [] →
    (decData block (corruptTransform block F)).lengthOk = true ∧
      (decData block (corruptTransform block F)).fieldsOk = true ∧
      (decData block (corruptTransform block F)).checksumOk = false) ∧
    ∀ (src dst : Nat) (a : Bit), corruptTransform block (encAck block src dst a) = encAck block src dst a
end

