-- ==== Sys2Proof/Laws/Operands.lean ====
section
/-!
SUPPORT. The operand forms: lengths, a field read back from the bytes it was put in, the laws of a byte sequence's accesses
(read after write, a write leaves the rest alone), the layout of the packed frames.
-/

namespace Sys2Proof.Machine
set_option Elab.async false

/-! Sizes. -/

@[simp] theorem put16_length (o : ByteOrder) (v : Half) : (put16 o v).length = 2 := by cases o <;> rfl

@[simp] theorem put32_length (o : ByteOrder) (v : Word) : (put32 o v).length = 4 := by cases o <;> rfl

@[simp] theorem zeros_length (n : Nat) : (zeros n).length = n := by simp [zeros]

@[simp] theorem slice_length (B : Bytes) (a b : Nat) : (slice B a b).length = min (b - a) (B.length - a) := by
  simp [slice]

@[simp] theorem allZero_zeros (n : Nat) : allZero (zeros n) = true := by simp [allZero, zeros]

theorem allZero_iff (B : Bytes) : allZero B = true ↔ B = zeros B.length := by
  induction B with
  | nil => simp [allZero, zeros]
  | cons b B ih =>
    simp only [allZero, List.all_cons, Bool.and_eq_true, beq_iff_eq, zeros, List.length_cons,
      List.replicate_succ, List.cons.injEq] at ih ⊢
    exact and_congr_right fun _ => ih

/-! Fields. -/

theorem half_of_bytes (v : Half) : v.extractLsb' 8 8 ++ v.extractLsb' 0 8 = v := by
  ext i hi
  simp only [BitVec.getElem_append, BitVec.getElem_extractLsb']
  split
  · simp [BitVec.getElem_eq_testBit_toNat, BitVec.getLsbD]
  · rw [← BitVec.getLsbD_eq_getElem]; congr 1; omega

theorem word_of_bytes (v : Word) :
    v.extractLsb' 24 8 ++ v.extractLsb' 16 8 ++ v.extractLsb' 8 8 ++ v.extractLsb' 0 8 = v := by
  ext i hi
  simp only [BitVec.getElem_append, BitVec.getElem_extractLsb']
  split
  · simp [BitVec.getElem_eq_testBit_toNat, BitVec.getLsbD]
  · split
    · rw [← BitVec.getLsbD_eq_getElem]; congr 1; omega
    · split
      · rw [← BitVec.getLsbD_eq_getElem]; congr 1; omega
      · rw [← BitVec.getLsbD_eq_getElem]; congr 1; omega

/-- A byte of a sequence that starts with other bytes. -/
theorem byteAt_append_right (A B : Bytes) (i : Nat) (h : A.length ≤ i) : byteAt (A ++ B) i = byteAt B (i - A.length) := by
  simp [byteAt, List.getD_eq_getElem?_getD, List.getElem?_append_right h]

theorem byteAt_append_left (A B : Bytes) (i : Nat) (h : i < A.length) : byteAt (A ++ B) i = byteAt A i := by
  simp [byteAt, List.getD_eq_getElem?_getD, List.getElem?_append_left h]

/-- A 16-bit field is read back from where it was put (R14). -/
theorem get16_put16 (o : ByteOrder) (v : Half) (A B : Bytes) : get16 o (A ++ put16 o v ++ B) A.length = v := by
  have h0 : byteAt (A ++ put16 o v ++ B) A.length = byteAt (put16 o v) 0 := by
    rw [List.append_assoc, byteAt_append_right _ _ _ le_rfl, Nat.sub_self, byteAt_append_left _ _ _ (by simp)]
  have h1 : byteAt (A ++ put16 o v ++ B) (A.length + 1) = byteAt (put16 o v) 1 := by
    rw [List.append_assoc, byteAt_append_right _ _ _ (by omega), byteAt_append_left _ _ _ (by simp)]
    congr 1; omega
  cases o <;> simp only [get16, h0, h1] <;> exact half_of_bytes v

/-- A 32-bit field is read back from where it was put (R14). -/
theorem get32_put32 (o : ByteOrder) (v : Word) (A B : Bytes) : get32 o (A ++ put32 o v ++ B) A.length = v := by
  have h (k : Nat) (hk : k < 4) : byteAt (A ++ put32 o v ++ B) (A.length + k) = byteAt (put32 o v) k := by
    rw [List.append_assoc, byteAt_append_right _ _ _ (by omega), Nat.add_sub_cancel_left,
      byteAt_append_left _ _ _ (by simpa using hk)]
  have h0 := h 0 (by omega)
  simp only [Nat.add_zero] at h0
  cases o <;> simp only [get32, h0, h 1 (by omega), h 2 (by omega), h 3 (by omega)] <;> exact word_of_bytes v

/-- `be16(B, o) = B[o]*256 + B[o+1]` (R14). -/
theorem be16_toNat (B : Bytes) (i : Nat) : (be16 B i).toNat = (byteAt B i).toNat * 256 + (byteAt B (i + 1)).toNat := by
  simp only [be16, get16, BitVec.toNat_append]
  rw [← Nat.shiftLeft_add_eq_or_of_lt (byteAt B (i + 1)).isLt, Nat.shiftLeft_eq]

@[simp] theorem altBitOf_altByteOf (b : Bit) : altBitOf (altByteOf b) = b := by
  simp [altBitOf, altByteOf]

/-! Accesses (R14, R71). -/

/-- A read after a write to the same place gives what was written. -/
theorem memRead_memWrite (B : Bytes) (o : Nat) (v : Bytes) (h : o + v.length ≤ B.length) :
    memRead (memWrite B o v) o v.length = v := by
  have : (B.take o).length = o := by simp; omega
  simp only [memRead, memWrite, slice, List.append_assoc]
  rw [List.drop_append_of_le_length (by omega), List.drop_of_length_le (by omega)]
  simp

/-- A write leaves every byte outside the written ones alone. -/
theorem byteAt_memWrite (B : Bytes) (o i : Nat) (v : Bytes) (h : o + v.length ≤ B.length) (hi : i < o ∨ o + v.length ≤ i) :
    byteAt (memWrite B o v) i = byteAt B i := by
  have ho : (B.take o).length = o := by simp; omega
  unfold memWrite
  rcases hi with hi | hi
  · rw [List.append_assoc, byteAt_append_left _ _ _ (by omega)]
    simp [byteAt, List.getD_eq_getElem?_getD, hi]
  · rw [byteAt_append_right _ _ _ (by simp; omega)]
    simp only [byteAt, List.getD_eq_getElem?_getD, List.getElem?_drop, List.length_append, ho]
    congr 2; omega

/-- A write keeps the length. -/
theorem memWrite_length (B : Bytes) (o : Nat) (v : Bytes) (h : o + v.length ≤ B.length) :
    (memWrite B o v).length = B.length := by
  simp [memWrite]; omega

/-! The packed frames. -/

@[simp] theorem dataHeaderBytes_length (c : Config) (s d : Nat) (a : Bit) (f : EndFlag) (n : Nat) :
    (dataHeaderBytes c s d a f n).length = 8 := by
  simp [dataHeaderBytes]

/-- `12 + payloadLength` bytes (R90). -/
@[simp] theorem packData_length (c : Config) (s d : Nat) (a : Bit) (f : EndFlag) (p : Bytes) :
    (packData c s d a f p).length = 12 + p.length := by
  simp [packData]; omega

@[simp] theorem ackHeaderBytes_length (c : Config) (s d : Nat) (a : Bit) : (ackHeaderBytes c s d a).length = 5 := by
  simp [ackHeaderBytes]

/-- Nine bytes (R100). -/
@[simp] theorem encAck_length (c : Config) (s d : Nat) (a : Bit) : (encAck c s d a).length = 9 := by
  simp [encAck]

/-- The altBit byte of a packed data frame. -/
theorem packData_altByte (c : Config) (s d : Nat) (a : Bit) (f : EndFlag) (p : Bytes) :
    byteAt (packData c s d a f p) 4 = altByteOf a := by
  cases h : c.portOrder <;> simp [packData, dataHeaderBytes, put16, h, byteAt]

/-- The endFlag byte of a packed data frame. -/
theorem packData_flagByte (c : Config) (s d : Nat) (a : Bit) (f : EndFlag) (p : Bytes) :
    byteAt (packData c s d a f p) 5 = flagByteOf f := by
  cases h : c.portOrder <;> simp [packData, dataHeaderBytes, put16, h, byteAt]

/-- The altBit byte of a packed ack frame. -/
theorem encAck_altByte (c : Config) (s d : Nat) (a : Bit) : byteAt (encAck c s d a) 4 = altByteOf a := by
  cases h : c.portOrder <;> simp [encAck, ackHeaderBytes, put16, h, byteAt]

/-- ENC_DATA's two outcomes (R161, R163). -/
theorem encData_cases (c : Config) (s d : Nat) (a : Bit) (f : EndFlag) (p : Bytes) :
    (c.maxFrame < Config.headerSize + p.length ∧ encData c s d a f p = .error (.payloadTooLarge p.length)) ∨
      (Config.headerSize + p.length ≤ c.maxFrame ∧ encData c s d a f p = .ok (packData c s d a f p)) := by
  unfold encData
  by_cases h : Config.headerSize + p.length > c.maxFrame
  · exact .inl ⟨h, by rw [if_pos h]⟩
  · exact .inr ⟨by omega, by rw [if_neg h]⟩

/-- A chunk is never longer than CHUNK_MAX (R216, R218). -/
theorem chunkPayload_length (c : Config) (T : Bytes) (o : Nat) :
    (chunkPayload c T o).length = chunkLength c T.length o := by
  simp [chunkPayload, chunkLength]

/-- The block's SEND cannot be refused by the encoder (R227): `CHUNK_MAX <= MAX_PAYLOAD`. -/
theorem nextFrame_fits (c : Config) (s d : Nat) (a : Bit) (f : EndFlag) (T : Bytes) (o : Nat)
    (h : Config.headerSize + c.chunkMax ≤ c.maxFrame) :
    encData c s d a f (chunkPayload c T o) = .ok (packData c s d a f (chunkPayload c T o)) := by
  rcases encData_cases c s d a f (chunkPayload c T o) with ⟨hlt, _⟩ | ⟨_, heq⟩
  · rw [chunkPayload_length, chunkLength] at hlt; omega
  · exact heq

end Sys2Proof.Machine
end

