-- ==== Sys2Proof/Laws/Codec.lean ====
section
/-!
SUPPORT. The codec: the byte step of the CRC loses nothing, what the encoder of the frame rows writes is what the decoders
read, and what a datagram that decodes has.
-/

namespace Sys2Proof.Machine
set_option Elab.async false

/-! The CRC. -/

theorem xor_cancel_right {w : Nat} {a b c : BitVec w} (h : a ^^^ c = b ^^^ c) : a = b := by
  have := congrArg (· ^^^ c) h
  simpa [BitVec.xor_assoc] using this

/-- One bit of the loop is injective in the register: the polynomial has its top bit set, a shifted register has not. -/
theorem crcBit_injective : Function.Injective (crcBit crcDefault) := by
  intro c d h
  have hc (x : Word) : crcBit crcDefault x = if x.getLsbD 0 = true then (x >>> 1) ^^^ 0xEDB88320#32 else x >>> 1 := rfl
  rw [hc, hc] at h
  have top (x : Word) : (x >>> 1).getLsbD 31 = false := by simp
  have poly (x : Word) : ((x >>> 1) ^^^ 0xEDB88320#32).getLsbD 31 = true := by
    rw [BitVec.getLsbD_xor, top]; decide
  have low : c.getLsbD 0 = d.getLsbD 0 := by
    cases c0 : c.getLsbD 0 <;> cases d0 : d.getLsbD 0 <;> rw [c0, d0] at h
    · have := top c; rw [show c >>> 1 = (d >>> 1) ^^^ 0xEDB88320#32 from h, poly] at this; exact this.symm
    · have := top d; rw [show d >>> 1 = (c >>> 1) ^^^ 0xEDB88320#32 from h.symm, poly] at this; exact this
  have shifted : c >>> 1 = d >>> 1 := by
    rw [low] at h
    split at h
    · exact xor_cancel_right h
    · exact h
  apply BitVec.eq_of_getLsbD_eq
  intro i hi
  rcases i with _ | i
  · exact low
  · have := congrArg (BitVec.getLsbD · i) shifted
    simpa [BitVec.getLsbD_ushiftRight, Nat.add_comm] using this

/-- A byte step is injective in the register. -/
theorem crcUpdate_injective (b : Byte) : Function.Injective (crcUpdate crcDefault · b) := by
  intro c d h
  have := crcBit_injective.iterate 8 h
  exact xor_cancel_right this

/-- A byte step is injective in the byte. -/
theorem crcUpdate_byte {c : Word} {b d : Byte} (h : crcUpdate crcDefault c b = crcUpdate crcDefault c d) : b = d := by
  have : c ^^^ b.setWidth 32 = c ^^^ d.setWidth 32 := crcBit_injective.iterate 8 h
  rw [BitVec.xor_comm c, BitVec.xor_comm c] at this
  replace this := congrArg BitVec.toNat (xor_cancel_right this)
  apply BitVec.eq_of_toNat_eq
  simp only [BitVec.toNat_setWidth] at this
  omega

theorem crcRun_append (p : CrcParams) (c : Word) (X Y : Bytes) : crcRun p c (X ++ Y) = crcRun p (crcRun p c X) Y := by
  simp [crcRun]

/-- The bytes after a difference keep the registers different. -/
theorem crcRun_injective (B : Bytes) : Function.Injective (crcRun crcDefault · B) := by
  induction B with
  | nil => exact fun _ _ h => h
  | cons b B ih => exact fun c d h => crcUpdate_injective b (ih h)

theorem crcValue_injective : Function.Injective (crcValue crcDefault) := by
  intro c d h
  have : c ^^^ 0xFFFFFFFF#32 = d ^^^ 0xFFFFFFFF#32 := h
  exact xor_cancel_right this

/-! Replacing one byte. -/

theorem byteAt_set (F : Bytes) (i j : Nat) (b : Byte) :
    byteAt (F.set i b) j = if i = j ∧ i < F.length then b else byteAt F j := by
  simp only [byteAt, List.getD_eq_getElem?_getD, List.getElem?_set]
  split
  · split <;> simp_all
  · simp_all

theorem eq_take_byteAt_drop (F : Bytes) (i : Nat) (h : i < F.length) : F = F.take i ++ byteAt F i :: F.drop (i + 1) := by
  have : byteAt F i = F[i] := by simp [byteAt, List.getD_eq_getElem?_getD, h]
  rw [this, List.getElem_cons_drop, List.take_append_drop]

/-! What decodes. -/

/-- `be32(B, i)` as a number (R14). -/
theorem get32_big_toNat (D : Bytes) (i : Nat) :
    (get32 .big D i).toNat = (byteAt D i).toNat * 2 ^ 24 + (byteAt D (i + 1)).toNat * 2 ^ 16 +
      (byteAt D (i + 2)).toNat * 2 ^ 8 + (byteAt D (i + 3)).toNat := by
  have h (a : Nat) (b : Byte) : a <<< 8 ||| b.toNat = a * 256 + b.toNat := by
    rw [← Nat.shiftLeft_add_eq_or_of_lt b.isLt, Nat.shiftLeft_eq]
  simp only [get32, BitVec.toNat_append, h]
  omega

/-- What DEC_DATA demands of a frame it accepts (R185, R186, R189). -/
theorem decData_frameOk {D : Datagram} (h : (decData block D).frameOk = true) :
    12 ≤ D.length ∧ D.length = 12 + (be16 D 6).toNat ∧ crc32 block.crc (D.take 8 ++ D.drop 12) = get32 .big D 8 := by
  unfold decData at h
  split at h
  · cases h
  · split at h
    · rename_i hr hl
      simp only [Bool.and_eq_true] at h
      refine ⟨Nat.le_of_not_lt fun hc => hr (decide_eq_true hc), by simpa [dataLengthOk, Config.headerSize] using hl, ?_⟩
      have := h.2
      simp [dataChecksumOk, crc32Verify, slice, Config.headerSize, Config.crcCoverHdr] at this
      rwa [List.take_of_length_le (l := D.drop 12) (by simp)] at this
    · cases h

/-- What DEC_ACK demands of a frame it accepts (R198, R199, R201). -/
theorem decAck_frameOk {D : Datagram} (h : (decAck block D).frameOk = true) :
    D.length = 9 ∧ crc32 block.crc (D.take 5) = get32 .big D 5 := by
  unfold decAck at h
  split at h
  · rename_i hl
    simp only [Bool.and_eq_true] at h
    refine ⟨by simpa [ackLengthOk, Config.ackSize] using hl, ?_⟩
    have := h.2
    simp [ackChecksumOk, crc32Verify, slice, Config.ackCover] at this
    exact this
  · cases h

/-! The frame rows. -/

@[simp] theorem dataFrameBytes_length (flag : EndFlag) (f : DataFields) :
    (dataFrameBytes flag f).length = 12 + f.payload.length := by
  simp [dataFrameBytes]; omega

@[simp] theorem ackFrameBytes_length (f : AckFields) : (ackFrameBytes f).length = 9 := by simp [ackFrameBytes]

/-- The fields are read back from the bytes of the pattern R99. -/
theorem dataFieldsOf_dataFrameBytes (flag : EndFlag) (f : DataFields) : dataFieldsOf (dataFrameBytes flag f) = f := by
  have h1 : get16 .big (dataFrameBytes flag f) 0 = f.sourcePort := half_of_bytes f.sourcePort
  have h2 : get16 .big (dataFrameBytes flag f) 2 = f.destPort := half_of_bytes f.destPort
  have h3 : altBitOf (byteAt (dataFrameBytes flag f) 4) = f.altBit := altBitOf_altByteOf f.altBit
  have h4 : get16 .big (dataFrameBytes flag f) 6 = f.payloadLength := half_of_bytes f.payloadLength
  have h5 : get32 .big (dataFrameBytes flag f) 8 = f.checksum := word_of_bytes f.checksum
  have h6 : (dataFrameBytes flag f).drop 12 = f.payload := rfl
  simp only [dataFieldsOf, h1, h2, h3, h4, h5, h6]

/-- The fields are read back from the bytes of the pattern R102. -/
theorem ackFieldsOf_ackFrameBytes (f : AckFields) : ackFieldsOf (ackFrameBytes f) = f := by
  have h1 : get16 .big (ackFrameBytes f) 0 = f.sourcePort := half_of_bytes f.sourcePort
  have h2 : get16 .big (ackFrameBytes f) 2 = f.destPort := half_of_bytes f.destPort
  have h3 : altBitOf (byteAt (ackFrameBytes f) 4) = f.altBit := altBitOf_altByteOf f.altBit
  have h4 : get32 .big (ackFrameBytes f) 5 = f.checksum := word_of_bytes f.checksum
  simp only [ackFieldsOf, h1, h2, h3, h4]

/-- ENC_DATA's frame is the row of R99 with the low 16 bits of the ports and the computed checksum. -/
theorem packData_eq (src dst : Nat) (a : Bit) (flag : EndFlag) (p : Bytes) :
    packData block src dst a flag p =
      dataFrameBytes flag ⟨low16 src, low16 dst, a, BitVec.ofNat 16 p.length,
        crc32 block.crc (dataHeaderBytes block src dst a flag p.length ++ p), p⟩ := rfl

/-- ENC_ACK's frame is the row of R102 likewise. -/
theorem encAck_eq (src dst : Nat) (a : Bit) :
    encAck block src dst a =
      ackFrameBytes ⟨low16 src, low16 dst, a, crc32 block.crc (ackHeaderBytes block src dst a)⟩ := rfl

/-- DEC_DATA of a well-formed frame row: only the checksum is judged. -/
theorem decData_dataFrameBytes (flag : EndFlag) (f : DataFields) (hw : f.wellFormed = true) :
    decData block (dataFrameBytes flag f) =
      { runt := false, lengthOk := true, fieldsOk := true
        checksumOk := decide (crc32 block.crc ((dataFrameBytes flag f).take 8 ++ f.payload) = f.checksum)
        frameOk := decide (crc32 block.crc ((dataFrameBytes flag f).take 8 ++ f.payload) = f.checksum)
        header := some ⟨f.sourcePort, f.destPort, altByteOf f.altBit, flagByteOf flag, f.altBit,
          wireFlagOf (flagByteOf flag), f.payloadLength, f.checksum⟩
        payload := f.payload } := by
  have hl := dataFrameBytes_length flag f
  have hr : dataRunt (dataFrameBytes flag f) = false := decide_eq_false (by rw [hl]; simp [Config.headerSize])
  have hlen : be16 (dataFrameBytes flag f) 6 = f.payloadLength := half_of_bytes f.payloadLength
  have hlo : dataLengthOk (dataFrameBytes flag f) = true := by
    have : f.payloadLength.toNat = f.payload.length := by simpa [DataFields.wellFormed] using hw
    simp only [dataLengthOk, hlen, hl, Config.headerSize, this]; simp
  have a4 : byteAt (dataFrameBytes flag f) 4 = altByteOf f.altBit := rfl
  have a5 : byteAt (dataFrameBytes flag f) 5 = flagByteOf flag := rfl
  have hfo : dataFieldsOk (dataFrameBytes flag f) = true := by
    have h4 : ∀ b : Bit, altByteLegal (altByteOf b) = true := by decide
    have h5 : flagByteLegal (flagByteOf flag) = true := by cases flag <;> rfl
    simp only [dataFieldsOk, a4, a5, h4, h5]; rfl
  have hp : slice (dataFrameBytes flag f) 12 (dataFrameBytes flag f).length = f.payload := by
    rw [hl, slice, show (dataFrameBytes flag f).drop 12 = f.payload from rfl]; simp
  have hck : get32 block.crcFieldOrder (dataFrameBytes flag f) 8 = f.checksum := word_of_bytes f.checksum
  have hc : dataChecksumOk block (dataFrameBytes flag f) =
      decide (crc32 block.crc ((dataFrameBytes flag f).take 8 ++ f.payload) = f.checksum) := by
    simp only [dataChecksumOk, Config.headerSize, Config.crcCoverHdr, hp, crc32Verify, hck]; rfl
  have hh : dataHeaderOf block (dataFrameBytes flag f) =
      ⟨f.sourcePort, f.destPort, altByteOf f.altBit, flagByteOf flag, f.altBit, wireFlagOf (flagByteOf flag),
        f.payloadLength, f.checksum⟩ := by
    have h1 : get16 block.portOrder (dataFrameBytes flag f) 0 = f.sourcePort := half_of_bytes f.sourcePort
    have h2 : get16 block.portOrder (dataFrameBytes flag f) 2 = f.destPort := half_of_bytes f.destPort
    simp only [dataHeaderOf, h1, h2, hck, a4, a5, hlen, altBitOf_altByteOf]
  simp only [decData, hr, hlo, hfo, hc, hh, Config.headerSize, hp, Bool.true_and, if_true, Bool.false_eq_true, if_false]

/-- DEC_ACK of an ack frame row: only the checksum is judged. -/
theorem decAck_ackFrameBytes (f : AckFields) :
    decAck block (ackFrameBytes f) =
      { lengthOk := true, fieldsOk := true
        checksumOk := decide (crc32 block.crc ((ackFrameBytes f).take 5) = f.checksum)
        frameOk := decide (crc32 block.crc ((ackFrameBytes f).take 5) = f.checksum)
        header := some ⟨f.sourcePort, f.destPort, altByteOf f.altBit, f.altBit, f.checksum⟩ } := by
  have hck : get32 block.crcFieldOrder (ackFrameBytes f) 5 = f.checksum := word_of_bytes f.checksum
  have hh : ackHeaderOf block (ackFrameBytes f) =
      ⟨f.sourcePort, f.destPort, altByteOf f.altBit, f.altBit, f.checksum⟩ := by
    have h1 : get16 block.portOrder (ackFrameBytes f) 0 = f.sourcePort := half_of_bytes f.sourcePort
    have h2 : get16 block.portOrder (ackFrameBytes f) 2 = f.destPort := half_of_bytes f.destPort
    have h4 : byteAt (ackFrameBytes f) 4 = altByteOf f.altBit := rfl
    simp only [ackHeaderOf, h1, h2, hck, h4, altBitOf_altByteOf]
  have hl : ackLengthOk (ackFrameBytes f) = true := rfl
  have hf : ackFieldsOk (ackFrameBytes f) = true := by
    have h4 : ∀ b : Bit, altByteLegal (altByteOf b) = true := by decide
    exact h4 f.altBit
  have hc : ackChecksumOk block (ackFrameBytes f) =
      decide (crc32 block.crc ((ackFrameBytes f).take 5) = f.checksum) := by
    simp only [ackChecksumOk, Config.ackCover, hck, crc32Verify]; rfl
  simp only [decAck, hl, hf, hc, hh, if_true, Bool.true_and]

end Sys2Proof.Machine
end

