-- ==== Sys2Proof/Laws/State.lean ====
section
/-!
SUPPORT. The small lemmas of the state's updates, one per field and update, each true by rfl.
-/

namespace Sys2Proof.Machine

section Updates

variable (s : State)

@[simp] theorem State.setTx_tx (t : TxRegs) : (s.setTx t).tx = t := rfl
@[simp] theorem State.setTx_rx (t : TxRegs) : (s.setTx t).rx = s.rx := rfl
@[simp] theorem State.setTx_env (t : TxRegs) : (s.setTx t).env = s.env := rfl

@[simp] theorem State.setRx_tx (r : RxRegs) : (s.setRx r).tx = s.tx := rfl
@[simp] theorem State.setRx_rx (r : RxRegs) : (s.setRx r).rx = r := rfl
@[simp] theorem State.setRx_env (r : RxRegs) : (s.setRx r).env = s.env := rfl

@[simp] theorem State.setEnv_tx (e : Env) : (s.setEnv e).tx = s.tx := rfl
@[simp] theorem State.setEnv_rx (e : Env) : (s.setEnv e).rx = s.rx := rfl
@[simp] theorem State.setEnv_env (e : Env) : (s.setEnv e).env = e := rfl

@[simp] theorem State.setInputs_tx (l : List Input) : (s.setInputs l).tx = s.tx := rfl
@[simp] theorem State.setInputs_rx (l : List Input) : (s.setInputs l).rx = s.rx := rfl
@[simp] theorem State.setInputs_inputs (l : List Input) : (s.setInputs l).env.inputs = l := rfl
@[simp] theorem State.setInputs_txPort (l : List Input) : (s.setInputs l).env.txPort = s.env.txPort := rfl
@[simp] theorem State.setInputs_rxPort (l : List Input) : (s.setInputs l).env.rxPort = s.env.rxPort := rfl
@[simp] theorem State.setInputs_result (l : List Input) : (s.setInputs l).env.result = s.env.result := rfl
@[simp] theorem State.setInputs_toRx (l : List Input) : (s.setInputs l).env.toRx = s.env.toRx := rfl
@[simp] theorem State.setInputs_toTx (l : List Input) : (s.setInputs l).env.toTx = s.env.toTx := rfl
@[simp] theorem State.setInputs_sink (l : List Input) : (s.setInputs l).env.sink = s.env.sink := rfl
@[simp] theorem State.setInputs_injector (l : List Input) : (s.setInputs l).env.injector = s.env.injector := rfl
@[simp] theorem State.setInputs_txEnd (l : List Input) : (s.setInputs l).env.txEnd = s.env.txEnd := rfl
@[simp] theorem State.setInputs_rxEnd (l : List Input) : (s.setInputs l).env.rxEnd = s.env.rxEnd := rfl

@[simp] theorem State.answer_tx (r : OpResult) : (s.answer r).tx = s.tx := rfl
@[simp] theorem State.answer_rx (r : OpResult) : (s.answer r).rx = s.rx := rfl
@[simp] theorem State.answer_inputs (r : OpResult) : (s.answer r).env.inputs = s.env.inputs := rfl
@[simp] theorem State.answer_txPort (r : OpResult) : (s.answer r).env.txPort = s.env.txPort := rfl
@[simp] theorem State.answer_rxPort (r : OpResult) : (s.answer r).env.rxPort = s.env.rxPort := rfl
@[simp] theorem State.answer_result (r : OpResult) : (s.answer r).env.result = some r := rfl
@[simp] theorem State.answer_toRx (r : OpResult) : (s.answer r).env.toRx = s.env.toRx := rfl
@[simp] theorem State.answer_toTx (r : OpResult) : (s.answer r).env.toTx = s.env.toTx := rfl
@[simp] theorem State.answer_sink (r : OpResult) : (s.answer r).env.sink = s.env.sink := rfl
@[simp] theorem State.answer_injector (r : OpResult) : (s.answer r).env.injector = s.env.injector := rfl
@[simp] theorem State.answer_txEnd (r : OpResult) : (s.answer r).env.txEnd = s.env.txEnd := rfl
@[simp] theorem State.answer_rxEnd (r : OpResult) : (s.answer r).env.rxEnd = s.env.rxEnd := rfl

@[simp] theorem transmit_toRx_inputs (d : Datagram) : (transmit .toRx d s).env.inputs = s.env.inputs := rfl
@[simp] theorem transmit_toRx_txPort (d : Datagram) : (transmit .toRx d s).env.txPort = s.env.txPort := rfl
@[simp] theorem transmit_toRx_rxPort (d : Datagram) : (transmit .toRx d s).env.rxPort = s.env.rxPort := rfl
@[simp] theorem transmit_toRx_result (d : Datagram) : (transmit .toRx d s).env.result = s.env.result := rfl
@[simp] theorem transmit_toRx_toRx (d : Datagram) : (transmit .toRx d s).env.toRx = s.env.toRx ++ [d] := rfl
@[simp] theorem transmit_toRx_toTx (d : Datagram) : (transmit .toRx d s).env.toTx = s.env.toTx := rfl
@[simp] theorem transmit_toRx_sink (d : Datagram) : (transmit .toRx d s).env.sink = s.env.sink := rfl
@[simp] theorem transmit_toRx_injector (d : Datagram) : (transmit .toRx d s).env.injector = s.env.injector := rfl
@[simp] theorem transmit_toRx_txEnd (d : Datagram) : (transmit .toRx d s).env.txEnd = s.env.txEnd := rfl
@[simp] theorem transmit_toRx_rxEnd (d : Datagram) : (transmit .toRx d s).env.rxEnd = s.env.rxEnd := rfl
@[simp] theorem transmit_toTx_inputs (d : Datagram) : (transmit .toTx d s).env.inputs = s.env.inputs := rfl
@[simp] theorem transmit_toTx_txPort (d : Datagram) : (transmit .toTx d s).env.txPort = s.env.txPort := rfl
@[simp] theorem transmit_toTx_rxPort (d : Datagram) : (transmit .toTx d s).env.rxPort = s.env.rxPort := rfl
@[simp] theorem transmit_toTx_result (d : Datagram) : (transmit .toTx d s).env.result = s.env.result := rfl
@[simp] theorem transmit_toTx_toRx (d : Datagram) : (transmit .toTx d s).env.toRx = s.env.toRx := rfl
@[simp] theorem transmit_toTx_toTx (d : Datagram) : (transmit .toTx d s).env.toTx = s.env.toTx ++ [d] := rfl
@[simp] theorem transmit_toTx_sink (d : Datagram) : (transmit .toTx d s).env.sink = s.env.sink := rfl
@[simp] theorem transmit_toTx_injector (d : Datagram) : (transmit .toTx d s).env.injector = s.env.injector := rfl
@[simp] theorem transmit_toTx_txEnd (d : Datagram) : (transmit .toTx d s).env.txEnd = s.env.txEnd := rfl
@[simp] theorem transmit_toTx_rxEnd (d : Datagram) : (transmit .toTx d s).env.rxEnd = s.env.rxEnd := rfl

@[simp] theorem transmit_tx (dir : Direction) (d : Datagram) : (transmit dir d s).tx = s.tx := by cases dir <;> rfl

@[simp] theorem transmit_rx (dir : Direction) (d : Datagram) : (transmit dir d s).rx = s.rx := by cases dir <;> rfl

@[simp] theorem enterTxFatal_rx (code : TxStatus) : (enterTxFatal code s).rx = s.rx := rfl
@[simp] theorem enterTxFatal_env (code : TxStatus) : (enterTxFatal code s).env = s.env := rfl
@[simp] theorem enterTxFatal_srcPort (code : TxStatus) : (enterTxFatal code s).tx.srcPort = s.tx.srcPort := rfl
@[simp] theorem enterTxFatal_dstPort (code : TxStatus) : (enterTxFatal code s).tx.dstPort = s.tx.dstPort := rfl
@[simp] theorem enterTxFatal_phase (code : TxStatus) : (enterTxFatal code s).tx.phase = s.tx.phase := rfl
@[simp] theorem enterTxFatal_bit (code : TxStatus) : (enterTxFatal code s).tx.bit = s.tx.bit := rfl
@[simp] theorem enterTxFatal_bytesProcessed (code : TxStatus) : (enterTxFatal code s).tx.bytesProcessed = s.tx.bytesProcessed := rfl
@[simp] theorem enterTxFatal_pending (code : TxStatus) : (enterTxFatal code s).tx.pending = s.tx.pending := rfl
@[simp] theorem enterTxFatal_retryCount (code : TxStatus) : (enterTxFatal code s).tx.retryCount = s.tx.retryCount := rfl
@[simp] theorem enterTxFatal_status (code : TxStatus) : (enterTxFatal code s).tx.status = code := rfl
@[simp] theorem enterTxFatal_T (code : TxStatus) : (enterTxFatal code s).tx.T = s.tx.T := rfl
@[simp] theorem enterTxFatal_timerArmed (code : TxStatus) : (enterTxFatal code s).tx.timerArmed = false := rfl

@[simp] theorem enterRxFatal_tx : (enterRxFatal s).tx = s.tx := rfl
@[simp] theorem enterRxFatal_env : (enterRxFatal s).env = s.env := rfl
@[simp] theorem enterRxFatal_srcPort : (enterRxFatal s).rx.srcPort = s.rx.srcPort := rfl
@[simp] theorem enterRxFatal_dstPort : (enterRxFatal s).rx.dstPort = s.rx.dstPort := rfl
@[simp] theorem enterRxFatal_bit : (enterRxFatal s).rx.bit = s.rx.bit := rfl
@[simp] theorem enterRxFatal_buf : (enterRxFatal s).rx.buf = s.rx.buf := rfl
@[simp] theorem enterRxFatal_fileName : (enterRxFatal s).rx.fileName = s.rx.fileName := rfl
@[simp] theorem enterRxFatal_fileNameValid : (enterRxFatal s).rx.fileNameValid = s.rx.fileNameValid := rfl
@[simp] theorem enterRxFatal_lastAck : (enterRxFatal s).rx.lastAck = s.rx.lastAck := rfl
@[simp] theorem enterRxFatal_lastAckValid : (enterRxFatal s).rx.lastAckValid = s.rx.lastAckValid := rfl
@[simp] theorem enterRxFatal_cntOk : (enterRxFatal s).rx.cntOk = s.rx.cntOk := rfl
@[simp] theorem enterRxFatal_cntCorrupt : (enterRxFatal s).rx.cntCorrupt = s.rx.cntCorrupt := rfl
@[simp] theorem enterRxFatal_cntWrongBit : (enterRxFatal s).rx.cntWrongBit = s.rx.cntWrongBit := rfl
@[simp] theorem enterRxFatal_status : (enterRxFatal s).rx.status = .errChannel := rfl
@[simp] theorem enterRxFatal_timerArmed : (enterRxFatal s).rx.timerArmed = false := rfl

/-- Polling leaves both shells' registers alone. -/
@[simp] theorem pollTx_tx (ch : RecvChoice) (ok : Bool) : (pollTx ch ok s).tx = s.tx := by
  unfold pollTx; split <;> rfl

@[simp] theorem pollTx_rx (ch : RecvChoice) (ok : Bool) : (pollTx ch ok s).rx = s.rx := by
  unfold pollTx; split <;> rfl

@[simp] theorem pollRx_tx (ch : RecvChoice) (ok : Bool) : (pollRx ch ok s).tx = s.tx := rfl

@[simp] theorem pollRx_rx (ch : RecvChoice) (ok : Bool) : (pollRx ch ok s).rx = s.rx := rfl

@[simp] theorem pollTx_sendOk (ch : RecvChoice) (ok : Bool) : (pollTx ch ok s).env.txPort.sendOk = grantOk s.env.txEnd ok := by
  unfold pollTx; split <;> rfl

@[simp] theorem pollRx_sendOk (ch : RecvChoice) (ok : Bool) : (pollRx ch ok s).env.rxPort.sendOk = grantOk s.env.rxEnd ok := rfl

@[simp] theorem pollTx_recv_ack (ch : RecvChoice) (ok : Bool) (h : s.tx.phase = .ack) :
    (pollTx ch ok s).env.txPort.recv = txOutcome ch s := by
  unfold pollTx; rw [h]; rfl

@[simp] theorem pollRx_recv (ch : RecvChoice) (ok : Bool) : (pollRx ch ok s).env.rxPort.recv = rxOutcome ch s := rfl

@[simp] theorem pollTx_txEnd (ch : RecvChoice) (ok : Bool) : (pollTx ch ok s).env.txEnd = s.env.txEnd.called := by
  unfold pollTx; split <;> rfl

@[simp] theorem pollTx_rxEnd (ch : RecvChoice) (ok : Bool) : (pollTx ch ok s).env.rxEnd = s.env.rxEnd := by
  unfold pollTx; split <;> rfl

@[simp] theorem pollRx_rxEnd (ch : RecvChoice) (ok : Bool) : (pollRx ch ok s).env.rxEnd = s.env.rxEnd.called := rfl

@[simp] theorem pollRx_txEnd (ch : RecvChoice) (ok : Bool) : (pollRx ch ok s).env.txEnd = s.env.txEnd := rfl

@[simp] theorem txOutcome_setInputs (ch : RecvChoice) (l : List Input) : txOutcome ch (s.setInputs l) = txOutcome ch s := rfl
@[simp] theorem rxOutcome_setInputs (ch : RecvChoice) (l : List Input) : rxOutcome ch (s.setInputs l) = rxOutcome ch s := rfl

/-! The ends of the Channel. -/

@[simp] theorem State.onEnd_tx (e : ChannelEnd) (f : EndState → EndState) : (s.onEnd e f).tx = s.tx := by cases e <;> rfl
@[simp] theorem State.onEnd_rx (e : ChannelEnd) (f : EndState → EndState) : (s.onEnd e f).rx = s.rx := by cases e <;> rfl
@[simp] theorem State.onEnd_sender (f : EndState → EndState) :
    (s.onEnd .sender f).env = { s.env with txEnd := f s.env.txEnd } := rfl
@[simp] theorem State.onEnd_receiver (f : EndState → EndState) :
    (s.onEnd .receiver f).env = { s.env with rxEnd := f s.env.rxEnd } := rfl

/-- A closed end fails, and it still does after a reopening until a call has returned (R290, D38). -/
@[simp] theorem EndState.close_fails (e : EndState) : e.close.fails = true := rfl
@[simp] theorem EndState.reopen_close_fails (e : EndState) : e.close.reopen.fails = true := rfl
@[simp] theorem EndState.called_reopen_fails (e : EndState) : e.reopen.called.fails = false := rfl

/-- An end that does not fail grants what the environment chose. -/
@[simp] theorem grantRecv_open {e : EndState} (h : e.fails = false) (ch : RecvChoice) : grantRecv e ch = ch := by
  simp [grantRecv, h]

@[simp] theorem grantOk_open {e : EndState} (h : e.fails = false) (ok : Bool) : grantOk e ok = ok := by
  simp [grantOk, h]

/-- An end that fails grants Failure only (R290, D38). -/
@[simp] theorem grantRecv_fails {e : EndState} (h : e.fails = true) (ch : RecvChoice) : grantRecv e ch = .failure := by
  simp [grantRecv, h]

@[simp] theorem grantOk_fails {e : EndState} (h : e.fails = true) (ok : Bool) : grantOk e ok = false := by
  simp [grantOk, h]

/-! A datagram received. -/

@[simp] theorem receiveTx_tx (d : Datagram) : (receiveTx d s).tx = s.tx := rfl
@[simp] theorem receiveTx_rx (d : Datagram) : (receiveTx d s).rx = s.rx := rfl
@[simp] theorem receiveTx_inputs (d : Datagram) : (receiveTx d s).env.inputs = s.env.inputs := rfl
@[simp] theorem receiveTx_txPort (d : Datagram) : (receiveTx d s).env.txPort = ⟨.bytes d, s.env.txPort.sendOk⟩ := rfl
@[simp] theorem receiveTx_rxPort (d : Datagram) : (receiveTx d s).env.rxPort = s.env.rxPort := rfl
@[simp] theorem receiveTx_result (d : Datagram) : (receiveTx d s).env.result = s.env.result := rfl
@[simp] theorem receiveTx_toRx (d : Datagram) : (receiveTx d s).env.toRx = s.env.toRx := rfl
@[simp] theorem receiveTx_toTx (d : Datagram) : (receiveTx d s).env.toTx = s.env.toTx := rfl
@[simp] theorem receiveTx_sink (d : Datagram) : (receiveTx d s).env.sink = s.env.sink := rfl
@[simp] theorem receiveTx_injector (d : Datagram) : (receiveTx d s).env.injector = s.env.injector := rfl
@[simp] theorem receiveTx_txEnd (d : Datagram) : (receiveTx d s).env.txEnd = s.env.txEnd := rfl
@[simp] theorem receiveTx_rxEnd (d : Datagram) : (receiveTx d s).env.rxEnd = s.env.rxEnd := rfl
@[simp] theorem receiveRx_tx (d : Datagram) : (receiveRx d s).tx = s.tx := rfl
@[simp] theorem receiveRx_rx (d : Datagram) : (receiveRx d s).rx = s.rx := rfl
@[simp] theorem receiveRx_inputs (d : Datagram) : (receiveRx d s).env.inputs = s.env.inputs := rfl
@[simp] theorem receiveRx_txPort (d : Datagram) : (receiveRx d s).env.txPort = s.env.txPort := rfl
@[simp] theorem receiveRx_rxPort (d : Datagram) : (receiveRx d s).env.rxPort = ⟨.bytes d, s.env.rxPort.sendOk⟩ := rfl
@[simp] theorem receiveRx_result (d : Datagram) : (receiveRx d s).env.result = s.env.result := rfl
@[simp] theorem receiveRx_toRx (d : Datagram) : (receiveRx d s).env.toRx = s.env.toRx := rfl
@[simp] theorem receiveRx_toTx (d : Datagram) : (receiveRx d s).env.toTx = s.env.toTx := rfl
@[simp] theorem receiveRx_sink (d : Datagram) : (receiveRx d s).env.sink = s.env.sink := rfl
@[simp] theorem receiveRx_injector (d : Datagram) : (receiveRx d s).env.injector = s.env.injector := rfl
@[simp] theorem receiveRx_txEnd (d : Datagram) : (receiveRx d s).env.txEnd = s.env.txEnd := rfl
@[simp] theorem receiveRx_rxEnd (d : Datagram) : (receiveRx d s).env.rxEnd = s.env.rxEnd := rfl

end Updates

end Sys2Proof.Machine
end

