-- ==== Sys2Proof/Laws/Ops.lean ====
section
/-!
SUPPORT. One lemma per shared operation that says once everything it can do, and the inversion of exec and step over them:
what a step can do to the sender's registers and to the receiver's.
-/

namespace Sys2Proof.Machine
set_option Elab.async false

/-! The event rows. -/

/-- A row of the sender is a step exactly where it is selected (R111, R228). -/
theorem onTxRow_next {row : TxRow} {body : State → StepResult} {s t : State} :
    onTxRow row body s = .next t ↔ (s.tx.status = .running ∧ txSelect s = row) ∧ body s = .next t := by
  unfold onTxRow; split <;> simp_all

/-- A row of the receiver is a step exactly where it is selected (R112, R254). -/
theorem onRxRow_next {row : RxRow} {body : State → StepResult} {s t : State} :
    onRxRow row body s = .next t ↔ (s.rx.status = .running ∧ rxSelect s = row) ∧ body s = .next t := by
  unfold onRxRow; split <;> simp_all

/-- The sender's classification without its vector (R111). -/
theorem txSelect_eq (s : State) :
    txSelect s =
      match s.tx.phase with
      | .call => .send
      | .ack =>
        match s.env.txPort.recv with
        | .failure => .channelFailure
        | .timeout => .timeout
        | .bytes d =>
          if (decAck block d).frameOk = false then .ackBadCorrupt
          else if (decAck block d).bit = some s.tx.bit then .ackOk
          else .ackBadWrongBit := by
  unfold txSelect txVector
  cases s.tx.phase with
  | call => dsimp only; decide
  | ack =>
    cases s.env.txPort.recv with
    | failure => dsimp only; decide
    | timeout => dsimp only; decide
    | bytes d =>
      dsimp only
      by_cases hf : (decAck block d).frameOk = false
      · rw [if_pos hf, if_pos hf]; decide
      · rw [if_neg hf, if_neg hf]
        by_cases hb : (decAck block d).bit = some s.tx.bit
        · rw [if_pos hb, if_pos hb]; decide
        · rw [if_neg hb, if_neg hb]; decide

/-- The receiver's classification without its vector (R112, R254). -/
theorem rxSelect_eq (s : State) :
    rxSelect s =
      match s.env.rxPort.recv with
      | .failure => .channelFailure
      | .timeout => .idleTimeout
      | .bytes d =>
        if allZero d then .zeroDatagram
        else if (decData block d).frameOk = false then .packetCorrupt
        else if (decData block d).bit ≠ some s.rx.bit then .packetWrongBit
        else if (decData block d).isLast then .packetOkLast
        else .packetOkMore := by
  have hs (d : Datagram) : shortFirst block (decData block d) s = false := rfl
  unfold rxSelect rxVector
  cases s.env.rxPort.recv with
  | failure => dsimp only; decide
  | timeout => dsimp only; decide
  | bytes d =>
    simp only [hs, Bool.false_eq_true, or_false]
    by_cases hz : allZero d = true
    · rw [if_pos hz, if_pos hz]; decide
    · rw [if_neg hz, if_neg hz]
      by_cases hf : (decData block d).frameOk = false
      · rw [if_pos hf, if_pos hf]; decide
      · rw [if_neg hf, if_neg hf]
        by_cases hb : (decData block d).bit ≠ some s.rx.bit
        · rw [if_pos hb, if_pos hb]; decide
        · rw [if_neg hb, if_neg hb]
          by_cases hl : (decData block d).isLast = true
          · rw [if_pos hl, if_pos hl]; decide
          · rw [if_neg hl, if_neg hl]; decide

/-! The sender's actions. -/

/-- In the block SEND is never refused by the encoder (R227). -/
theorem nextFrame_block (t : TxRegs) :
    nextFrame block t = .ok (packData block t.srcPort.toNat t.dstPort.toNat t.bit
      (chunkFlag block t.T.length t.bytesProcessed) (chunkPayload block t.T t.bytesProcessed)) :=
  nextFrame_fits block _ _ _ _ _ _ (by decide)

/-- SEND, both ways its send can end (R218, R226). -/
theorem sendChunk_cases (s : State) :
    ∃ F, nextFrame block s.tx = .ok F ∧
      ((s.env.txPort.sendOk = true ∧
          sendChunk block s = (transmit .toRx F s).setTx { s.tx with pending := F, timerArmed := true, phase := .ack }) ∨
        (s.env.txPort.sendOk = false ∧
          sendChunk block s = s.setTx { s.tx with pending := F, status := .errChannel, timerArmed := false })) := by
  refine ⟨_, nextFrame_block s.tx, ?_⟩
  unfold sendChunk
  rw [nextFrame_block]
  cases h : s.env.txPort.sendOk
  · exact .inr ⟨rfl, by simp [enterTxFatal, State.setTx]⟩
  · exact .inl ⟨rfl, by simp⟩

/-- A retransmission, both ways its send can end (R222, R224, R226). -/
theorem retransmit_cases (s : State) :
    (s.env.txPort.sendOk = true ∧
        retransmit s = (transmit .toRx s.tx.pending s).setTx
          { s.tx with retryCount := s.tx.retryCount + 1, timerArmed := true }) ∨
      (s.env.txPort.sendOk = false ∧ retransmit s = enterTxFatal .errChannel s) := by
  unfold retransmit
  cases h : s.env.txPort.sendOk
  · exact .inr ⟨rfl, by simp⟩
  · exact .inl ⟨rfl, by simp⟩

/-- ACK_OK on a pending frame (R220, R221). -/
theorem acceptAck_next {s t : State} :
    acceptAck s = .next t ↔ 12 ≤ s.tx.pending.length ∧
      t = s.setTx { s.tx with
        bytesProcessed := s.tx.bytesProcessed + (s.tx.pending.length - 12)
        bit := 1 - s.tx.bit
        phase := .call
        timerArmed := false
        status := if byteAt s.tx.pending 5 = 0x02 then .done else s.tx.status } := by
  unfold acceptAck Config.headerSize
  split
  · simp; omega
  · simp only [Host.Outcome.next.injEq, eq_comm (b := t)]
    constructor
    · exact fun h => ⟨by omega, h⟩
    · exact fun h => h.2

/-- What a row's action does to the sender's registers: the receiver's registers are not its business. -/
theorem txAction_rx {row : TxRow} {s t : State} (h : txAction block row s = .next t) : t.rx = s.rx := by
  cases row <;> simp only [txAction, Host.Outcome.next.injEq] at h
  · subst h
    obtain ⟨F, -, ⟨-, h⟩ | ⟨-, h⟩⟩ := sendChunk_cases s <;> simp [h]
  · subst h; rfl
  · subst h; rcases retransmit_cases s with ⟨-, h⟩ | ⟨-, h⟩ <;> simp [h]
  · subst h; rcases retransmit_cases s with ⟨-, h⟩ | ⟨-, h⟩ <;> simp [h]
  · subst h; rcases retransmit_cases s with ⟨-, h⟩ | ⟨-, h⟩ <;> simp [h]
  · rw [acceptAck_next] at h; rw [h.2]; rfl

/-- A datagram at the sender (R111, R228, R291). -/
theorem arriveAtTx_cases (d : Datagram) (s : State) :
    ((s.tx.status = .running ∧ s.tx.phase = .ack ∧ s.env.txEnd.fails = false) ∧
        arriveAtTx d s = txAction block (txSelect (receiveTx d s)) (receiveTx d s)) ∨
      (¬(s.tx.status = .running ∧ s.tx.phase = .ack ∧ s.env.txEnd.fails = false) ∧
        arriveAtTx d s = .next (transmit .toTx d s)) := by
  unfold arriveAtTx
  split
  · exact .inl ⟨‹_›, rfl⟩
  · exact .inr ⟨‹_›, rfl⟩

/-! The receiver's actions. -/

/-- PACKET_OK, both ways its send can end (R258, R266, R268). -/
theorem acceptPacket_cases (d : Datagram) (s : State) :
    (s.env.rxPort.sendOk = true ∧ (decData block d).isLast = false ∧
        acceptPacket block d s = (transmit .toTx (ackNow block s.rx) s).setRx
          (recordAck (ackNow block s.rx) (takePayload block (decData block d).payload s.rx))) ∨
      (s.env.rxPort.sendOk = true ∧ (decData block d).isLast = true ∧
        acceptPacket block d s = handOver block ((transmit .toTx (ackNow block s.rx) s).setRx
          (recordAck (ackNow block s.rx) (takePayload block (decData block d).payload s.rx)))) ∨
      (s.env.rxPort.sendOk = false ∧
        acceptPacket block d s = enterRxFatal (s.setRx (takePayload block (decData block d).payload s.rx))) := by
  unfold acceptPacket
  cases hs : s.env.rxPort.sendOk
  · exact .inr (.inr ⟨rfl, by simp⟩)
  · cases hl : (decData block d).isLast
    · exact .inl ⟨rfl, rfl, by simp⟩
    · exact .inr (.inl ⟨rfl, rfl, by simp⟩)

/-- PACKET_WRONG_BIT: no last ack, resent, or the send fails (R262, R263, R266). -/
theorem resendAck_cases (s : State) :
    (s.rx.lastAckValid = false ∧ resendAck s = s.setRx { s.rx with cntWrongBit := s.rx.cntWrongBit + 1 }) ∨
      (s.rx.lastAckValid = true ∧ s.env.rxPort.sendOk = true ∧
        resendAck s = transmit .toTx s.rx.lastAck (s.setRx { s.rx with cntWrongBit := s.rx.cntWrongBit + 1 })) ∨
      (s.rx.lastAckValid = true ∧ s.env.rxPort.sendOk = false ∧
        resendAck s = enterRxFatal (s.setRx { s.rx with cntWrongBit := s.rx.cntWrongBit + 1 })) := by
  unfold resendAck
  cases hv : s.rx.lastAckValid
  · exact .inl ⟨rfl, by simp⟩
  · cases hs : s.env.rxPort.sendOk
    · exact .inr (.inr ⟨rfl, rfl, by simp⟩)
    · exact .inr (.inl ⟨rfl, rfl, by simp⟩)

/-- A row of the receiver always answers a next state. -/
theorem rxAction_total (row : RxRow) (s : State) : ∃ t, rxAction block row s = .next t := by
  cases row <;> exact ⟨_, rfl⟩

/-- What a row's action does to the receiver's registers: the sender's registers are not its business. -/
theorem rxAction_tx {row : RxRow} {s t : State} (h : rxAction block row s = .next t) : t.tx = s.tx := by
  have accept (d : Datagram) : (acceptPacket block d s).tx = s.tx := by
    rcases acceptPacket_cases d s with ⟨-, -, h⟩ | ⟨-, -, h⟩ | ⟨-, h⟩ <;> simp [h, handOver]
  cases row <;> simp only [rxAction, Host.Outcome.next.injEq] at h <;> subst h
  · rfl
  · rfl
  · rfl
  · rfl
  · rcases resendAck_cases s with ⟨-, h⟩ | ⟨-, -, h⟩ | ⟨-, -, h⟩ <;> simp [h]
  · exact accept _
  · exact accept _

/-- A datagram at the receiver (R254, R291). -/
theorem arriveAtRx_cases (d : Datagram) (s : State) :
    ((s.rx.status = .running ∧ s.env.rxEnd.fails = false) ∧
        arriveAtRx d s = rxAction block (rxSelect (receiveRx d s)) (receiveRx d s)) ∨
      (¬(s.rx.status = .running ∧ s.env.rxEnd.fails = false) ∧ arriveAtRx d s = .next (transmit .toRx d s)) := by
  unfold arriveAtRx
  split
  · exact .inl ⟨‹_›, rfl⟩
  · exact .inr ⟨‹_›, rfl⟩

/-! Inversion of exec. -/

/-- What a step can do to the sender's registers. -/
inductive TxChange (i : Instr) (s t : State) : Prop where
  | same (h : t.tx = s.tx)
  | reset (hi : i = .hwReset) (h : t.tx = TxRegs.reset)
  | configure (src dst : Nat) (hi : i = .cfgTx src dst) (hs : s.tx.status ≠ .running)
      (h : t.tx = { s.tx with srcPort := low16 src, dstPort := low16 dst })
  | start (name file : Bytes) (hi : i = .txStart name file) (hs : s.tx.status ≠ .running) (hn : name.length ≤ 20)
      (h : t.tx = (startTx block name file s).tx)
  | refuseName (name file : Bytes) (hi : i = .txStart name file) (hs : s.tx.status ≠ .running) (hn : 20 < name.length)
      (h : t.tx = { s.tx with status := .errName })
  | row (row : TxRow) (u : State) (hu : u.tx = s.tx) (hr : s.tx.status = .running) (hsel : txSelect u = row)
      (h : txAction block row u = .next t) (hi : i = row.instr ∨ ∃ f, i = .ack f ∧ s.tx.phase = .ack)

/-- What a step can do to the receiver's registers. -/
inductive RxChange (i : Instr) (s t : State) : Prop where
  | same (h : t.rx = s.rx)
  | reset (hi : i = .hwReset) (h : t.rx = RxRegs.reset)
  | configure (src dst : Nat) (hi : i = .cfgRx src dst) (hs : s.rx.status ≠ .running)
      (h : t.rx = { s.rx with srcPort := low16 src, dstPort := low16 dst })
  | restart (hi : i = .rxRestart) (hs : s.rx.status ≠ .running) (h : t.rx = (startRx block s).rx)
  | row (row : RxRow) (u : State) (hu : u.rx = s.rx) (hr : s.rx.status = .running) (hsel : rxSelect u = row)
      (h : rxAction block row u = .next t)
      (hi : i = row.instr ∨ ∃ f, i = .dataNone f ∨ i = .dataMore f ∨ i = .dataLast f)

/-- A selected row of the sender runs its action. -/
theorem exec_txRow {row : TxRow} {s : State} (hr : s.tx.status = .running) (hsel : txSelect s = row) :
    exec row.instr s = txAction block row s := by
  cases row <;> simp only [exec, TxRow.instr, execTxSend, execTxChannelFailure, execTxTimeout, execTxAckBadCorrupt,
    execTxAckBadWrongBit, execTxAckOk, onTxRow, if_pos (And.intro hr hsel)]

/-- A selected row of the receiver runs its action. -/
theorem exec_rxRow {row : RxRow} {s : State} (hr : s.rx.status = .running) (hsel : rxSelect s = row) :
    exec row.instr s = rxAction block row s := by
  cases row <;> simp only [exec, RxRow.instr, execRxChannelFailure, execRxIdleTimeout, execRxZeroDatagram,
    execRxPacketCorrupt, execRxPacketWrongBit, execRxPacketOkMore, execRxPacketOkLast, onRxRow,
    if_pos (And.intro hr hsel)]

/-- An event row of the sender, by inversion. -/
theorem onTxRow_change {row : TxRow} {s t : State} (h : onTxRow row (txAction block row) s = .next t) :
    TxChange row.instr s t ∧ t.rx = s.rx := by
  rw [onTxRow_next] at h
  exact ⟨.row row s rfl h.1.1 h.1.2 h.2 (.inl rfl), txAction_rx h.2⟩

/-- An event row of the receiver, by inversion. -/
theorem onRxRow_change {row : RxRow} {s t : State} (h : onRxRow row (rxAction block row) s = .next t) :
    RxChange row.instr s t ∧ t.tx = s.tx := by
  rw [onRxRow_next] at h
  exact ⟨.row row s rfl h.1.1 h.1.2 h.2 (.inl rfl), rxAction_tx h.2⟩

/-- A datagram at the receiver, by inversion. -/
theorem arriveAtRx_change {i : Instr} {d : Datagram} {s t : State} (h : arriveAtRx d s = .next t)
    (hi : ∃ f, i = .dataNone f ∨ i = .dataMore f ∨ i = .dataLast f) : RxChange i s t ∧ t.tx = s.tx := by
  rcases arriveAtRx_cases d s with ⟨hr, ha⟩ | ⟨-, ha⟩ <;> rw [ha] at h
  · exact ⟨.row _ (receiveRx d s) rfl hr.1 rfl h (.inr hi), (rxAction_tx h).trans rfl⟩
  · cases h; exact ⟨.same (by simp), by simp⟩

/-- A datagram at the sender, by inversion. -/
theorem arriveAtTx_change {f : AckFields} {d : Datagram} {s t : State} (h : arriveAtTx d s = .next t) :
    TxChange (.ack f) s t ∧ t.rx = s.rx := by
  rcases arriveAtTx_cases d s with ⟨hr, ha⟩ | ⟨-, ha⟩ <;> rw [ha] at h
  · exact ⟨.row _ (receiveTx d s) rfl hr.1 rfl h (.inr ⟨f, rfl, hr.2.1⟩), (txAction_rx h).trans rfl⟩
  · cases h; exact ⟨.same (by simp), by simp⟩

/-- Everything an instruction can do to the two shells' registers. -/
theorem exec_change {i : Instr} {s t : State} (h : exec i s = .next t) : TxChange i s t ∧ RxChange i s t := by
  have onlyTx {i} (h : TxChange i s t ∧ t.rx = s.rx) : TxChange i s t ∧ RxChange i s t := ⟨h.1, .same h.2⟩
  have onlyRx {i} (h : RxChange i s t ∧ t.tx = s.tx) : TxChange i s t ∧ RxChange i s t := ⟨.same h.2, h.1⟩
  have neither {i} {r : OpResult} (h : Host.Outcome.next (s.answer r) = (.next t : StepResult)) :
      TxChange i s t ∧ RxChange i s t := by cases h; exact ⟨.same rfl, .same rfl⟩
  cases i with
  | dataNone f => exact onlyRx (arriveAtRx_change h ⟨f, .inl rfl⟩)
  | dataMore f => exact onlyRx (arriveAtRx_change h ⟨f, .inr (.inl rfl)⟩)
  | dataLast f => exact onlyRx (arriveAtRx_change h ⟨f, .inr (.inr rfl)⟩)
  | ack f => exact onlyTx (arriveAtTx_change h)
  | crc32 b => exact neither h
  | crc32Verify b e => exact neither h
  | encData a b c d e =>
    simp only [exec, execEncData] at h
    split at h <;> exact neither h
  | decData d => exact neither h
  | encAck a b c => exact neither h
  | decAck d => exact neither h
  | txStart name file =>
    simp only [exec, execTxStart] at h
    split at h
    · exact neither h
    · split at h <;> cases h
      · exact onlyTx ⟨.refuseName name file rfl ‹_› ‹_› rfl, rfl⟩
      · exact onlyTx ⟨.start name file rfl ‹_› (Nat.le_of_not_lt ‹_›) rfl, rfl⟩
  | rxRestart =>
    simp only [exec, execRxRestart] at h
    split at h
    · exact neither h
    · cases h; exact onlyRx ⟨.restart rfl ‹_› rfl, rfl⟩
  | cfgTx a b =>
    simp only [exec, execCfgTx] at h
    split at h
    · exact neither h
    · cases h; exact onlyTx ⟨.configure a b rfl ‹_› rfl, rfl⟩
  | cfgRx a b =>
    simp only [exec, execCfgRx] at h
    split at h
    · exact neither h
    · cases h; exact onlyRx ⟨.configure a b rfl ‹_› rfl, rfl⟩
  | hwReset => cases h; exact ⟨.reset rfl rfl, .reset rfl rfl⟩
  | txSend => exact onlyTx (onTxRow_change h)
  | txChannelFailure => exact onlyTx (onTxRow_change h)
  | txTimeout => exact onlyTx (onTxRow_change h)
  | txAckBadCorrupt => exact onlyTx (onTxRow_change h)
  | txAckBadWrongBit => exact onlyTx (onTxRow_change h)
  | txAckOk => exact onlyTx (onTxRow_change h)
  | rxChannelFailure => exact onlyRx (onRxRow_change h)
  | rxIdleTimeout => exact onlyRx (onRxRow_change h)
  | rxZeroDatagram => exact onlyRx (onRxRow_change h)
  | rxPacketCorrupt => exact onlyRx (onRxRow_change h)
  | rxPacketWrongBit => exact onlyRx (onRxRow_change h)
  | rxPacketOkMore => exact onlyRx (onRxRow_change h)
  | rxPacketOkLast => exact onlyRx (onRxRow_change h)

/-! No instruction touches the ends of the Channel. -/

/-- A row of the sender leaves both ends alone. -/
theorem txAction_ends {row : TxRow} {s t : State} (h : txAction block row s = .next t) :
    t.env.txEnd = s.env.txEnd ∧ t.env.rxEnd = s.env.rxEnd := by
  have resend : (retransmit s).env.txEnd = s.env.txEnd ∧ (retransmit s).env.rxEnd = s.env.rxEnd := by
    rcases retransmit_cases s with ⟨-, h⟩ | ⟨-, h⟩ <;> simp [h]
  cases row <;> simp only [txAction, Host.Outcome.next.injEq] at h
  · subst h
    obtain ⟨F, -, ⟨-, h⟩ | ⟨-, h⟩⟩ := sendChunk_cases s <;> simp [h]
  · subst h; exact ⟨rfl, rfl⟩
  · subst h; exact resend
  · subst h; exact resend
  · subst h; exact resend
  · rw [acceptAck_next] at h; rw [h.2]; exact ⟨rfl, rfl⟩

/-- A row of the receiver leaves both ends alone. -/
theorem rxAction_ends {row : RxRow} {s t : State} (h : rxAction block row s = .next t) :
    t.env.txEnd = s.env.txEnd ∧ t.env.rxEnd = s.env.rxEnd := by
  have accept (d : Datagram) : (acceptPacket block d s).env.txEnd = s.env.txEnd ∧
      (acceptPacket block d s).env.rxEnd = s.env.rxEnd := by
    rcases acceptPacket_cases d s with ⟨-, -, h⟩ | ⟨-, -, h⟩ | ⟨-, h⟩ <;> simp [h, handOver]
  cases row <;> simp only [rxAction, Host.Outcome.next.injEq] at h <;> subst h
  · exact ⟨rfl, rfl⟩
  · exact ⟨rfl, rfl⟩
  · exact ⟨rfl, rfl⟩
  · exact ⟨rfl, rfl⟩
  · rcases resendAck_cases s with ⟨-, h⟩ | ⟨-, -, h⟩ | ⟨-, -, h⟩ <;> simp [h]
  · exact accept _
  · exact accept _

theorem arriveAtRx_ends {d : Datagram} {s t : State} (h : arriveAtRx d s = .next t) :
    t.env.txEnd = s.env.txEnd ∧ t.env.rxEnd = s.env.rxEnd := by
  rcases arriveAtRx_cases d s with ⟨-, ha⟩ | ⟨-, ha⟩ <;> rw [ha] at h
  · exact rxAction_ends (s := receiveRx d s) h
  · cases h; exact ⟨rfl, rfl⟩

theorem arriveAtTx_ends {d : Datagram} {s t : State} (h : arriveAtTx d s = .next t) :
    t.env.txEnd = s.env.txEnd ∧ t.env.rxEnd = s.env.rxEnd := by
  rcases arriveAtTx_cases d s with ⟨-, ha⟩ | ⟨-, ha⟩ <;> rw [ha] at h
  · exact txAction_ends (s := receiveTx d s) h
  · cases h; exact ⟨rfl, rfl⟩

/-- No instruction touches the ends of the Channel: only the turns, a close and a reopening do. -/
theorem exec_ends {i : Instr} {s t : State} (h : exec i s = .next t) :
    t.env.txEnd = s.env.txEnd ∧ t.env.rxEnd = s.env.rxEnd := by
  have tx {row : TxRow} (h : onTxRow row (txAction block row) s = .next t) := txAction_ends (onTxRow_next.1 h).2
  have rx {row : RxRow} (h : onRxRow row (rxAction block row) s = .next t) := rxAction_ends (onRxRow_next.1 h).2
  cases i with
  | dataNone f => exact arriveAtRx_ends h
  | dataMore f => exact arriveAtRx_ends h
  | dataLast f => exact arriveAtRx_ends h
  | ack f => exact arriveAtTx_ends h
  | crc32 b => cases h; exact ⟨rfl, rfl⟩
  | crc32Verify b e => cases h; exact ⟨rfl, rfl⟩
  | encData a b c d e => simp only [exec, execEncData] at h; split at h <;> (cases h; exact ⟨rfl, rfl⟩)
  | decData d => cases h; exact ⟨rfl, rfl⟩
  | encAck a b c => cases h; exact ⟨rfl, rfl⟩
  | decAck d => cases h; exact ⟨rfl, rfl⟩
  | txStart name file =>
    simp only [exec, execTxStart] at h
    split at h
    · cases h; exact ⟨rfl, rfl⟩
    · split at h <;> (cases h; exact ⟨rfl, rfl⟩)
  | rxRestart => simp only [exec, execRxRestart] at h; split at h <;> (cases h; exact ⟨rfl, rfl⟩)
  | cfgTx a b => simp only [exec, execCfgTx] at h; split at h <;> (cases h; exact ⟨rfl, rfl⟩)
  | cfgRx a b => simp only [exec, execCfgRx] at h; split at h <;> (cases h; exact ⟨rfl, rfl⟩)
  | hwReset => cases h; exact ⟨rfl, rfl⟩
  | txSend => exact tx h
  | txChannelFailure => exact tx h
  | txTimeout => exact tx h
  | txAckBadCorrupt => exact tx h
  | txAckBadWrongBit => exact tx h
  | txAckOk => exact tx h
  | rxChannelFailure => exact rx h
  | rxIdleTimeout => exact rx h
  | rxZeroDatagram => exact rx h
  | rxPacketCorrupt => exact rx h
  | rxPacketWrongBit => exact rx h
  | rxPacketOkMore => exact rx h
  | rxPacketOkLast => exact rx h

/-! Inversion of step. -/

/-- Channel moves leave the shells alone. -/
theorem channelMove_regs (c : Config) (m : ChannelMove) (s : State) :
    (channelMove c m s).tx = s.tx ∧ (channelMove c m s).rx = s.rx := by
  cases m with
  | insert dir d => cases dir <;> exact ⟨rfl, rfl⟩
  | lose dir d => cases dir <;> exact ⟨rfl, rfl⟩
  | duplicate dir d => cases dir <;> exact ⟨rfl, rfl⟩
  | inject dir d => cases dir <;> exact ⟨rfl, rfl⟩
  | setInjector a b c => exact ⟨rfl, rfl⟩

@[simp] theorem guardedSeen_valid (n : Nat) (B : Bytes) : guardedSeen true n B = .bytes B := rfl

/-- Behind a false valid bit a read is the error, with the width's number of bytes. -/
theorem guardedSeen_invalid (n : Nat) (B : Bytes) : ∃ B', guardedSeen false n B = .unspecified B' ∧ B'.length = n :=
  ⟨_, rfl, by simp⟩

/-- A register read leaves the shells alone. -/
theorem readRegister_regs {r : RegName} {s t : State} (h : readRegister r s = .next t) : t.tx = s.tx ∧ t.rx = s.rx := by
  cases h; exact ⟨rfl, rfl⟩

@[simp] theorem grantSend_tx (dir : Direction) (ok : Bool) (s : State) : (grantSend dir ok s).tx = s.tx := by
  cases dir <;> rfl

@[simp] theorem grantSend_rx (dir : Direction) (ok : Bool) (s : State) : (grantSend dir ok s).rx = s.rx := by
  cases dir <;> rfl

/-- A step with an input is that input fetched, in the state without it. -/
theorem step_cons {s : State} {x : Input} {rest : List Input} (h : s.env.inputs = x :: rest) :
    step s = match fetch x (s.setInputs rest) with
      | .run i t => exec i t
      | .other r => r := by
  unfold step; rw [h] <;> rfl

/-- A turn of the sender. -/
theorem step_txTurn {s : State} {ch : RecvChoice} {ok : Bool} {rest : List Input} (h : s.env.inputs = .txTurn ch ok :: rest) :
    step s = if s.tx.status = .running then
        exec (txSelect (pollTx ch ok (s.setInputs rest))).instr (pollTx ch ok (s.setInputs rest))
      else .next (s.setInputs rest) := by
  rw [step_cons h]
  by_cases hs : s.tx.status = .running <;> simp only [fetch, State.setInputs_tx, hs, if_true, if_false]

/-- A turn of the receiver. -/
theorem step_rxTurn {s : State} {ch : RecvChoice} {ok : Bool} {rest : List Input} (h : s.env.inputs = .rxTurn ch ok :: rest) :
    step s = if s.rx.status = .running then
        exec (rxSelect (pollRx ch ok (s.setInputs rest))).instr (pollRx ch ok (s.setInputs rest))
      else .next (s.setInputs rest) := by
  rw [step_cons h]
  by_cases hs : s.rx.status = .running <;> simp only [fetch, State.setInputs_rx, hs, if_true, if_false]

/-- A step that answers a next state leaves both shells' registers alone, or ran an instruction in a state with the same
registers, or gave a datagram that is no frame to its shell. -/
theorem step_cases {s t : State} (h : step s = .next t) :
    (t.tx = s.tx ∧ t.rx = s.rx) ∨
      (∃ i u, Runs s i u ∧ u.tx = s.tx ∧ u.rx = s.rx ∧ exec i u = .next t) ∨
      (∃ d ok rest e, s.env.inputs = .arrive .toRx d ok :: rest ∧ decodeDataFrame d = .error e ∧
        arriveAtRx d (grantSend .toRx ok (s.setInputs rest)) = .next t) ∨
      (∃ d ok rest e, s.env.inputs = .arrive .toTx d ok :: rest ∧ decodeAckFrame d = .error e ∧
        arriveAtTx d (grantSend .toTx ok (s.setInputs rest)) = .next t) := by
  cases hin : s.env.inputs with
  | nil => unfold step at h; rw [hin] at h; cases h; exact .inl ⟨rfl, rfl⟩
  | cons x rest =>
    rw [step_cons hin] at h
    have runs (i : Instr) (u : State) (hf : fetch x (s.setInputs rest) = .run i u) (ht : u.tx = s.tx) (hr : u.rx = s.rx) :
        ∃ i u, Runs s i u ∧ u.tx = s.tx ∧ u.rx = s.rx ∧ exec i u = .next t :=
      ⟨i, u, ⟨x, rest, hin, hf⟩, ht, hr, by rw [hf] at h; exact h⟩
    cases x with
    | host code o =>
      cases hd : decodeOp code o with
      | ok i => exact .inr (.inl (runs i (s.setInputs rest) (by simp only [fetch, hd]) rfl rfl))
      | error e => simp only [fetch, hd] at h; cases h
    | read r =>
      have h : readRegister r (s.setInputs rest) = .next t := h
      exact .inl ⟨(readRegister_regs h).1.trans rfl, (readRegister_regs h).2.trans rfl⟩
    | txTurn ch ok =>
      by_cases hs : (s.setInputs rest).tx.status = .running
      · exact .inr (.inl (runs (txSelect (pollTx ch ok (s.setInputs rest))).instr (pollTx ch ok (s.setInputs rest))
          (by simp only [fetch, if_pos hs]) (by simp) (by simp)))
      · simp only [fetch, if_neg hs] at h; cases h; exact .inl ⟨rfl, rfl⟩
    | rxTurn ch ok =>
      by_cases hs : (s.setInputs rest).rx.status = .running
      · exact .inr (.inl (runs (rxSelect (pollRx ch ok (s.setInputs rest))).instr (pollRx ch ok (s.setInputs rest))
          (by simp only [fetch, if_pos hs]) (by simp) (by simp)))
      · simp only [fetch, if_neg hs] at h; cases h; exact .inl ⟨rfl, rfl⟩
    | arrive dir d ok =>
      cases dir with
      | toRx =>
        cases hd : decodeDataFrame d with
        | ok i => exact .inr (.inl (runs i (grantSend .toRx ok (s.setInputs rest)) (by simp only [fetch, hd]) (by simp) (by simp)))
        | error e => simp only [fetch, hd] at h; exact .inr (.inr (.inl ⟨d, ok, rest, e, rfl, hd, h⟩))
      | toTx =>
        cases hd : decodeAckFrame d with
        | ok i => exact .inr (.inl (runs i (grantSend .toTx ok (s.setInputs rest)) (by simp only [fetch, hd]) (by simp) (by simp)))
        | error e => simp only [fetch, hd] at h; exact .inr (.inr (.inr ⟨d, ok, rest, e, rfl, hd, h⟩))
    | channel m => cases h; exact .inl (channelMove_regs block m _)
    | close e => cases h; exact .inl ⟨by simp, by simp⟩
    | reopen e => cases h; exact .inl ⟨by simp, by simp⟩

/-- Where the end fails, a receive returns Failure (R290, D38). -/
theorem txOutcome_fails {s : State} (ch : RecvChoice) (h : s.env.txEnd.fails = true) : txOutcome ch s = .failure := by
  simp [txOutcome, h, resolve]

theorem rxOutcome_fails {s : State} (ch : RecvChoice) (h : s.env.rxEnd.fails = true) : rxOutcome ch s = .failure := by
  simp [rxOutcome, h, resolve]

end Sys2Proof.Machine
end

