-- ==== Sys2Proof/Laws/PerInstr.lean ====
section
/-!
SUPPORT. Statements made per instruction. The family TableRow says that what the encoder writes for an instruction fits the
mask and match of the instruction's row of spec/opcode_table.json; a frame's 96 or 72 bits are compared byte by byte, bit 95
(71) being bit 7 of byte 0 (R99, R102).
-/

namespace Sys2Proof.Laws.TableRow
set_option Elab.async false

open Sys2Proof

/-- The mask and match of a row. -/
inductive Pattern where
  | op (mask value : BitVec 4)
  | tx (mask value : BitVec 5)
  | rx (mask value : BitVec 6)
  | data (mask value : Bytes)
  | ack (mask value : Bytes)
  deriving DecidableEq, Repr

/-- The row of an instruction in spec/opcode_table.json. -/
def pattern : Instr → Pattern
  | .dataNone _ => .data [0, 0, 0, 0, 0xFE, 0xFF, 0, 0, 0, 0, 0, 0] [0, 0, 0, 0, 0, 0, 0, 0, 0, 0, 0, 0]
  | .dataMore _ => .data [0, 0, 0, 0, 0xFE, 0xFF, 0, 0, 0, 0, 0, 0] [0, 0, 0, 0, 0, 1, 0, 0, 0, 0, 0, 0]
  | .dataLast _ => .data [0, 0, 0, 0, 0xFE, 0xFF, 0, 0, 0, 0, 0, 0] [0, 0, 0, 0, 0, 2, 0, 0, 0, 0, 0, 0]
  | .ack _ => .ack [0, 0, 0, 0, 0xFE, 0, 0, 0, 0] [0, 0, 0, 0, 0, 0, 0, 0, 0]
  | .crc32 _ => .op 0xF 0x1
  | .crc32Verify _ _ => .op 0xF 0x2
  | .encData _ _ _ _ _ => .op 0xF 0x3
  | .decData _ => .op 0xF 0x4
  | .encAck _ _ _ => .op 0xF 0x5
  | .decAck _ => .op 0xF 0x6
  | .txStart _ _ => .op 0xF 0x8
  | .rxRestart => .op 0xF 0x9
  | .cfgTx _ _ => .op 0xF 0xA
  | .cfgRx _ _ => .op 0xF 0xB
  | .hwReset => .op 0xF 0xF
  | .txSend => .tx 0x10 0x10
  | .txChannelFailure => .tx 0x18 0x08
  | .txTimeout => .tx 0x1C 0x04
  | .txAckBadCorrupt => .tx 0x1E 0x00
  | .txAckBadWrongBit => .tx 0x1F 0x02
  | .txAckOk => .tx 0x1F 0x03
  | .rxChannelFailure => .rx 0x20 0x20
  | .rxIdleTimeout => .rx 0x30 0x10
  | .rxZeroDatagram => .rx 0x38 0x08
  | .rxPacketCorrupt => .rx 0x3C 0x00
  | .rxPacketWrongBit => .rx 0x3E 0x04
  | .rxPacketOkMore => .rx 0x3F 0x06
  | .rxPacketOkLast => .rx 0x3F 0x07

/-- The bytes under the mask are those of the match. -/
def fits (d mask value : Bytes) : Prop := List.zipWith (· &&& ·) (d.take mask.length) mask = value

/-- What is presented at the boundary fits a row. -/
def Fits : Encoded → Pattern → Prop
  | .op code _, .op mask value => code &&& mask = value
  | .txVector v, .tx mask value => v &&& mask = value
  | .rxVector v, .rx mask value => v &&& mask = value
  | .dataFrame d, .data mask value => fits d mask value
  | .ackFrame d, .ack mask value => fits d mask value
  | _, _ => False

def Statement (i : Instr) : Prop := Fits (encode i) (pattern i)

theorem altByte_masked (b : Bit) : Machine.altByteOf b &&& 254#8 = 0#8 := by
  revert b; decide

theorem dataNone (f : DataFields) : Statement (.dataNone f) := by
  simp [Statement, Fits, fits, encode, pattern, dataFrameBytes, Machine.put16, Machine.put32, Machine.flagByteOf,
    altByte_masked]

theorem dataMore (f : DataFields) : Statement (.dataMore f) := by
  simp [Statement, Fits, fits, encode, pattern, dataFrameBytes, Machine.put16, Machine.put32, Machine.flagByteOf,
    altByte_masked]

theorem dataLast (f : DataFields) : Statement (.dataLast f) := by
  simp [Statement, Fits, fits, encode, pattern, dataFrameBytes, Machine.put16, Machine.put32, Machine.flagByteOf,
    altByte_masked]

theorem ack (f : AckFields) : Statement (.ack f) := by
  simp [Statement, Fits, fits, encode, pattern, ackFrameBytes, Machine.put16, Machine.put32, altByte_masked]

theorem crc32 (bytes : Bytes) : Statement (.crc32 bytes) := by simp [Statement, Fits, encode, pattern]

theorem crc32Verify (bytes : Bytes) (expected : Word) : Statement (.crc32Verify bytes expected) := by
  simp [Statement, Fits, encode, pattern]

theorem encData (sourcePort destPort : Nat) (altBit : Bit) (endFlag : EndFlag) (payload : Bytes) :
    Statement (.encData sourcePort destPort altBit endFlag payload) := by simp [Statement, Fits, encode, pattern]

theorem decData (datagram : Datagram) : Statement (.decData datagram) := by simp [Statement, Fits, encode, pattern]

theorem encAck (sourcePort destPort : Nat) (altBit : Bit) : Statement (.encAck sourcePort destPort altBit) := by
  simp [Statement, Fits, encode, pattern]

theorem decAck (datagram : Datagram) : Statement (.decAck datagram) := by simp [Statement, Fits, encode, pattern]

theorem txStart (name file : Bytes) : Statement (.txStart name file) := by simp [Statement, Fits, encode, pattern]

theorem rxRestart : Statement .rxRestart := by simp [Statement, Fits, encode, pattern]

theorem cfgTx (src dst : Nat) : Statement (.cfgTx src dst) := by simp [Statement, Fits, encode, pattern]

theorem cfgRx (src dst : Nat) : Statement (.cfgRx src dst) := by simp [Statement, Fits, encode, pattern]

theorem hwReset : Statement .hwReset := by simp [Statement, Fits, encode, pattern]

theorem txSend : Statement .txSend := by simp [Statement, Fits, encode, pattern]

theorem txChannelFailure : Statement .txChannelFailure := by simp [Statement, Fits, encode, pattern]

theorem txTimeout : Statement .txTimeout := by simp [Statement, Fits, encode, pattern]

theorem txAckBadCorrupt : Statement .txAckBadCorrupt := by simp [Statement, Fits, encode, pattern]

theorem txAckBadWrongBit : Statement .txAckBadWrongBit := by simp [Statement, Fits, encode, pattern]

theorem txAckOk : Statement .txAckOk := by simp [Statement, Fits, encode, pattern]

theorem rxChannelFailure : Statement .rxChannelFailure := by simp [Statement, Fits, encode, pattern]

theorem rxIdleTimeout : Statement .rxIdleTimeout := by simp [Statement, Fits, encode, pattern]

theorem rxZeroDatagram : Statement .rxZeroDatagram := by simp [Statement, Fits, encode, pattern]

theorem rxPacketCorrupt : Statement .rxPacketCorrupt := by simp [Statement, Fits, encode, pattern]

theorem rxPacketWrongBit : Statement .rxPacketWrongBit := by simp [Statement, Fits, encode, pattern]

theorem rxPacketOkMore : Statement .rxPacketOkMore := by simp [Statement, Fits, encode, pattern]

theorem rxPacketOkLast : Statement .rxPacketOkLast := by simp [Statement, Fits, encode, pattern]

end Sys2Proof.Laws.TableRow
end

