-- ==== Sys2Proof/Tests/Slice0.lean ====
section
/-!
SUPPORT. The model's own tests: the refusals of WellFormed, the words of the opcode table decoded, the spec's vectors (the
names V, E, A, Q, K, S, X, H, J and P are those of 95_test_vectors.md), and for every statement with hypotheses one theorem
that meets them all, named witness_<statement>. Expected values are the spec's.
-/

namespace Sys2Proof.Tests
set_option Elab.async false
open Sys2Proof Sys2Proof.Machine

/-! Helpers. -/

/-- The step answers a next state and `p` holds of it. -/
def after (o : StepResult) (p : State → Bool) : Bool :=
  match o with
  | .next t => p t
  | .fault _ => false
  | .refused _ => false

theorem next_of_after {o : StepResult} {p : State → Bool} (h : after o p = true) : ∃ t, o = .next t ∧ p t = true := by
  cases o with
  | next t => exact ⟨t, rfl, h⟩
  | fault e => cases h
  | refused r => cases h

/-- The frame of an encoder's answer. -/
def frameOf (r : Except CodecError Bytes) : Option Bytes := r.toOption

/-- E1: ENC_DATA(5000, 6000, 0, MORE_FOLLOW, "hello"). -/
def e1 : Bytes := [0x13, 0x88, 0x17, 0x70, 0x00, 0x01, 0x00, 0x05, 0x7D, 0xA3, 0x01, 0xEE, 0x68, 0x65, 0x6C, 0x6C, 0x6F]

/-- E3: bit 1, NONE, payload 00. -/
def e3 : Bytes := [0x11, 0x70, 0x00, 0x50, 0x01, 0x00, 0x00, 0x01, 0xD9, 0x17, 0xC3, 0x0A, 0x00]

/-- E7: bit 1, LAST, empty payload. -/
def e7 : Bytes := [0x13, 0x88, 0x17, 0x70, 0x01, 0x02, 0x00, 0x00, 0x70, 0xD6, 0x2C, 0xD3]

/-- E8: bit 1, MORE_FOLLOW, payload "x". -/
def e8 : Bytes := [0x13, 0x88, 0x17, 0x70, 0x01, 0x01, 0x00, 0x01, 0x98, 0xD8, 0xDD, 0x6E, 0x78]

/-- A0: ENC_ACK(6000, 5000, 0). -/
def a0 : Bytes := [0x17, 0x70, 0x13, 0x88, 0x00, 0x92, 0xE7, 0x13, 0x79]

/-- A1: ENC_ACK(6000, 5000, 1). -/
def a1 : Bytes := [0x17, 0x70, 0x13, 0x88, 0x01, 0xE5, 0xE0, 0x23, 0xEF]

/-- "a.txt" and the filename field it gives. -/
def aTxt : Bytes := [0x61, 0x2E, 0x74, 0x78, 0x74]
def aTxtField : Bytes := aTxt ++ List.replicate 15 0x00

/-- "abc". -/
def abc : Bytes := [0x61, 0x62, 0x63]

/-- F1, the frame of P1 (35 bytes). -/
def f1 : Bytes := [0x13, 0x88, 0x17, 0x70, 0x00, 0x02, 0x00, 0x17, 0x1E, 0x3D, 0x8E, 0x22] ++ aTxtField ++ abc

/-- WAIT_CALL_0 of P1: the start state of S1. -/
def txCall : State :=
  { State.reset with
    tx := { TxRegs.reset with srcPort := 5000, dstPort := 6000, T := aTxtField ++ abc, status := .running } }

/-- WAIT_ACK_0 of P1 with F1 in flight. -/
def txWait : State :=
  { txCall with tx := { txCall.tx with pending := f1, phase := .ack, timerArmed := true } }

/-- WAIT_FOR_0, fresh: the start state of X1. -/
def rxFresh : State :=
  { State.reset with
    rx := { RxRegs.reset with srcPort := 6000, dstPort := 5000, status := .running, timerArmed := true } }

/-- WAIT_FOR_1 in a transfer, A0 sent last. -/
def rxMid : State :=
  { rxFresh with
    rx := { rxFresh.rx with bit := 1, fileName := aTxtField, fileNameValid := true, buf := abc, lastAck := a0,
                            lastAckValid := true, cntOk := 1 } }

/-- The sender's receive ends so, and its send is done or fails. -/
def txGets (o : RecvOutcome) (ok : Bool) (s : State) : State := { s with env := { s.env with txPort := ⟨o, ok⟩ } }

/-- The receiver's receive ends so, and its send is done or fails. -/
def rxGets (o : RecvOutcome) (ok : Bool) (s : State) : State := { s with env := { s.env with rxPort := ⟨o, ok⟩ } }

/-- One input to come. -/
def facing (x : Input) (s : State) : State := { s with env := { s.env with inputs := [x] } }

/-! WellFormed. -/

theorem test_wf_dataNone : (Instr.dataNone ⟨1, 2, 0, 2, 3, [0x61]⟩).wellFormed = false := by decide
theorem test_wf_dataMore : (Instr.dataMore ⟨1, 2, 0, 0, 3, [0x61]⟩).wellFormed = false := by decide
theorem test_wf_dataLast : (Instr.dataLast ⟨1, 2, 0, 1, 3, []⟩).wellFormed = false := by decide
theorem test_wf_data : (Instr.dataLast ⟨1, 2, 0, 1, 3, [0x61]⟩).wellFormed = true := by decide
theorem test_wf_block : block.wellFormed = true := by decide +kernel
theorem test_wf_crc : { block with crc := { crcDefault with polyReflected := 0xEDB88321 } }.wellFormed = false := by decide +kernel
theorem test_wf_maxFrame : { block with maxFrame := 11, chunkMax := 0, nameLen := 0 }.wellFormed = false := by decide +kernel
theorem test_wf_nameLen : { block with nameLen := 1387 }.wellFormed = false := by decide +kernel
theorem test_wf_chunkMax : { block with chunkMax := 1389 }.wellFormed = false := by decide +kernel
theorem test_wf_maxPayload : { block with maxFrame := 65548 }.wellFormed = false := by decide +kernel

/-! Decoding: each row's word written out from its pattern (R99, R102, R110 to R112). -/

theorem test_decode_dataNone :
    decodeDataFrame e3 = .ok (.dataNone ⟨0x1170, 0x0050, 1, 1, 0xD917C30A, [0x00]⟩) := by decide
theorem test_decode_dataMore :
    decodeDataFrame e1 = .ok (.dataMore ⟨5000, 6000, 0, 5, 0x7DA301EE, [0x68, 0x65, 0x6C, 0x6C, 0x6F]⟩) := by decide
theorem test_decode_dataLast : decodeDataFrame e7 = .ok (.dataLast ⟨5000, 6000, 1, 0, 0x70D62CD3, []⟩) := by decide
theorem test_decode_ack : decodeAckFrame a1 = .ok (.ack ⟨6000, 5000, 1, 0xE5E023EF⟩) := by decide

/-- Reserved bytes and wrong lengths are no frames (R104 to R106). -/
theorem test_decode_rejects :
    decodeDataFrame (e1.set 5 0x03) = .error .reservedEndFlag ∧ decodeDataFrame (e1.set 4 0x02) = .error .reservedAltBit ∧
      decodeDataFrame (e1 ++ [0x00]) = .error .lengthMismatch ∧ decodeDataFrame (e1.take 16) = .error .lengthMismatch ∧
      decodeDataFrame (e1.take 11) = .error .runt ∧ decodeAckFrame (a1.set 4 0x02) = .error .reservedAltBit ∧
      decodeAckFrame (a1.take 8) = .error .notNineBytes ∧ decodeAckFrame e1 = .error .notNineBytes := by decide

/-- The eleven operation codes, each reading its own operand ports. -/
theorem test_decode_operations :
    let o : HostOperands := ⟨[0x61], [0x62], 7, 5000, 6000, 1, .last⟩
    decode (.op 0b0001 o) = .ok (.crc32 [0x61]) ∧ decode (.op 0b0010 o) = .ok (.crc32Verify [0x61] 7) ∧
      decode (.op 0b0011 o) = .ok (.encData 5000 6000 1 .last [0x61]) ∧ decode (.op 0b0100 o) = .ok (.decData [0x61]) ∧
      decode (.op 0b0101 o) = .ok (.encAck 5000 6000 1) ∧ decode (.op 0b0110 o) = .ok (.decAck [0x61]) ∧
      decode (.op 0b1000 o) = .ok (.txStart [0x61] [0x62]) ∧ decode (.op 0b1001 o) = .ok .rxRestart ∧
      decode (.op 0b1010 o) = .ok (.cfgTx 5000 6000) ∧ decode (.op 0b1011 o) = .ok (.cfgRx 5000 6000) ∧
      decode (.op 0b1111 o) = .ok .hwReset ∧ decode (.op 0b0111 o) = .error (.noSuchOperation 0b0111) := by decide

/-- The sender's patterns 1xxxx, 01xxx, 001xx, 0000x, 00010, 00011 (R111), the x bits 0 and 1. -/
theorem test_decode_txVectors :
    decode (.txVector 0b10000) = .ok .txSend ∧ decode (.txVector 0b11111) = .ok .txSend ∧
      decode (.txVector 0b01000) = .ok .txChannelFailure ∧ decode (.txVector 0b01111) = .ok .txChannelFailure ∧
      decode (.txVector 0b00100) = .ok .txTimeout ∧ decode (.txVector 0b00111) = .ok .txTimeout ∧
      decode (.txVector 0b00000) = .ok .txAckBadCorrupt ∧ decode (.txVector 0b00001) = .ok .txAckBadCorrupt ∧
      decode (.txVector 0b00010) = .ok .txAckBadWrongBit ∧ decode (.txVector 0b00011) = .ok .txAckOk := by decide

/-- The receiver's patterns 1xxxxx, 01xxxx, 001xxx, 0000xx, 00010x, 000110, 000111 (R112). -/
theorem test_decode_rxVectors :
    decode (.rxVector 0b100000) = .ok .rxChannelFailure ∧ decode (.rxVector 0b111111) = .ok .rxChannelFailure ∧
      decode (.rxVector 0b010000) = .ok .rxIdleTimeout ∧ decode (.rxVector 0b011111) = .ok .rxIdleTimeout ∧
      decode (.rxVector 0b001000) = .ok .rxZeroDatagram ∧ decode (.rxVector 0b001111) = .ok .rxZeroDatagram ∧
      decode (.rxVector 0b000000) = .ok .rxPacketCorrupt ∧ decode (.rxVector 0b000011) = .ok .rxPacketCorrupt ∧
      decode (.rxVector 0b000100) = .ok .rxPacketWrongBit ∧ decode (.rxVector 0b000101) = .ok .rxPacketWrongBit ∧
      decode (.rxVector 0b000110) = .ok .rxPacketOkMore ∧ decode (.rxVector 0b000111) = .ok .rxPacketOkLast := by decide

/-- Table words: bit 95 (71) of a frame's pattern is bit 7 of its byte 0. -/
theorem test_decode_tableWords :
    decodeTableWord 96 0x138817700101000070D62CD3 = some (.dataMore ⟨5000, 6000, 1, 0, 0x70D62CD3, []⟩) ∧
      decodeTableWord 72 0x1770138801E5E023EF = some (.ack ⟨6000, 5000, 1, 0xE5E023EF⟩) ∧
      decodeTableWord 4 0b1111 = some .hwReset ∧ decodeTableWord 5 0b00011 = some .txAckOk ∧
      decodeTableWord 6 0b000111 = some .rxPacketOkLast ∧ decodeTableWord 8 0b0001 = some (.crc32 []) ∧
      decodeTableWord 8 0b10000 = some .txSend ∧ decodeTableWord 8 0b100000 = some .rxChannelFailure := by decide

/-- From reset a placed word is the very next step: TX.SEND sends the 32-byte frame of S10. -/
theorem test_withFetchWord :
    after (step (State.reset.withFetchWord 5 0b10000)) (fun t => decide (t.tx.phase = .ack ∧ t.tx.pending.length = 32)) ∧
      after (step (State.reset.withFetchWord 4 0b1001)) (fun t => decide (t.rx.status = .running)) := by decide +kernel

/-! CRC32 and CRC32_VERIFY. -/

/-- V1, V2, V4. -/
theorem test_crc32 :
    after (exec (.crc32 []) rxMid) (fun t => decide (t.env.result = some (.crc 0x00000000) ∧ t.rx = rxMid.rx)) ∧
      after (exec (.crc32 [0x61]) rxMid) (fun t => decide (t.env.result = some (.crc 0xE8B7BE43))) ∧
      after (exec (.crc32 [0x31, 0x32, 0x33, 0x34, 0x35, 0x36, 0x37, 0x38, 0x39]) rxMid)
        (fun t => decide (t.env.result = some (.crc 0xCBF43926))) := by decide +kernel

/-- V13: `crc_value` after the first eight bytes, and after all. -/
theorem test_crc32_streams :
    crcValue block.crc (crcRun block.crc (crcInit block.crc) (e1.take 8)) = 0xBA460160 ∧
      crcValue block.crc (crcRun block.crc (crcRun block.crc (crcInit block.crc) (e1.take 8)) (e1.drop 12)) =
        0x7DA301EE := by decide +kernel

/-- V17, V18: the last bit is compared too. -/
theorem test_crc32Verify :
    after (exec (.crc32Verify abc 0x352441C2) State.reset) (fun t => decide (t.env.result = some (.verified true))) ∧
      after (exec (.crc32Verify abc 0x352441C3) State.reset) (fun t => decide (t.env.result = some (.verified false))) := by
  decide +kernel

/-! ENC_DATA, ENC_ACK, DEC_DATA, DEC_ACK. -/

/-- E1, E2, E3. -/
theorem test_encData :
    frameOf (encData block 5000 6000 0 .moreFollow [0x68, 0x65, 0x6C, 0x6C, 0x6F]) = some e1 ∧
      frameOf (encData block 0xFFFF 0 1 .last []) = some
        [0xFF, 0xFF, 0x00, 0x00, 0x01, 0x02, 0x00, 0x00, 0x6A, 0x67, 0x20, 0xB4] ∧
      frameOf (encData block 70000 65616 1 .none [0x00]) = some e3 := by decide +kernel

/-- E5: 1389 bytes are refused, 1388 are not (R163). -/
theorem test_encData_tooLarge :
    after (exec (.encData 5000 6000 0 .last (List.replicate 1389 0x61)) State.reset)
        (fun t => decide (t.env.result = some (.error (.payloadTooLarge 1389)))) = true ∧
      (encData block 5000 6000 0 .last (List.replicate 1388 0x61)).isOk = true := by decide +kernel

/-- A0, A3. -/
theorem test_encAck :
    after (exec (.encAck 6000 5000 0) State.reset) (fun t => decide (t.env.result = some (.frame a0))) ∧
      encAck block 0xFFFF 0x10000 1 = [0xFF, 0xFF, 0x00, 0x00, 0x01, 0xA5, 0x44, 0x06, 0xF6] := by decide +kernel

/-- Q12: fieldsOk does not depend on checksumOk; Q16: eleven bytes are a runt. -/
theorem test_decData :
    decData block [0x13, 0x88, 0x17, 0x70, 0x00, 0x03, 0x00, 0x05, 0x3F, 0x86, 0x06, 0x93, 0x68, 0x65, 0x6C, 0x6C, 0x6F] =
        ⟨false, true, false, true, false,
          some ⟨5000, 6000, 0x00, 0x03, 0, .reserved, 5, 0x3F860693⟩, [0x68, 0x65, 0x6C, 0x6C, 0x6F]⟩ ∧
      decData block (e1.take 11) = ⟨true, false, false, false, false, none, []⟩ := by decide +kernel

/-- Q1, Q8. -/
theorem test_decData_verdicts :
    after (exec (.decData e1) State.reset) (fun t => decide (t.env.result = some (.data ⟨false, true, true, true, true,
        some ⟨5000, 6000, 0x00, 0x01, 0, .moreFollow, 5, 0x7DA301EE⟩, [0x68, 0x65, 0x6C, 0x6C, 0x6F]⟩))) ∧
      decData block (e1.set 7 0x04) = ⟨false, false, true, false, false,
        some ⟨5000, 6000, 0x00, 0x01, 0, .moreFollow, 4, 0x7DA301EE⟩, []⟩ := by decide +kernel

/-- K1, K4. -/
theorem test_decAck :
    after (exec (.decAck a1) State.reset) (fun t => decide (t.env.result =
        some (.ack ⟨true, true, true, true, some ⟨6000, 5000, 0x01, 1, 0xE5E023EF⟩⟩))) ∧
      decAck block [0x17, 0x70, 0x13, 0x88, 0x02, 0x7C, 0xE9, 0x72, 0x55] =
        ⟨true, false, true, false, some ⟨6000, 5000, 0x02, 0, 0x7CE97255⟩⟩ := by decide +kernel

/-! The sender. -/

/-- R212's worked example; refused while running (S9). -/
theorem test_cfgTx :
    after (exec (.cfgTx 5000 70000) State.reset) (fun t => decide (t.tx.srcPort = 0x1388 ∧ t.tx.dstPort = 0x1170)) ∧
      after (exec (.cfgTx 1 2) txCall) (fun t => decide (t.tx = txCall.tx)) := by decide

/-- R213's worked example. -/
theorem test_txStart :
    after (exec (.txStart aTxt abc) (txWait.setTx { txWait.tx with status := .done, bit := 1, retryCount := 3 }))
      (fun t => decide (t.tx = txCall.tx)) := by decide

/-- S8: a name of 21 bytes; 20 are accepted. -/
theorem test_txStart_name :
    after (exec (.txStart (List.replicate 21 0x61) []) State.reset)
        (fun t => decide (t.tx = { TxRegs.reset with status := .errName })) ∧
      after (exec (.txStart (List.replicate 20 0x61) []) State.reset)
        (fun t => decide (t.tx.T = List.replicate 20 0x61 ∧ t.tx.status = .running)) := by decide

/-- S1. -/
theorem test_txSend :
    after (exec .txSend txCall) (fun t => decide (t.tx = txWait.tx ∧ t.env.toRx = [f1])) := by decide +kernel

/-- S7: the send fails after `tx.pending` is written. -/
theorem test_txSend_failure :
    after (exec .txSend (txGets .timeout false txCall))
      (fun t => decide (t.tx = { txCall.tx with pending := f1, status := .errChannel } ∧ t.env.toRx = [])) := by
  decide +kernel

/-- S2: the one chunk was the last. -/
theorem test_txAckOk :
    after (exec .txAckOk (txGets (.bytes a0) true txWait)) (fun t => decide (t.tx =
      { txWait.tx with phase := .call, bit := 1, bytesProcessed := 23, status := .done, timerArmed := false } ∧
      t.env.toRx = [])) := by decide +kernel

/-- S3. -/
theorem test_txAckBadWrongBit :
    after (exec .txAckBadWrongBit (txGets (.bytes a1) true txWait)) (fun t => decide (t.tx =
      { txWait.tx with retryCount := 1 } ∧ t.env.toRx = [f1])) := by decide +kernel

/-- S4, with the input of K3. -/
theorem test_txAckBadCorrupt :
    after (exec .txAckBadCorrupt (txGets (.bytes (a1.set 4 0x00)) true txWait)) (fun t => decide (t.tx =
      { txWait.tx with retryCount := 1 } ∧ t.env.toRx = [f1])) := by decide +kernel

/-- S5, and the same with a failing send. -/
theorem test_txTimeout :
    after (exec .txTimeout (txGets .timeout true txWait)) (fun t => decide (t.tx =
        { txWait.tx with retryCount := 1 } ∧ t.env.toRx = [f1])) ∧
      after (exec .txTimeout (txGets .timeout false txWait)) (fun t => decide (t.tx =
        { txWait.tx with status := .errChannel, timerArmed := false } ∧ t.env.toRx = [])) := by decide

/-- S6. -/
theorem test_txChannelFailure :
    after (exec .txChannelFailure (txGets .failure true txWait)) (fun t => decide (t.tx =
      { txWait.tx with status := .errChannel, timerArmed := false } ∧ t.env.toRx = [])) := by decide

/-! The receiver. -/

/-- R252's worked example; refused while running. -/
theorem test_cfgRx :
    after (exec (.cfgRx 6000 5000) State.reset) (fun t => decide (t.rx.srcPort = 0x1770 ∧ t.rx.dstPort = 0x1388)) ∧
      after (exec (.cfgRx 1 2) rxFresh) (fun t => decide (t.rx = rxFresh.rx)) := by decide

/-- H2: the ports are kept. -/
theorem test_rxRestart :
    after (exec .rxRestart (rxMid.setRx { rxMid.rx with status := .idleEnd })) (fun t => decide (t.rx =
      { rxMid.rx with bit := 0, buf := [], fileNameValid := false, lastAckValid := false, cntOk := 0 })) := by decide

/-- X2. -/
theorem test_rxPacketOkLast :
    after (exec .rxPacketOkLast (rxGets (.bytes f1) true rxFresh)) (fun t => decide (t.env.sink = [⟨aTxtField, abc⟩] ∧
      t.env.toTx = [a0] ∧ t.rx = { rxFresh.rx with fileName := aTxtField, lastAck := a0, lastAckValid := true, cntOk := 1 })) := by
  decide +kernel

/-- X9, a short first packet; X10 in small: NONE is not LAST, and the ack carries the receiver's own ports. -/
theorem test_rxPacketOkMore :
    after (exec .rxPacketOkMore (rxGets (.bytes e1) true rxFresh)) (fun t => decide (t.rx.bit = 1 ∧ t.rx.buf = [] ∧
        t.rx.fileName = [0x68, 0x65, 0x6C, 0x6C, 0x6F] ++ List.replicate 15 0x00 ∧ t.env.toTx = [a0])) ∧
      after (exec .rxPacketOkMore (rxGets (.bytes e3) true rxMid)) (fun t => decide (t.rx.bit = 0 ∧
        t.rx.buf = [0x61, 0x62, 0x63, 0x00] ∧ t.env.toTx = [a1] ∧ t.env.sink = [] ∧ t.rx.lastAck = a1)) := by decide +kernel

/-- R266: what stood before the failing send stays, what comes after it is not written. -/
theorem test_rxPacketOk_failure :
    after (exec .rxPacketOkMore (rxGets (.bytes e3) false rxMid)) (fun t => decide (t.rx =
      { rxMid.rx with buf := [0x61, 0x62, 0x63, 0x00], status := .errChannel, timerArmed := false } ∧ t.env.toTx = [])) := by
  decide +kernel

/-- X11 and X12. -/
theorem test_rxPacketCorrupt :
    after (exec .rxPacketCorrupt (rxGets (.bytes (e1.set 5 0x03)) true rxFresh)) (fun t => decide (t.rx =
        { rxFresh.rx with cntCorrupt := 1 } ∧ t.env.toTx = [])) ∧
      after (exec .rxPacketCorrupt (rxGets (.bytes a0) true rxFresh)) (fun t => decide (t.rx =
        { rxFresh.rx with cntCorrupt := 1 })) := by decide +kernel

/-- X4 in small and X5. -/
theorem test_rxPacketWrongBit :
    after (exec .rxPacketWrongBit (rxGets (.bytes f1) true rxMid)) (fun t => decide (t.rx =
        { rxMid.rx with cntWrongBit := 1 } ∧ t.env.toTx = [a0] ∧ t.env.sink = [])) ∧
      after (exec .rxPacketWrongBit (rxGets (.bytes e8) true rxFresh)) (fun t => decide (t.rx =
        { rxFresh.rx with cntWrongBit := 1 } ∧ t.env.toTx = [])) := by decide +kernel

/-- X6. -/
theorem test_rxZeroDatagram :
    after (exec .rxZeroDatagram (rxGets (.bytes []) true rxMid)) (fun t => decide (t = rxGets (.bytes []) true rxMid)) ∧
      after (exec .rxZeroDatagram (rxGets (.bytes [0x00]) true rxMid)) (fun t => decide (t.rx = rxMid.rx)) := by decide

/-- X7. -/
theorem test_rxIdleTimeout :
    after (exec .rxIdleTimeout (rxGets .timeout true rxMid)) (fun t => decide (t.rx =
      { rxMid.rx with status := .idleEnd, timerArmed := false })) := by decide

/-- X8. -/
theorem test_rxChannelFailure :
    after (exec .rxChannelFailure (rxGets .failure true rxMid)) (fun t => decide (t.rx =
      { rxMid.rx with status := .errChannel, timerArmed := false })) := by decide

/-! Frames, reset, the FaultInjector. -/

/-- A frame arriving at a running receiver is the step its bytes select: F1 is X2. -/
theorem test_dataLast :
    after (exec (.dataLast ⟨5000, 6000, 0, 23, 0x1E3D8E22, aTxtField ++ abc⟩) rxFresh)
      (fun t => decide (t.env.sink = [⟨aTxtField, abc⟩] ∧ t.env.toTx = [a0])) := by decide +kernel

/-- E1 is X9; E3 at WAIT_FOR_1 appends its byte. -/
theorem test_dataMore_dataNone :
    after (exec (.dataMore ⟨5000, 6000, 0, 5, 0x7DA301EE, [0x68, 0x65, 0x6C, 0x6C, 0x6F]⟩) rxFresh)
        (fun t => decide (t.rx.bit = 1 ∧ t.rx.buf = [] ∧ t.rx.cntOk = 1)) ∧
      after (exec (.dataNone ⟨0x1170, 0x0050, 1, 1, 0xD917C30A, [0x00]⟩) rxMid)
        (fun t => decide (t.rx.buf = [0x61, 0x62, 0x63, 0x00])) := by decide +kernel

/-- A0 at the sender of P1 is S2; at an idle sender it stays in the Channel. -/
theorem test_ack :
    after (exec (.ack ⟨6000, 5000, 0, 0x92E71379⟩) txWait) (fun t => decide (t.tx.status = .done)) ∧
      after (exec (.ack ⟨6000, 5000, 0, 0x92E71379⟩) txCall) (fun t => decide (t.env.toTx = [a0] ∧ t.tx = txCall.tx)) := by
  decide +kernel

/-- H1: while both shells run. -/
theorem test_hwReset :
    after (exec .hwReset { txWait with rx := rxMid.rx })
      (fun t => decide (t.tx = TxRegs.reset ∧ t.rx = RxRegs.reset ∧ t.env.toRx = [])) := by decide

/-- J3 and J5. -/
theorem test_injector :
    (∀ draw : Nat → BitVec 32, draw 0 = 0 → injectorOutput block (nextCase draw ⟨2 ^ 32, 2 ^ 32, 2 ^ 32, 0, ⟨0, 0, 0⟩⟩) e1 =
        [List.replicate 17 0x00]) ∧
      corruptTransform block e1 = e1.set 12 0x69 := by
  refine ⟨fun draw h => ?_, by decide⟩
  simp [nextCase, injectorCase, fires, h, injectorOutput, lossTransform, zeros, e1]

/-- R290, D38: after a close the pending call returns Failure, though the end is reopened before the shell's turn. -/
theorem test_close_reopen :
    after (step { rxMid with env := { rxMid.env with inputs := [.reopen .receiver, .rxTurn .timeout true], rxEnd := ⟨true, true⟩ } })
      (fun s => after (step s) (fun t => decide (t.rx.status = .errChannel ∧ t.env.rxEnd = ⟨false, false⟩))) := by decide

/-- R290, D38: after a close the next call returns Failure; the other end and the Channel's content are not touched. -/
theorem test_close :
    after (step (facing (.close .receiver) rxMid))
        (fun t => decide (t = { rxMid with env := { rxMid.env with rxEnd := ⟨true, true⟩ } })) ∧
      after (step (facing (.rxTurn (.bytes e3) true) (rxMid.onEnd .receiver EndState.close)))
        (fun t => decide (t.rx = { rxMid.rx with status := .errChannel, timerArmed := false } ∧ t.env.toTx = [])) := by
  decide +kernel

/-! Witnesses: for each statement with hypotheses, a state and operands that meet them. -/

theorem witness_Crc32DetectsOneBitErrors :
    (0 < 8 ∧ 7 < 8) ∧ crc32 block.crc [0x00, 0x61] ≠ crc32 block.crc [0x00, 0xE1] ∧
      (0xE1 : Byte) = 0x61 ^^^ (1#8 <<< 7) := by decide +kernel

theorem witness_EncDataIsInjective :
    65535 < 65536 ∧ 0 < 65536 ∧ ([] : Bytes).length ≤ 1388 ∧
      frameOf (encData block 65535 0 1 .last []) = some
        [0xFF, 0xFF, 0x00, 0x00, 0x01, 0x02, 0x00, 0x00, 0x6A, 0x67, 0x20, 0xB4] := by decide +kernel

/-- Below, at and above the header length; the length right and wrong. -/
theorem witness_DecDataReportsEveryOutput :
    (e1.take 11).length < 12 ∧ ¬e7.length < 12 ∧ (decData block e7).lengthOk = true ∧
      (decData block (e7 ++ [0x00])).lengthOk = false := by decide +kernel

theorem witness_DecAckReportsEveryOutput :
    (a1.take 8).length ≠ 9 ∧ (a1 ++ [0x00]).length ≠ 9 ∧ ¬a1.length ≠ 9 := by decide

theorem witness_DecodersInvertEncoders :
    ([] : Bytes).length ≤ 1388 ∧ (List.replicate 1388 (0x61 : Byte)).length ≤ 1388 := by decide +kernel

/-- The first and the last bit of a frame, and both sides of the payloadLength field. -/
theorem witness_OneBitFlipOfADataFrameIsRejected :
    frameOf (encData block 5000 6000 1 .last []) = some e7 ∧ 0 < e7.length ∧ 5 < e7.length ∧ 6 < e7.length ∧ 7 < e7.length ∧
      8 < e7.length ∧ 11 < e7.length ∧ 0 < 8 ∧ 7 < 8 := by decide +kernel

theorem witness_OneBitFlipOfAnAckIsRejected : 0 < 9 ∧ 8 < 9 ∧ 0 < 8 ∧ 7 < 8 := by decide

theorem witness_ZeroDatagramIsNoFrame :
    frameOf (encData block 0 0 0 .none []) = some
      [0x00, 0x00, 0x00, 0x00, 0x00, 0x00, 0x00, 0x00, 0x65, 0x22, 0xDF, 0x69] := by decide +kernel

theorem witness_DecodeInvertsEncode :
    (Instr.dataMore ⟨5000, 6000, 1, 1, 7, [0x78]⟩).wellFormed = true ∧ (Instr.ack ⟨1, 2, 1, 3⟩).wellFormed = true ∧
      (Instr.txStart aTxt abc).wellFormed = true ∧ Instr.txAckOk.wellFormed = true ∧
      Instr.rxPacketOkLast.wellFormed = true := by decide

theorem witness_EncodeInvertsFrameDecode :
    decodeDataFrame e7 = .ok (.dataLast ⟨5000, 6000, 1, 0, 0x70D62CD3, []⟩) ∧
      decodeAckFrame a0 = .ok (.ack ⟨6000, 5000, 0, 0x92E71379⟩) := by decide

/-- Codes on both sides of each gap. -/
theorem witness_UnusedOperationCodesAreRefused :
    ∀ code : BitVec 4, (facing (.host code HostOperands.zero) State.reset).env.inputs = .host code HostOperands.zero :: [] :=
  fun _ => rfl

/-- Each clause, the turn of a running and of a stopped shell, a frame and a datagram that is none for each shell. -/
theorem witness_StepRunsTheNextInput :
    State.reset.env.inputs = [] ∧
      ((facing (.host 0b1111 HostOperands.zero) txWait).env.inputs = .host 0b1111 HostOperands.zero :: [] ∧
        decodeOp 0b1111 HostOperands.zero = .ok .hwReset) ∧
      (facing (.read .txStatus) txWait).env.inputs = .read .txStatus :: [] ∧
      ((facing (.txTurn .oldest true) txWait).env.inputs = .txTurn .oldest true :: [] ∧ txWait.tx.status = .running) ∧
      ((facing (.rxTurn .timeout false) rxMid).env.inputs = .rxTurn .timeout false :: [] ∧ rxMid.rx.status = .running) ∧
      (State.reset.tx.status ≠ .running ∧ State.reset.rx.status ≠ .running) ∧
      ((facing (.arrive .toRx e7 true) rxMid).env.inputs = .arrive .toRx e7 true :: [] ∧
        decodeDataFrame e7 = .ok (.dataLast ⟨5000, 6000, 1, 0, 0x70D62CD3, []⟩)) ∧
      ((facing (.arrive .toTx a0 true) txWait).env.inputs = .arrive .toTx a0 true :: [] ∧
        decodeAckFrame a0 = .ok (.ack ⟨6000, 5000, 0, 0x92E71379⟩)) ∧
      decodeDataFrame a0 = .error .runt ∧ decodeAckFrame e7 = .error .notNineBytes ∧
      (facing (.channel (.lose .toRx e7)) rxMid).env.inputs = .channel (.lose .toRx e7) :: [] ∧
      (facing (.close .sender) txWait).env.inputs = .close .sender :: [] ∧
      (facing (.reopen .receiver) rxMid).env.inputs = .reopen .receiver :: [] := by decide

theorem witness_PlacedInstructionIsRunNext :
    Instr.txAckOk.wellFormed = true ∧ (Instr.dataNone ⟨0, 0, 0, 0, 0, []⟩).wellFormed = true := by decide

theorem witness_StepNeverReachesAPairWithoutARow :
    txCall.tx.phase = .call ∧ TxRow.ackOk ≠ .send ∧ txWait.tx.phase = .ack := by decide

/-- A running session with a frame in flight and a receiver in a transfer meet the invariant. -/
theorem witness_StepKeepsTheInvariant :
    ({ txWait with rx := rxMid.rx } : State).Inv ∧
      ∃ t, step (facing (.txTurn .timeout true) { txWait with rx := rxMid.rx }) = .next t := by
  refine ⟨⟨⟨by decide, .inr (by decide), by decide, by decide, fun _ _ => ?_, fun _ => ⟨0, by decide, by decide⟩⟩,
    ⟨by decide, by decide, by decide, by decide, fun _ => ⟨6000, 5000, 0, by decide +kernel⟩, by decide⟩⟩, ?_⟩
  · rw [nextFrame_block]
    exact congrArg Except.ok (by decide +kernel)
  · obtain ⟨t, h, -⟩ := next_of_after (p := fun _ => true)
      (show after (step (facing (.txTurn .timeout true) { txWait with rx := rxMid.rx })) _ = true by decide +kernel)
    exact ⟨t, h⟩

/-- R185, R365: a received data frame of 1401 bytes whose `payloadLength` is 1389 passes the length check. -/
theorem test_long_frame_length : dataLengthOk ([0, 0, 0, 0, 0, 0, 0x05, 0x6D, 0, 0, 0, 0] ++ List.replicate 1389 0) = true := by
  simp only [dataLengthOk, List.length_append, List.length_replicate]; decide

/-- R36, R38, R45, U4: behind a true valid bit the bytes, behind a false one the error, and the machine goes on. -/
theorem test_read_guarded :
    step (facing (.read .rxFileName) rxMid) =
        .next ((rxMid.setInputs []).answer (.register (.bytes rxMid.rx.fileName))) ∧
      ∃ B, step (facing (.read .rxFileName) rxFresh) =
        .next ((rxFresh.setInputs []).answer (.register (.unspecified B))) ∧ B.length = 20 :=
  ⟨rfl, _, rfl, by simp [block]⟩

/-- A fresh receiver: reads of both guarded registers complete, code 0111 is refused. -/
theorem witness_StepCompletesUnderTheInvariant :
    rxFresh.Inv ∧ (∃ t, step (facing (.read .rxFileName) rxFresh) = .next t) ∧
      (∃ t, step (facing (.read .rxLastAck) rxFresh) = .next t) ∧
      step (facing (.host 0b0111 HostOperands.zero) rxFresh) = .refused (.noSuchOperation 0b0111) := by
  refine ⟨⟨⟨by decide, .inl rfl, by decide, by decide, by decide, fun h => absurd h (by decide)⟩,
    ⟨by decide, by decide, by decide, by decide, fun h => absurd h (by decide), by decide⟩⟩, ⟨_, rfl⟩, ⟨_, rfl⟩, rfl⟩

/-- Each register, and both sides of each guard. -/
theorem witness_HostReadsGiveTheRegisters :
    (∀ r, (facing (.read r) rxMid).env.inputs = .read r :: []) ∧ rxMid.rx.fileNameValid = true ∧
      rxMid.rx.lastAckValid = true ∧ rxFresh.rx.fileNameValid = false ∧ rxFresh.rx.lastAckValid = false ∧
      txWait.tx.phase = .ack ∧ txCall.tx.phase = .call := ⟨fun _ => rfl, by decide⟩

theorem witness_CfgTxSetsPortsWhenStopped : txCall.tx.status = .running ∧ State.reset.tx.status ≠ .running := by decide

theorem witness_TxStartCreatesASession :
    txCall.tx.status = .running ∧ State.reset.tx.status ≠ .running ∧ (List.replicate 21 (0x61 : Byte)).length > 20 ∧
      ¬(List.replicate 20 (0x61 : Byte)).length > 20 := by decide

/-- Done and failing sends; the only, so last, chunk and a first of two. -/
theorem witness_SendTransmitsTheNextChunk :
    (txCall.tx.status = .running ∧ txCall.tx.phase = .call ∧ txCall.env.txPort.sendOk = true) ∧
      (txGets .timeout false txCall).env.txPort.sendOk = false ∧
      chunkFlag block 1386 0 = .last ∧ chunkFlag block 1387 0 = .moreFollow := by decide

theorem witness_AckOkAdvancesTheSender :
    let s := txGets (.bytes a0) true txWait
    s.tx.status = .running ∧ s.tx.phase = .ack ∧ s.env.txPort.recv = .bytes a0 ∧ (decAck block a0).frameOk = true ∧
      (decAck block a0).header = some ⟨6000, 5000, 0x00, 0, 0x92E71379⟩ ∧ (0 : Bit) = s.tx.bit ∧
      12 ≤ s.tx.pending.length := by decide +kernel

/-- Each of the three causes, with a done and a failing send. -/
theorem witness_BadAckAndTimeoutRetransmit :
    (txWait.tx.status = .running ∧ txWait.tx.phase = .ack) ∧ (txGets .timeout true txWait).env.txPort = ⟨.timeout, true⟩ ∧
      (txGets .timeout false txWait).env.txPort = ⟨.timeout, false⟩ ∧ (decAck block []).frameOk = false ∧
      (decAck block a1).frameOk = true ∧ (decAck block a1).header = some ⟨6000, 5000, 0x01, 1, 0xE5E023EF⟩ ∧
      (1 : Bit) ≠ txWait.tx.bit := by decide +kernel

theorem witness_ChannelFailureStopsTheSender :
    (txWait.tx.status = .running ∧ txWait.tx.phase = .ack ∧ (txGets .failure true txWait).env.txPort.recv = .failure) ∧
      (txCall.tx.phase = .call ∧ (txGets .timeout false txCall).env.txPort.sendOk = false) ∧
      txSelect (txGets .timeout false txWait) = .timeout ∧ txSelect (txGets (.bytes []) false txWait) = .ackBadCorrupt ∧
      txSelect (txGets (.bytes a1) false txWait) = .ackBadWrongBit := by decide +kernel

/-- CHUNK_MAX one byte over MAX_PAYLOAD and a full chunk; in the block a failing send. -/
theorem witness_OversizedChunkStopsTheSender :
    (12 + min { block with chunkMax := 1389 }.chunkMax ((List.replicate 1389 (0x61 : Byte)).length - 0) > 1400) ∧
      (sendChunk block (txGets .timeout false txCall)).tx.status ≠ txCall.tx.status := by
  decide +kernel

theorem witness_SenderAdvancesOnlyOnAckOk :
    (∃ t, exec .txAckOk (txGets (.bytes a0) true txWait) = .next t ∧ decide (t.tx.bit ≠ txWait.tx.bit) = true) ∧
      ∃ t, step (facing (.txTurn (.bytes a0) true) txWait) = .next t ∧ decide (t.tx.bit ≠ txWait.tx.bit) = true :=
  ⟨next_of_after (by decide +kernel), next_of_after (by decide +kernel)⟩

theorem witness_PendingIsUnchangedInFlight :
    (∃ t, exec .txTimeout (txGets .timeout true txWait) = .next t ∧
      decide (Instr.txTimeout ≠ .hwReset ∧ txWait.tx.status = .running ∧ txWait.tx.phase = .ack) = true) ∧
      (∃ t, step (facing (.arrive .toTx e7 true) txWait) = .next t ∧ decide (t.tx.retryCount = 1) = true) ∧
      ∀ u, ¬Runs (facing (.arrive .toTx e7 true) txWait) .hwReset u := by
  refine ⟨next_of_after (by decide), next_of_after (by decide +kernel), ?_⟩
  rintro u ⟨x, rest, hx, hf⟩
  cases hx; cases hf

/-- One chunk at its least, a full one, and two with a last of one byte. -/
theorem witness_ChunksPartitionTheStream :
    20 ≤ (List.replicate 20 (0x00 : Byte)).length ∧ 0 + 1 < ((List.replicate 1387 (0x00 : Byte)).length + 1385) / 1386 ∧
      ¬0 + 1 < ((List.replicate 1386 (0x00 : Byte)).length + 1385) / 1386 := by decide +kernel

theorem witness_CfgRxSetsPortsWhenStopped : rxFresh.rx.status = .running ∧ State.reset.rx.status ≠ .running := by decide

theorem witness_RxRestartClearsTheReceiver : rxMid.rx.status = .running ∧ State.reset.rx.status ≠ .running := by decide

/-- A first packet that is LAST, and a later one that is not; the sends of both can be done or fail. -/
theorem witness_PacketOkDeliversAndAcknowledges :
    let s := rxGets (.bytes f1) true rxFresh
    let t := rxGets (.bytes e3) false rxMid
    (s.rx.status = .running ∧ s.env.rxPort.recv = .bytes f1 ∧ allZero f1 = false ∧ (decData block f1).frameOk = true ∧
        (decData block f1).header = some ⟨5000, 6000, 0x00, 0x02, 0, .last, 23, 0x1E3D8E22⟩ ∧ (0 : Bit) = s.rx.bit ∧
        s.rx.fileNameValid = false) ∧
      (t.rx.status = .running ∧ t.env.rxPort.recv = .bytes e3 ∧ allZero e3 = false ∧ (decData block e3).frameOk = true ∧
        (decData block e3).header = some ⟨0x1170, 0x0050, 0x01, 0x00, 1, .none, 1, 0xD917C30A⟩ ∧ (1 : Bit) = t.rx.bit ∧
        t.rx.fileNameValid = true ∧ t.env.rxPort.sendOk = false) := by decide +kernel

theorem witness_PacketCorruptOnlyCounts :
    let s := rxGets (.bytes [0x01]) true rxFresh
    s.rx.status = .running ∧ s.env.rxPort.recv = .bytes [0x01] ∧ allZero [0x01] = false ∧
      (decData block [0x01]).frameOk = false := by decide +kernel

/-- Without a last ack; with one, the send done or failing. -/
theorem witness_PacketWrongBitResendsTheLastAck :
    let s := rxGets (.bytes e8) true rxFresh
    (s.rx.status = .running ∧ s.env.rxPort.recv = .bytes e8 ∧ allZero e8 = false ∧ (decData block e8).frameOk = true ∧
        (decData block e8).header = some ⟨5000, 6000, 0x01, 0x01, 1, .moreFollow, 1, 0x98D8DD6E⟩ ∧ (1 : Bit) ≠ s.rx.bit ∧
        s.rx.lastAckValid = false) ∧
      (rxMid.rx.lastAckValid = true ∧ (decData block f1).frameOk = true ∧ (0 : Bit) ≠ rxMid.rx.bit) ∧
      (rxGets (.bytes f1) false rxMid).env.rxPort.sendOk = false := by decide +kernel

theorem witness_ZeroDatagramChangesNothing :
    rxMid.rx.status = .running ∧ (rxGets (.bytes (List.replicate 0 0x00)) true rxMid).env.rxPort.recv = .bytes [] ∧
      (rxGets (.bytes (List.replicate 2 0x00)) true rxMid).env.rxPort.recv = .bytes [0x00, 0x00] := by decide

theorem witness_TimeoutAndFailureEndTheReceiver :
    rxMid.rx.status = .running ∧ (rxGets .timeout true rxMid).env.rxPort.recv = .timeout ∧
      (rxGets .failure true rxMid).env.rxPort.recv = .failure := by decide

theorem witness_ReceiverAdvancesOnlyOnPacketOk :
    (∃ t, exec .rxPacketOkMore (rxGets (.bytes e3) true rxMid) = .next t ∧
      decide (rxMid.rx.status = .running ∧ t.rx.bit ≠ rxMid.rx.bit ∧ t.rx.buf ≠ rxMid.rx.buf) = true) ∧
      ∃ t, step (facing (.rxTurn (.bytes e3) true) rxMid) = .next t ∧ decide (t.rx.bit ≠ rxMid.rx.bit) = true :=
  ⟨next_of_after (by decide +kernel), next_of_after (by decide +kernel)⟩

/-- A step that appends and a step that empties. -/
theorem witness_ReassemblyBufferIsAppendOnly :
    (∃ t, step (facing (.arrive .toRx e3 true) rxMid) = .next t ∧ decide (t.rx.buf = [0x61, 0x62, 0x63, 0x00]) = true) ∧
      ∃ t, step (facing (.arrive .toRx e7 true) rxMid) = .next t ∧ decide (t.rx.buf = []) = true :=
  ⟨next_of_after (by decide +kernel), next_of_after (by decide +kernel)⟩

theorem witness_CountersCountTheirOwnEvents :
    ∃ t, exec .rxPacketCorrupt (rxGets (.bytes [0x01]) true rxFresh) = .next t ∧
      decide (Instr.rxPacketCorrupt ≠ .hwReset ∧ Instr.rxPacketCorrupt ≠ .rxRestart ∧ t.rx.cntCorrupt = 1) = true :=
  next_of_after (by decide +kernel)

/-- A runt that is no frame, a zero datagram, a valid frame and one with the other bit, each as a step. -/
theorem witness_CountersCountTheirOwnEvents_step :
    (∃ t, step (facing (.arrive .toRx [0x01] true) rxMid) = .next t ∧ decide (t.rx.cntCorrupt = 1) = true) ∧
      (∃ t, step (facing (.arrive .toRx [0x00] true) rxMid) = .next t ∧ decide (t.rx = rxMid.rx) = true) ∧
      (∃ t, step (facing (.arrive .toRx e3 true) rxMid) = .next t ∧ decide (t.rx.cntOk = rxMid.rx.cntOk + 1) = true) ∧
      (∃ t, step (facing (.arrive .toRx f1 true) rxMid) = .next t ∧ decide (t.rx.cntWrongBit = 1) = true) ∧
      ∀ i u, Runs (facing (.arrive .toRx [0x01] true) rxMid) i u → False := by
  refine ⟨next_of_after (by decide +kernel), next_of_after (by decide +kernel), next_of_after (by decide +kernel),
    next_of_after (by decide +kernel), ?_⟩
  rintro i u ⟨x, rest, hx, hf⟩
  cases hx; cases hf

theorem witness_CountersCountTheirOwnEvents_noFrame : ∀ flag f, Instr.rxPacketCorrupt ≠ dataRow flag f := by
  intro flag f; cases flag <;> exact Instr.noConfusion

theorem witness_DuplicateFrameIsAppendedOnce :
    (rxGets (.bytes e1) true rxFresh).env.rxPort = ⟨.bytes e1, true⟩ ∧
      ∃ t, exec .rxPacketOkMore (rxGets (.bytes e1) true rxFresh) = .next t ∧ decide (t.rx.bit = 1) = true :=
  ⟨rfl, next_of_after (by decide +kernel)⟩

/-- A LAST-flagged frame with bit 1, and one with bit 0. -/
theorem witness_CopyOfTheLastFrame :
    ((rxGets (.bytes e7) true rxMid).env.rxPort = ⟨.bytes e7, true⟩ ∧ rxMid.rx.bit = 1 ∧
        ∃ t, exec .rxPacketOkLast (rxGets (.bytes e7) true rxMid) = .next t ∧ decide (t.rx.bit = 0) = true) ∧
      (rxGets (.bytes f1) true rxFresh).env.rxPort = ⟨.bytes f1, true⟩ ∧ rxFresh.rx.bit ≠ 1 ∧
        ∃ t, exec .rxPacketOkLast (rxGets (.bytes f1) true rxFresh) = .next t ∧ decide (t.rx.bit = 0) = true :=
  ⟨⟨rfl, by decide, next_of_after (by decide +kernel)⟩, rfl, by decide, next_of_after (by decide +kernel)⟩

theorem witness_EndedShellsLeaveOnlyByAStart :
    (∃ t, exec (.txStart aTxt abc) State.reset = .next t ∧
        decide (State.reset.tx.status ≠ .running ∧ t.tx.status ≠ State.reset.tx.status) = true) ∧
      (∃ t, exec .rxRestart State.reset = .next t ∧
        decide (State.reset.rx.status ≠ .running ∧ t.rx.status ≠ State.reset.rx.status) = true) ∧
      ∃ t, step (facing (.host 0b1001 HostOperands.zero) State.reset) = .next t ∧ decide (t.rx.status = .running) = true :=
  ⟨next_of_after (by decide), next_of_after (by decide), next_of_after (by decide)⟩

/-- One instruction of each of the three clauses. -/
theorem witness_ShellsAreDisjoint :
    (∃ t, exec (TxRow.instr .timeout) (txGets .timeout true txWait) = .next t ∧ decide (t.tx.retryCount = 1) = true) ∧
      (∃ t, exec (RxRow.instr .idleTimeout) (rxGets .timeout true rxMid) = .next t ∧
        decide (t.rx.status = .idleEnd) = true) ∧
      ∃ t, exec (.crc32 [0x61]) txWait = .next t ∧ decide (t.env.result = some (.crc 0xE8B7BE43)) = true :=
  ⟨next_of_after (by decide), next_of_after (by decide), next_of_after (by decide +kernel)⟩

/-- A well-formed frame; each shell blocked in receive, not blocked, and with a closed end. -/
theorem witness_ArrivingDatagramIsJudgedOrKept :
    (⟨5000, 6000, 1, 0, 0x70D62CD3, []⟩ : DataFields).wellFormed = true ∧
      (rxMid.rx.status = .running ∧ rxMid.env.rxEnd.fails = false) ∧
      State.reset.rx.status ≠ .running ∧ (rxMid.onEnd .receiver EndState.close).env.rxEnd.fails ≠ false ∧
      (txWait.tx.status = .running ∧ txWait.tx.phase = .ack ∧ txWait.env.txEnd.fails = false) ∧
      ¬(txCall.tx.status = .running ∧ txCall.tx.phase = .ack) ∧
      (txWait.onEnd .sender EndState.close).env.txEnd.fails ≠ false := by decide

/-- LAST at WAIT_FOR_1 and MORE_FOLLOW at a fresh receiver. -/
theorem witness_ArrivingDataFrameIsDelivered :
    let f : DataFields := ⟨5000, 6000, 1, 0, 0x70D62CD3, []⟩
    let g : DataFields := ⟨5000, 6000, 0, 5, 0x7DA301EE, [0x68, 0x65, 0x6C, 0x6C, 0x6F]⟩
    (rxMid.rx.status = .running ∧ rxMid.env.rxEnd.fails = false ∧ rxMid.env.rxPort.sendOk = true ∧ f.wellFormed = true ∧
        f.checksum = crc32 block.crc ((dataFrameBytes .last f).take 8 ++ f.payload) ∧ f.altBit = rxMid.rx.bit) ∧
      rxFresh.rx.status = .running ∧ rxFresh.env.rxEnd.fails = false ∧ rxFresh.env.rxPort.sendOk = true ∧ g.wellFormed = true ∧
        g.checksum = crc32 block.crc ((dataFrameBytes .moreFollow g).take 8 ++ g.payload) ∧ g.altBit = rxFresh.rx.bit := by
  decide +kernel

/-- The right ack and a wrong one. -/
theorem witness_ArrivingAckFrameIsJudged :
    let f : AckFields := ⟨6000, 5000, 0, 0x92E71379⟩
    (txWait.tx.status = .running ∧ txWait.tx.phase = .ack ∧ txWait.env.txEnd.fails = false ∧ txWait.env.txPort.sendOk = true ∧
        12 ≤ txWait.tx.pending.length) ∧
      (f.checksum = crc32 block.crc ((ackFrameBytes f).take 5) ∧ f.altBit = txWait.tx.bit) ∧
      (1 : Bit) ≠ txWait.tx.bit := by decide +kernel

theorem witness_FaultFreeTransferDeliversTheFile :
    let s : State := { rxFresh with env := { Env.initial with inputs := transferInputs block aTxt abc ++ [] } }
    aTxt.length ≤ 20 ∧ s.tx.status ≠ .running ∧ s.rx.status = .running ∧ s.rx.fileNameValid = false ∧ s.rx.buf = [] ∧
      s.rx.bit = 0 ∧ s.env.toRx = [] ∧ s.env.toTx = [] ∧ s.env.txEnd.fails = false ∧ s.env.rxEnd.fails = false ∧
      s.env.inputs = transferInputs block aTxt abc ++ [] := by decide

/-- A move, a close and a reopening of each end, and a turn of each shell at a closed end, the sender in both phases. -/
theorem witness_ChannelMovesAndCloseActOnTheChannel :
    (facing (.channel (.inject .toTx a0)) txWait).env.inputs = .channel (.inject .toTx a0) :: [] ∧
      (∀ e, (facing (.close e) txWait).env.inputs = .close e :: []) ∧
      (∀ e, (facing (.reopen e) txWait).env.inputs = .reopen e :: []) ∧
      ((txWait.onEnd .sender EndState.close).tx.status = .running ∧ (txWait.onEnd .sender EndState.close).tx.phase = .ack ∧
        (facing (.txTurn .oldest true) (txWait.onEnd .sender EndState.close)).env.txEnd.closed = true ∧
        (facing (.txTurn .oldest true) (txWait.onEnd .sender EndState.close)).env.inputs = .txTurn .oldest true :: []) ∧
      ((txCall.onEnd .sender EndState.close).tx.status = .running ∧ (txCall.onEnd .sender EndState.close).tx.phase = .call) ∧
      ((rxMid.onEnd .receiver EndState.close).rx.status = .running ∧
        (facing (.rxTurn .timeout true) (rxMid.onEnd .receiver EndState.close)).env.rxEnd.closed = true ∧
        (facing (.rxTurn .timeout true) (rxMid.onEnd .receiver EndState.close)).env.inputs = .rxTurn .timeout true :: []) :=
  ⟨rfl, fun _ => rfl, fun _ => rfl, by decide⟩

/-- A reopened end whose close no call has seen: the turn of each shell that sees it. -/
theorem witness_ChannelMovesAndCloseActOnTheChannel_seen :
    (∃ t, step (facing (.txTurn .timeout true) (txWait.onEnd .sender fun _ => ⟨false, true⟩)) = .next t ∧
        decide (t.env.txEnd.abort = false ∧ t.tx.status = .errChannel) = true) ∧
      ∃ t, step (facing (.rxTurn .timeout true) (rxMid.onEnd .receiver fun _ => ⟨false, true⟩)) = .next t ∧
        decide (t.env.rxEnd.abort = false ∧ t.rx.status = .errChannel) = true :=
  ⟨next_of_after (by decide), next_of_after (by decide)⟩

theorem witness_InjectorPriorityAndPassThrough :
    let j : Injector := ⟨0, 0, 0, 0, ⟨0, 0, 0⟩⟩
    (j.pLoss = 0 ∧ j.pDup = 0 ∧ j.pCorrupt = 0) ∧ { j with pLoss := 2 ^ 32 }.pLoss = 2 ^ 32 ∧
      ({ j with pDup := 2 ^ 32 }.pLoss = 0 ∧ { j with pDup := 2 ^ 32 }.pDup = 2 ^ 32) := by decide

theorem witness_InjectedCorruptionIsDetected :
    frameOf (encData block 5000 6000 0 .moreFollow [0x68, 0x65, 0x6C, 0x6C, 0x6F]) = some e1 ∧
      ([0x68, 0x65, 0x6C, 0x6C, 0x6F] : Bytes) ≠ [] := by decide +kernel

end Sys2Proof.Tests
end

