-- ==== Sys2Proof/Proofs/Crc32.lean ====
section
/-!
PROOF. CRC32 and CRC32_VERIFY (R133, R142): what the two instructions answer, and what the parts of the CRC are at the
default parameters.
-/

namespace Sys2Proof.Machine

/-! The two instructions answer, and do nothing else. -/

theorem exec_crc32 (B : Bytes) (s : State) : exec (.crc32 B) s = .next (s.answer (.crc (crc32 block.crc B))) := rfl

theorem exec_crc32Verify (B : Bytes) (expected : Word) (s : State) :
    exec (.crc32Verify B expected) s = .next (s.answer (.verified (crc32Verify block.crc B expected))) := rfl

/-- An answer is on `env.result`; nothing else changes. -/
theorem State.answer_eq (s : State) (r : OpResult) :
    s.answer r = { s with env := { s.env with result := some r } } := rfl

/-! The CRC at the default parameters: reflected on both sides. -/

theorem crcBit_default (c : Word) :
    crcBit crcDefault c = if c.getLsbD 0 then (c >>> 1) ^^^ 0xEDB88320 else c >>> 1 := by
  simp [crcBit, crcDefault]

theorem crcEnter_default (c : Word) (b : Byte) : crcEnter crcDefault c b = c ^^^ b.setWidth 32 := by
  simp [crcEnter, crcDefault]

theorem crcValue_default (c : Word) : crcValue crcDefault c = c ^^^ 0xFFFFFFFF := by
  simp [crcValue, crcDefault]

/-- The inner loop of R133, eight turns for one byte. -/
theorem crcUpdate_default (c : Word) (b : Byte) :
    crcUpdate crcDefault c b =
      (fun c : Word => if c.getLsbD 0 then (c >>> 1) ^^^ 0xEDB88320 else c >>> 1)^[8] (c ^^^ b.setWidth 32) := by
  rw [crcUpdate, crcEnter_default, funext crcBit_default]

/-- The outer loop of R133, with the initial value and the complement. -/
theorem crc32_default (B : Bytes) :
    crc32 crcDefault B =
      (B.foldl (fun c b =>
          (fun c : Word => if c.getLsbD 0 then (c >>> 1) ^^^ 0xEDB88320 else c >>> 1)^[8] (c ^^^ b.setWidth 32))
        0xFFFFFFFF) ^^^ 0xFFFFFFFF := by
  have init : crcInit crcDefault = 0xFFFFFFFF := rfl
  have update := funext fun c => funext (crcUpdate_default c)
  rw [crc32, crcValue_default, crcRun, init, update]

/-- All 32 bits are compared. -/
theorem crc32Verify_eq_decide (p : CrcParams) (B : Bytes) (expected : Word) :
    crc32Verify p B expected = decide (crc32 p B = expected) := beq_eq_decide _ _

/-- Settles O3: CRC32 answers `crc32` at the block's parameters, which is the loop written out. -/
theorem crc32RunsTheBitwiseLoop : Obligations.Crc32RunsTheBitwiseLoop := by
  intro B s
  have crc : block.crc = crcDefault := rfl
  rw [exec_crc32, State.answer_eq, crc, crc32_default]

/-- Settles O8: the answer of CRC32_VERIFY is the comparison of the whole words. -/
theorem crc32VerifyComparesAllBits : Obligations.Crc32VerifyComparesAllBits := by
  intro B expected s
  rw [exec_crc32Verify, State.answer_eq, crc32Verify_eq_decide]

end Sys2Proof.Machine
end

