-- ==== Sys2Proof/Proofs/FrameEncoder.lean ====
section
/-!
PROOF. ENC_DATA and ENC_ACK (R161, R163, R170): the fields of a frame as bytes of numbers, and what the two instructions
answer.
-/

namespace Sys2Proof.Machine

/-! The fields, byte by byte (R14). -/

/-- A byte cut out of a word is the quotient modulo 2^8. -/
theorem extractLsb'_eq_ofNat_div {w : Nat} (v : BitVec w) (k : Nat) :
    v.extractLsb' k 8 = BitVec.ofNat 8 (v.toNat / 2 ^ k) := by
  rw [BitVec.extractLsb', Nat.shiftRight_eq_div_pow]

/-- `put16(port mod 2^16)`: a wider number loses its high bits (R164). -/
theorem put16_big_low16 (n : Nat) : put16 .big (low16 n) = [BitVec.ofNat 8 (n / 256), BitVec.ofNat 8 n] := by
  have high : (low16 n).extractLsb' 8 8 = BitVec.ofNat 8 (n / 256) := by
    rw [extractLsb'_eq_ofNat_div, low16]; bv_omega
  have low : (low16 n).extractLsb' 0 8 = BitVec.ofNat 8 n := by
    rw [extractLsb'_eq_ofNat_div, low16]; bv_omega
  rw [put16, high, low]

/-- `put32(c)`. -/
theorem put32_big (v : Word) :
    put32 .big v = [BitVec.ofNat 8 (v.toNat / 2 ^ 24), BitVec.ofNat 8 (v.toNat / 2 ^ 16),
      BitVec.ofNat 8 (v.toNat / 2 ^ 8), BitVec.ofNat 8 v.toNat] := by
  simp only [put32, extractLsb'_eq_ofNat_div, pow_zero, Nat.div_one]

/-- `zext_8(altBit)`. -/
theorem altByteOf_eq_ofNat (a : Bit) : altByteOf a = BitVec.ofNat 8 a.toNat := (BitVec.ofNat_toNat 8 a).symm

/-! The headers of the block's frames: both port fields are big-endian. -/

theorem dataHeaderBytes_block (src dst : Nat) (a : Bit) (f : EndFlag) (n : Nat) :
    dataHeaderBytes block src dst a f n =
      [BitVec.ofNat 8 (src / 256), BitVec.ofNat 8 src, BitVec.ofNat 8 (dst / 256), BitVec.ofNat 8 dst,
        BitVec.ofNat 8 a.toNat, flagByteOf f, BitVec.ofNat 8 (n / 256), BitVec.ofNat 8 n] := by
  have order : block.portOrder = .big := rfl
  have length : BitVec.ofNat 16 n = low16 n := rfl
  rw [dataHeaderBytes, order, length, put16_big_low16, put16_big_low16, put16_big_low16, altByteOf_eq_ofNat]
  rfl

theorem ackHeaderBytes_block (src dst : Nat) (a : Bit) :
    ackHeaderBytes block src dst a =
      [BitVec.ofNat 8 (src / 256), BitVec.ofNat 8 src, BitVec.ofNat 8 (dst / 256), BitVec.ofNat 8 dst,
        BitVec.ofNat 8 a.toNat] := by
  have order : block.portOrder = .big := rfl
  rw [ackHeaderBytes, order, put16_big_low16, put16_big_low16, altByteOf_eq_ofNat]
  rfl

/-! The two instructions answer, and do nothing else. -/

/-- The refusal exactly above the bound of R163, otherwise the packed frame. -/
theorem exec_encData (src dst : Nat) (a : Bit) (f : EndFlag) (p : Bytes) (s : State) :
    exec (.encData src dst a f p) s = .next (s.answer
      (if 12 + p.length > 1400 then .error (.payloadTooLarge p.length) else .frame (packData block src dst a f p))) := by
  have maxFrame : block.maxFrame = 1400 := rfl
  have arm : exec (.encData src dst a f p) s = execEncData src dst a f p s := rfl
  rcases encData_cases block src dst a f p with ⟨tooLarge, refused⟩ | ⟨fits, packed⟩
  · rw [maxFrame, Config.headerSize] at tooLarge
    rw [arm, execEncData, refused, if_pos tooLarge]
  · rw [maxFrame, Config.headerSize] at fits
    rw [arm, execEncData, packed, if_neg (Nat.not_lt.mpr fits)]

theorem exec_encAck (src dst : Nat) (a : Bit) (s : State) :
    exec (.encAck src dst a) s = .next (s.answer (.frame (encAck block src dst a))) := rfl

/-- Settles O9: ENC_DATA answers the refusal or the packed frame, whose header and checksum are the bytes named. -/
theorem encDataPacksTheFrame : Obligations.EncDataPacksTheFrame := by
  intro src dst a f p s flag H c C r
  have flag_eq : flag = flagByteOf f := by cases f <;> rfl
  have header : dataHeaderBytes block src dst a f p.length = H := by rw [dataHeaderBytes_block, ← flag_eq]
  have checksum : put32 block.crcFieldOrder (crc32 block.crc (H ++ p)) = C := put32_big _
  have frame : packData block src dst a f p = H ++ C ++ p := by rw [packData, header, checksum]
  rw [exec_encData, frame, State.answer_eq]

/-- Settles O10: ENC_ACK answers the packed ack frame, whose header and checksum are the bytes named. -/
theorem encAckPacksNineBytes : Obligations.EncAckPacksNineBytes := by
  intro src dst a s H c C
  have header : ackHeaderBytes block src dst a = H := ackHeaderBytes_block src dst a
  have checksum : put32 block.crcFieldOrder (crc32 block.crc H) = C := put32_big _
  have frame : encAck block src dst a = H ++ C := by rw [encAck, header, checksum]
  rw [exec_encAck, frame, State.answer_eq]

end Sys2Proof.Machine
end

