-- ==== Sys2Proof/Proofs/FrameDecoder.lean ====
section
/-!
PROOF. DEC_DATA and DEC_ACK (R181, R196): the verdict bits as comparisons of numbers, the decoders case by case, and what
the two instructions report.
-/

namespace Sys2Proof.Machine

/-! The slices of R186, R188 and R199. -/

/-- `B[0:n]`. -/
theorem slice_zero (B : Bytes) (n : Nat) : slice B 0 n = B.take n := rfl

/-- `B[n:L]`: all that follows the first `n` bytes. -/
theorem slice_to_length (B : Bytes) (n : Nat) : slice B n B.length = B.drop n :=
  List.take_of_length_le (List.length_drop ..).le

/-! The verdict bits (R184 to R187, R198 to R200). -/

theorem dataRunt_iff (D : Datagram) : dataRunt D = true ↔ D.length < 12 := decide_eq_true_iff

theorem dataLengthOk_eq_decide (D : Datagram) : dataLengthOk D = decide (D.length = 12 + (be16 D 6).toNat) :=
  beq_eq_decide _ _

theorem dataFieldsOk_eq_decide (D : Datagram) :
    dataFieldsOk D = decide ((byteAt D 4).toNat ≤ 1 ∧ (byteAt D 5).toNat ≤ 2) := (Bool.decide_and _ _).symm

theorem dataChecksumOk_eq_decide (c : Config) (D : Datagram) :
    dataChecksumOk c D = decide (crc32 c.crc (D.take 8 ++ D.drop 12) = get32 c.crcFieldOrder D 8) := by
  rw [dataChecksumOk, crc32Verify_eq_decide, slice_zero, slice_to_length, Config.crcCoverHdr, Config.headerSize]

theorem ackLengthOk_iff (D : Datagram) : ackLengthOk D = true ↔ D.length = 9 := beq_iff_eq

theorem ackChecksumOk_eq_decide (c : Config) (D : Datagram) :
    ackChecksumOk c D = decide (crc32 c.crc (D.take 5) = get32 c.crcFieldOrder D 5) := by
  rw [ackChecksumOk, crc32Verify_eq_decide, slice_zero, Config.ackCover]

/-! The decoders, case by case. -/

/-- R184. -/
theorem decData_of_runt (c : Config) {D : Datagram} (short : D.length < 12) :
    decData c D =
      { runt := true, lengthOk := false, fieldsOk := false, checksumOk := false, frameOk := false, header := none
        payload := [] } := by
  rw [decData, if_pos ((dataRunt_iff D).mpr short)]

/-- With a complete header, the two branches of R181's pseudocode in one record: where the length is wrong, the guard
`lengthOk` makes `checksumOk` and `frameOk` false and the payload empty. -/
theorem decData_of_complete_header (c : Config) {D : Datagram} (complete : ¬D.length < 12) :
    decData c D =
      { runt := false, lengthOk := dataLengthOk D, fieldsOk := dataFieldsOk D
        checksumOk := dataLengthOk D && dataChecksumOk c D
        frameOk := dataLengthOk D && dataFieldsOk D && (dataLengthOk D && dataChecksumOk c D)
        header := some (dataHeaderOf c D), payload := if dataLengthOk D then D.drop 12 else [] } := by
  rw [decData, if_neg (mt (dataRunt_iff D).mp complete)]
  cases dataLengthOk D
  case false => rfl
  case true => rw [if_pos rfl, if_pos rfl, slice_to_length, Config.headerSize]; rfl

/-- R198. -/
theorem decAck_of_length_ne (c : Config) {D : Datagram} (wrong : D.length ≠ 9) :
    decAck c D = { lengthOk := false, fieldsOk := false, checksumOk := false, frameOk := false, header := none } := by
  rw [decAck, if_neg (mt (ackLengthOk_iff D).mp wrong)]

theorem decAck_of_length_eq (c : Config) {D : Datagram} (nine : D.length = 9) :
    decAck c D =
      { lengthOk := true, fieldsOk := ackFieldsOk D, checksumOk := ackChecksumOk c D
        frameOk := ackFieldsOk D && ackChecksumOk c D, header := some (ackHeaderOf c D) } := by
  rw [decAck, if_pos ((ackLengthOk_iff D).mpr nine)]

/-- Bit 0 of the altBit byte (R93). -/
theorem altBitOf_toNat (b : Byte) : (altBitOf b).toNat = b.toNat % 2 := BitVec.toNat_setWidth ..

/-! The two instructions answer, and do nothing else. -/

theorem exec_decData (D : Datagram) (s : State) :
    exec (.decData D) s = .next (s.answer (.data (decData block D))) := rfl

theorem exec_decAck (D : Datagram) (s : State) :
    exec (.decAck D) s = .next (s.answer (.ack (decAck block D))) := rfl

/-- Settles O12: the runt verdict under 12 bytes; otherwise the record of `decData_of_complete_header`, where `checksumOk`
counts only when the length is right, and then the payload is `D[12:L]`. -/
theorem decDataReportsEveryOutput : Obligations.DecDataReportsEveryOutput := by
  intro D s
  refine ⟨decData block D, by rw [exec_decData, State.answer_eq], ?_⟩
  split
  case isTrue short => exact decData_of_runt block short
  case isFalse complete =>
    have checksumOk : (dataLengthOk D && dataChecksumOk block D) = (dataLengthOk D &&
        decide (crc32 block.crc (D.take 8 ++ if dataLengthOk D then D.drop 12 else []) = get32 .big D 8)) := by
      cases dataLengthOk D
      case false => rfl
      case true => exact dataChecksumOk_eq_decide block D
    rw [decData_of_complete_header block complete]
    exact ⟨dataHeaderOf block D, rfl, rfl, be16_toNat D 0, be16_toNat D 2, rfl, altBitOf_toNat _, rfl, rfl,
      be16_toNat D 6, get32_big_toNat D 8, dataLengthOk_eq_decide D, dataFieldsOk_eq_decide D, rfl, checksumOk, rfl⟩

/-- Settles O13: all verdicts false off nine bytes; otherwise the record of `decAck_of_length_eq`. -/
theorem decAckReportsEveryOutput : Obligations.DecAckReportsEveryOutput := by
  intro D s
  refine ⟨decAck block D, by rw [exec_decAck, State.answer_eq], ?_⟩
  split
  case isTrue wrong => exact decAck_of_length_ne block wrong
  case isFalse nine =>
    rw [decAck_of_length_eq block (not_not.mp nine)]
    exact ⟨ackHeaderOf block D, rfl, rfl, be16_toNat D 0, be16_toNat D 2, rfl, altBitOf_toNat _,
      get32_big_toNat D 5, rfl, ackChecksumOk_eq_decide block D, rfl⟩

end Sys2Proof.Machine
end

