-- ==== Sys2Proof/Proofs/SenderFsm.lean ====
section
/-!
PROOF. The sender shell (43_sender_fsm.md): CFG_TX and TX_START (R212, R213), what selects each row of R111 in a running
session, and what SEND, ACK_OK, a retransmission and a channel failure then do (R218 to R226).
-/

namespace Sys2Proof.Machine

/-! The two host commands, case by case. -/

section HostCommands

variable {src dst : Nat} {name file : Bytes} {s : State}

theorem exec_cfgTx_of_running (running : s.tx.status = .running) :
    exec (.cfgTx src dst) s = .next (s.answer .commandRefused) := if_pos running

theorem exec_cfgTx_of_stopped (stopped : s.tx.status ≠ .running) :
    exec (.cfgTx src dst) s = .next ((configureTx src dst s).answer .commandDone) := if_neg stopped

theorem exec_txStart_of_running (running : s.tx.status = .running) :
    exec (.txStart name file) s = .next (s.answer .commandRefused) := if_pos running

theorem exec_txStart_of_long_name (stopped : s.tx.status ≠ .running) (tooLong : name.length > 20) :
    exec (.txStart name file) s = .next ((refuseName s).answer .nameTooLong) :=
  (if_neg stopped).trans (if_pos tooLong)

theorem exec_txStart_of_fitting_name (stopped : s.tx.status ≠ .running) (fits : ¬name.length > 20) :
    exec (.txStart name file) s = .next ((startTx block name file s).answer .commandDone) :=
  (if_neg stopped).trans (if_neg fits)

end HostCommands

/-- Settles O30: refused while running; otherwise `configureTx` writes the two ports. -/
theorem cfgTxSetsPortsWhenStopped : Obligations.CfgTxSetsPortsWhenStopped := by
  intro src dst s
  by_cases running : s.tx.status = .running
  · exact ⟨some .commandRefused, by rw [if_pos running]; exact exec_cfgTx_of_running running⟩
  · exact ⟨some .commandDone, by rw [if_neg running]; exact exec_cfgTx_of_stopped running⟩

/-- Settles O31: refused while running; otherwise the length of the name decides between TX_ERR_NAME and `startTx`. -/
theorem txStartCreatesASession : Obligations.TxStartCreatesASession := by
  intro name file s
  by_cases running : s.tx.status = .running
  · exact ⟨some .commandRefused, by rw [if_pos running]; exact exec_txStart_of_running running⟩
  · by_cases tooLong : name.length > 20
    · exact ⟨some .nameTooLong, by
        rw [if_neg running, if_pos tooLong]; exact exec_txStart_of_long_name running tooLong⟩
    · exact ⟨some .commandDone, by
        rw [if_neg running, if_neg tooLong]; exact exec_txStart_of_fitting_name running tooLong⟩

/-! What selects a row (R111). -/

theorem AckVerdict.bit_of_header {v : AckVerdict} {h : AckHeader} (header : v.header = some h) : v.bit = some h.altBit := by
  rw [AckVerdict.bit, header]; rfl

theorem txSelect_of_call {s : State} (call : s.tx.phase = .call) : txSelect s = .send := by
  simp only [txSelect_eq, call]

section WaitAck

variable {s : State} {d : Datagram} {h : AckHeader}

theorem txSelect_of_failure (waiting : s.tx.phase = .ack) (failed : s.env.txPort.recv = .failure) :
    txSelect s = .channelFailure := by
  simp only [txSelect_eq, waiting, failed]

theorem txSelect_of_timeout (waiting : s.tx.phase = .ack) (timeout : s.env.txPort.recv = .timeout) :
    txSelect s = .timeout := by
  simp only [txSelect_eq, waiting, timeout]

theorem txSelect_of_corrupt_ack (waiting : s.tx.phase = .ack) (received : s.env.txPort.recv = .bytes d)
    (corrupt : (decAck block d).frameOk = false) : txSelect s = .ackBadCorrupt := by
  simp only [txSelect_eq, waiting, received, corrupt, if_true]

/-- An ack that passes is judged by its bit. -/
theorem txSelect_of_valid_ack (waiting : s.tx.phase = .ack) (received : s.env.txPort.recv = .bytes d)
    (valid : (decAck block d).frameOk = true) (header : (decAck block d).header = some h) :
    txSelect s = if h.altBit = s.tx.bit then .ackOk else .ackBadWrongBit := by
  simp only [txSelect_eq, waiting, received, valid, AckVerdict.bit_of_header header, Option.some.injEq,
    Bool.true_eq_false, if_false]

end WaitAck

/-! What a selected row does, both ways its send can end. -/

/-- The chunk at the offset with the numbers of the block (R216, R217). -/
theorem nextFrame_block_eq (t : TxRegs) :
    nextFrame block t = encData block t.srcPort.toNat t.dstPort.toNat t.bit
      (if t.bytesProcessed + min 1386 (t.T.length - t.bytesProcessed) = t.T.length then .last else .moreFollow)
      ((t.T.drop t.bytesProcessed).take (min 1386 (t.T.length - t.bytesProcessed))) := by
  rw [nextFrame, chunkPayload, slice, Nat.add_sub_cancel_left]; rfl

/-- SEND (R218, R226). -/
theorem exec_txSend {s : State} (running : s.tx.status = .running) (call : s.tx.phase = .call) :
    ∃ F, nextFrame block s.tx = .ok F ∧ exec .txSend s = .next
      (if s.env.txPort.sendOk then
        { s with tx := { s.tx with pending := F, timerArmed := true, phase := .ack }
                 env := { s.env with toRx := s.env.toRx ++ [F] } }
      else { s with tx := { s.tx with pending := F, timerArmed := false, status := .errChannel } }) := by
  have action : exec .txSend s = .next (sendChunk block s) := exec_txRow running (txSelect_of_call call)
  obtain ⟨F, encoded, ⟨done, sent⟩ | ⟨failed, stopped⟩⟩ := sendChunk_cases s
  · exact ⟨F, encoded, by rw [action, sent, done, if_pos rfl]; rfl⟩
  · exact ⟨F, encoded, by rw [action, stopped, failed, if_neg Bool.false_ne_true]; rfl⟩

section Retransmission

variable {row : TxRow} (resends : row = .timeout ∨ row = .ackBadCorrupt ∨ row = .ackBadWrongBit)
include resends

/-- The three rows have one action (R222, R224). -/
theorem txAction_of_resends (s : State) : txAction block row s = .next (retransmit s) := by
  obtain rfl | rfl | rfl := resends <;> rfl

/-- ACK_BAD and TIMEOUT (R222, R224, R226). -/
theorem exec_of_resends {s : State} (running : s.tx.status = .running) (selected : txSelect s = row) :
    exec row.instr s = .next
      (if s.env.txPort.sendOk then
        { s with tx := { s.tx with retryCount := s.tx.retryCount + 1, timerArmed := true }
                 env := { s.env with toRx := s.env.toRx ++ [s.tx.pending] } }
      else { s with tx := { s.tx with status := .errChannel, timerArmed := false } }) := by
  rw [exec_txRow running selected, txAction_of_resends resends]
  obtain ⟨done, resent⟩ | ⟨failed, stopped⟩ := retransmit_cases s
  · rw [resent, done, if_pos rfl]; rfl
  · rw [stopped, failed, if_neg Bool.false_ne_true]; rfl

end Retransmission

/-- Settles O32: WAIT_CALL selects SEND, whose frame is the encoded chunk. -/
theorem sendTransmitsTheNextChunk : Obligations.SendTransmitsTheNextChunk := by
  intro s running call o n flag
  obtain ⟨F, encoded, sends⟩ := exec_txSend running call
  exact ⟨F, (nextFrame_block_eq s.tx).symm.trans encoded, sends⟩

/-- Settles O33: a passing ack with the current bit selects ACK_OK, which a pending frame with a header lets through. -/
theorem ackOkAdvancesTheSender : Obligations.AckOkAdvancesTheSender := by
  intro s d h running waiting received valid header sameBit hasHeader
  have selected : txSelect s = .ackOk := by
    rw [txSelect_of_valid_ack waiting received valid header, if_pos sameBit]
  have action : exec .txAckOk s = acceptAck s := exec_txRow running selected
  rw [action, acceptAck_next.mpr ⟨hasHeader, rfl⟩, running]; rfl

/-- Settles O34: each of the three causes selects a row that retransmits. -/
theorem badAckAndTimeoutRetransmit : Obligations.BadAckAndTimeoutRetransmit := by
  intro s running waiting t
  refine ⟨fun timeout => ?_, fun d received corrupt => ?_, fun d h received valid header wrongBit => ?_⟩
  · exact exec_of_resends (.inl rfl) running (txSelect_of_timeout waiting timeout)
  · exact exec_of_resends (.inr (.inl rfl)) running (txSelect_of_corrupt_ack waiting received corrupt)
  · have selected : txSelect s = .ackBadWrongBit := by
      rw [txSelect_of_valid_ack waiting received valid header, if_neg wrongBit]
    exact exec_of_resends (.inr (.inr rfl)) running selected

/-- Settles O35: the Failure of a receive selects CHANNEL_FAILURE; that of a send is the second branch of SEND and of a
retransmission. -/
theorem channelFailureStopsTheSender : Obligations.ChannelFailureStopsTheSender := by
  intro s running
  refine ⟨fun waiting failed => ?_, fun call notSent => ?_, fun row resends selected notSent => ?_⟩
  · exact exec_txRow running (txSelect_of_failure waiting failed)
  · obtain ⟨F, encoded, sends⟩ := exec_txSend running call
    exact ⟨F, encoded, by rw [sends, notSent, if_neg Bool.false_ne_true]⟩
  · rw [exec_of_resends resends running selected, notSent, if_neg Bool.false_ne_true]

end Sys2Proof.Machine
end

