-- ==== Sys2Proof/Proofs/ReceiverFsm.lean ====
section
/-!
PROOF. The receiver shell (44_receiver_fsm.md): CFG_RX (R252), what selects each row of R112 for a received datagram, and
what PACKET_OK, PACKET_CORRUPT, PACKET_WRONG_BIT and a zero datagram then do (R256 to R263, R266).
-/

namespace Sys2Proof.Machine

/-! CFG_RX, case by case. -/

section CfgRx

variable {src dst : Nat} {s : State}

theorem exec_cfgRx_of_running (running : s.rx.status = .running) :
    exec (.cfgRx src dst) s = .next (s.answer .commandRefused) := if_pos running

theorem exec_cfgRx_of_stopped (stopped : s.rx.status ≠ .running) :
    exec (.cfgRx src dst) s = .next ((configureRx src dst s).answer .commandDone) := if_neg stopped

end CfgRx

/-- Settles O40: refused while running; otherwise `configureRx` writes the two ports. -/
theorem cfgRxSetsPortsWhenStopped : Obligations.CfgRxSetsPortsWhenStopped := by
  intro src dst s
  by_cases running : s.rx.status = .running
  · exact ⟨some .commandRefused, by rw [if_pos running]; exact exec_cfgRx_of_running running⟩
  · exact ⟨some .commandDone, by rw [if_neg running]; exact exec_cfgRx_of_stopped running⟩

/-! What selects a row (R112). -/

section Header

variable {v : DataVerdict} {h : DataHeader} (header : v.header = some h)
include header

theorem DataVerdict.bit_of_header : v.bit = some h.altBit := by rw [DataVerdict.bit, header]; rfl

theorem DataVerdict.isLast_of_header : v.isLast = decide (h.endFlag = .last) := by
  rw [DataVerdict.isLast, header, beq_eq_decide]; exact decide_eq_decide.mpr Option.some_inj

end Header

/-- The row of R112 for a packet with the expected bit. -/
def packetOkRow (flag : WireFlag) : RxRow := if flag = .last then .packetOkLast else .packetOkMore

theorem packetOkRow_instr (flag : WireFlag) :
    (packetOkRow flag).instr = if flag = .last then .rxPacketOkLast else .rxPacketOkMore :=
  apply_ite RxRow.instr ..

section Received

variable {s : State} {d : Datagram} {h : DataHeader} (received : s.env.rxPort.recv = .bytes d)
include received

theorem rxSelect_of_zero_datagram (zero : allZero d = true) : rxSelect s = .zeroDatagram := by
  simp only [rxSelect_eq, received, zero, if_true]

theorem rxSelect_of_corrupt_packet (nonzero : allZero d = false) (corrupt : (decData block d).frameOk = false) :
    rxSelect s = .packetCorrupt := by
  simp only [rxSelect_eq, received, nonzero, corrupt, Bool.false_eq_true, if_true, if_false]

/-- A frame that passes is judged by its bit, then by its flag. -/
theorem rxSelect_of_valid_packet (nonzero : allZero d = false) (valid : (decData block d).frameOk = true)
    (header : (decData block d).header = some h) :
    rxSelect s = if h.altBit = s.rx.bit then packetOkRow h.endFlag else .packetWrongBit := by
  simp only [rxSelect_eq, received, nonzero, valid, DataVerdict.bit_of_header header,
    DataVerdict.isLast_of_header header, packetOkRow, ne_eq, ite_not, Option.some.injEq, decide_eq_true_eq,
    Bool.false_eq_true, Bool.true_eq_false, if_false]

/-- The two rows of PACKET_OK have one action (R258). -/
theorem rxAction_packetOkRow (flag : WireFlag) :
    rxAction block (packetOkRow flag) s = .next (acceptPacket block d s) := by
  have datagram : s.env.rxPort.recv.datagram = d := by rw [received]; rfl
  rw [← datagram, packetOkRow]
  split <;> rfl

end Received

/-! What PACKET_OK's first action leaves alone. -/

theorem takePayload_cntOk (c : Config) (p : Bytes) (r : RxRegs) : (takePayload c p r).cntOk = r.cntOk := by
  unfold takePayload; split <;> rfl

theorem takePayload_bit (c : Config) (p : Bytes) (r : RxRegs) : (takePayload c p r).bit = r.bit := by
  unfold takePayload; split <;> rfl

/-- After the first action, the record of R258 counts and flips the registers as they were before it. -/
theorem recordAck_takePayload (c : Config) (A p : Bytes) (r : RxRegs) :
    recordAck A (takePayload c p r) =
      { takePayload c p r with lastAck := A, lastAckValid := true, cntOk := r.cntOk + 1, bit := 1 - r.bit } := by
  rw [recordAck, takePayload_cntOk, takePayload_bit]

/-- Settles O42: a valid frame with the expected bit selects the PACKET_OK row of its flag, whose action hands over after
LAST, records otherwise, and keeps only the append where the send fails. -/
theorem packetOkDeliversAndAcknowledges : Obligations.PacketOkDeliversAndAcknowledges := by
  intro s d h running received nonzero valid header sameBit p m r A
  have selected : rxSelect s = packetOkRow h.endFlag := by
    rw [rxSelect_of_valid_packet received nonzero valid header, if_pos sameBit]
  have last : (decData block d).isLast = decide (h.endFlag = .last) := DataVerdict.isLast_of_header header
  rw [← packetOkRow_instr, exec_rxRow running selected, rxAction_packetOkRow received]
  obtain ⟨done, more, accepted⟩ | ⟨done, ends, accepted⟩ | ⟨failed, stopped⟩ := acceptPacket_cases d s
  · rw [accepted, recordAck_takePayload, done, if_pos rfl, if_neg (of_decide_eq_false (last.symm.trans more))]; rfl
  · rw [accepted, recordAck_takePayload, done, if_pos rfl, if_pos (of_decide_eq_true (last.symm.trans ends))]; rfl
  · rw [stopped, failed, if_neg Bool.false_ne_true]; rfl

/-- Settles O43: a datagram that DEC_DATA rejects selects PACKET_CORRUPT. -/
theorem packetCorruptOnlyCounts : Obligations.PacketCorruptOnlyCounts := by
  intro s d running received nonzero corrupt
  exact exec_rxRow running (rxSelect_of_corrupt_packet received nonzero corrupt)

/-- Settles O44: a valid frame with the other bit selects PACKET_WRONG_BIT, which counts and resends what it can. -/
theorem packetWrongBitResendsTheLastAck : Obligations.PacketWrongBitResendsTheLastAck := by
  intro s d h running received nonzero valid header wrongBit
  have selected : rxSelect s = .packetWrongBit := by
    rw [rxSelect_of_valid_packet received nonzero valid header, if_neg wrongBit]
  have action : exec .rxPacketWrongBit s = .next (resendAck s) := exec_rxRow running selected
  rw [action]
  obtain ⟨noAck, counted⟩ | ⟨stored, done, resent⟩ | ⟨stored, failed, stopped⟩ := resendAck_cases s
  · rw [counted, if_pos noAck]; rfl
  · rw [resent, stored, if_neg Bool.false_ne_true.symm, done, if_pos rfl]; rfl
  · rw [stopped, stored, if_neg Bool.false_ne_true.symm, failed, if_neg Bool.false_ne_true]; rfl

/-- Settles O45: a zero datagram selects ZERO_DATAGRAM, whose action is the identity. -/
theorem zeroDatagramChangesNothing : Obligations.ZeroDatagramChangesNothing := by
  intro s L running received
  exact exec_rxRow running (rxSelect_of_zero_datagram received (allZero_zeros L))

end Sys2Proof.Machine
end

