-- ==== Sys2Proof/Proofs/Crc32Forms.lean ====
section
/-!
PROOF. CRC-32 as a code (R134, R136, R138, R140): the loop under bit reversal is the polynomial division, the loop is linear
and so eight turns are a table entry, and a byte that differs shows in the result.
-/

namespace Sys2Proof.Machine

/-! Bit reversal. -/

theorem reverse_xor {w : Nat} (x y : BitVec w) : (x ^^^ y).reverse = x.reverse ^^^ y.reverse := by
  ext i hi
  simp only [BitVec.getElem_reverse, BitVec.getElem_xor, BitVec.getMsbD_xor]

/-- What leaves at bit 0 of a register leaves at bit 31 of the reversed one. -/
theorem reverse_ushiftRight_one (c : Word) : (c >>> 1).reverse = c.reverse <<< 1 := by
  apply BitVec.eq_of_getLsbD_eq
  intro i hi
  rw [BitVec.getLsbD_reverse, BitVec.getMsbD_ushiftRight, BitVec.getLsbD_shiftLeft, BitVec.getLsbD_reverse]
  simp [hi]

/-- A byte that enters at the low end enters a reversed register reversed, at the high end. -/
theorem reverse_setWidth_byte (b : Byte) : (b.setWidth 32).reverse = b.reverse.setWidth 32 <<< 24 := by
  revert b; decide +kernel

/-! Polynomial division (R134). -/

theorem reverse_crcBit (c : Word) : (crcBit crcDefault c).reverse = divisionBit c.reverse := by
  have top : c.reverse.getLsbD 31 = c.getLsbD 0 := BitVec.getLsbD_reverse
  have poly : (0xEDB88320 : Word).reverse = 0x04C11DB7 := by decide +kernel
  rw [crcBit_default, divisionBit, top, apply_ite BitVec.reverse, reverse_xor, reverse_ushiftRight_one, poly]

theorem reverse_crcUpdate (c : Word) (b : Byte) :
    (crcUpdate crcDefault c b).reverse = divisionByte c.reverse b := by
  have bits : Function.Semiconj BitVec.reverse (crcBit crcDefault) divisionBit := reverse_crcBit
  rw [crcUpdate, divisionByte, crcEnter_default, (bits.iterate_right 8).eq, reverse_xor, reverse_setWidth_byte]

theorem reverse_crcRun (c : Word) (B : Bytes) : (crcRun crcDefault c B).reverse = B.foldl divisionByte c.reverse := by
  induction B generalizing c with
  | nil => rfl
  | cons b B ih => rw [List.foldl_cons, ← reverse_crcUpdate, ← ih]; rfl

/-- Settles O4: the division's register is the loop's, reversed. -/
theorem crc32IsPolynomialDivision : Obligations.Crc32IsPolynomialDivision := by
  intro B
  have ones : (0xFFFFFFFF : Word).reverse = 0xFFFFFFFF := by decide +kernel
  have run := reverse_crcRun 0xFFFFFFFF B
  rw [ones] at run
  rw [crc32ByDivision, ← run, BitVec.reverse_reverse_eq]
  exact crcValue_default _

/-! The table (R136). -/

/-- One bit of the loop is linear. -/
theorem crcBit_xor (x y : Word) : crcBit crcDefault (x ^^^ y) = crcBit crcDefault x ^^^ crcBit crcDefault y := by
  have low : (x ^^^ y).getLsbD 0 = (x.getLsbD 0 ^^ y.getLsbD 0) := BitVec.getLsbD_xor
  simp only [crcBit_default, low, BitVec.ushiftRight_xor_distrib]
  cases x.getLsbD 0 <;> cases y.getLsbD 0
  case false.false => rfl
  case false.true => exact BitVec.xor_assoc ..
  case true.false =>
    change (x >>> 1 ^^^ y >>> 1) ^^^ 0xEDB88320#32 = (x >>> 1 ^^^ 0xEDB88320#32) ^^^ y >>> 1
    ac_rfl
  case true.true =>
    change x >>> 1 ^^^ y >>> 1 = (x >>> 1 ^^^ 0xEDB88320#32) ^^^ (y >>> 1 ^^^ 0xEDB88320#32)
    rw [BitVec.xor_comm (y >>> 1), BitVec.xor_assoc, ← BitVec.xor_assoc 0xEDB88320#32, BitVec.xor_self, BitVec.zero_xor]

theorem crcBit_iterate_xor (n : Nat) (x y : Word) :
    (crcBit crcDefault)^[n] (x ^^^ y) = (crcBit crcDefault)^[n] x ^^^ (crcBit crcDefault)^[n] y := by
  induction n generalizing x y with
  | zero => rfl
  | succ n ih => rw [Function.iterate_succ_apply, crcBit_xor, ih]; rfl

/-- While zeros leave, the loop only shifts. -/
theorem crcBit_iterate_shiftLeft (n : Nat) (x : Word) (zeros : ∀ i < n, x.getLsbD i = false) :
    (crcBit crcDefault)^[n] x = x >>> n := by
  induction n generalizing x with
  | zero => simp
  | succ n ih =>
    have step : crcBit crcDefault x = x >>> 1 := by
      rw [crcBit_default, zeros 0 n.succ_pos, if_neg Bool.false_ne_true]
    rw [Function.iterate_succ_apply, step, ih, ← BitVec.shiftRight_add, Nat.add_comm]
    intro i hi
    rw [BitVec.getLsbD_ushiftRight, Nat.add_comm]
    exact zeros _ (by omega)

/-- The high 24 bits of a register and its low byte. -/
theorem word_eq_high_xor_low (x : Word) : x = (x >>> 8 <<< 8) ^^^ (x.setWidth 8).setWidth 32 := by
  apply BitVec.eq_of_getLsbD_eq
  intro i hi
  by_cases low : i < 8
  · simp [low, hi]
  · simp [low, hi, show 8 + (i - 8) = i by omega]

/-- Eight turns: the low byte selects a table entry, the rest is shifted out of its way. -/
theorem crcBit_iterate_eight (x : Word) :
    (crcBit crcDefault)^[8] x = (x >>> 8) ^^^ crcTable (x.setWidth 8) := by
  have high : (crcBit crcDefault)^[8] (x >>> 8 <<< 8) = x >>> 8 := by
    rw [crcBit_iterate_shiftLeft 8 _ (fun i hi => by simp [hi])]
    apply BitVec.eq_of_toNat_eq
    simp only [BitVec.toNat_ushiftRight, BitVec.toNat_shiftLeft, Nat.shiftLeft_eq, Nat.shiftRight_eq_div_pow]
    omega
  conv_lhs => rw [word_eq_high_xor_low x, crcBit_iterate_xor, high]
  rfl

theorem crcUpdate_eq_tableByte (c : Word) (b : Byte) : crcUpdate crcDefault c b = tableByte c b := by
  have high : (c ^^^ b.setWidth 32) >>> 8 = c >>> 8 := by
    have out : b.setWidth 32 >>> 8 = 0#32 := by revert b; decide +kernel
    rw [BitVec.ushiftRight_xor_distrib, out, BitVec.xor_zero]
  rw [crcUpdate, crcEnter_default, crcBit_iterate_eight, high, tableByte]

/-- Settles O5: a byte step is a table step; the entries are computed. -/
theorem crc32IsTheTableForm : Obligations.Crc32IsTheTableForm := by
  refine ⟨fun B => ?_, by decide +kernel⟩
  have update : crcUpdate crcDefault = tableByte := funext fun c => funext (crcUpdate_eq_tableByte c)
  rw [crc32ByTable, ← update]
  exact crcValue_default _

/-- Settles O6: the three transactions are the parts `crc32` is made of, and a run over two sequences is two runs. -/
theorem crc32StreamsAcrossASplit : Obligations.Crc32StreamsAcrossASplit :=
  ⟨rfl, crcValue_default, crcUpdate_default, fun _ => rfl, fun X Y => by rw [← List.foldl_append]; rfl⟩

/-! One byte changed (R138). -/

/-- The registers differ after the byte, and the bytes that follow keep them different. -/
theorem crc32_ne_of_byte_ne (P S : Bytes) {b d : Byte} (hne : b ≠ d) :
    crc32 crcDefault (P ++ b :: S) ≠ crc32 crcDefault (P ++ d :: S) := by
  intro same
  have runs := crcValue_injective same
  rw [crcRun_append, crcRun_append] at runs
  exact hne (crcUpdate_byte (crcRun_injective S runs))

/-- The same for a byte replaced in place. -/
theorem crc32_set_ne {B : Bytes} {i : Nat} {b : Byte} (hi : i < B.length) (hne : b ≠ byteAt B i) :
    crc32 crcDefault (B.set i b) ≠ crc32 crcDefault B := by
  have split := eq_take_byteAt_drop B i hi
  rw [List.set_eq_take_append_cons_drop, if_pos hi]
  conv_rhs => rw [split]
  exact crc32_ne_of_byte_ne _ _ hne

/-- A flipped bit makes another byte. -/
theorem xor_flip_ne {k : Nat} (b : Byte) (hk : k < 8) : b ^^^ (1#8 <<< k) ≠ b := by
  intro same
  have flip : (1#8 <<< k).getLsbD k = true := by simp [hk]
  have bit := congrArg (BitVec.getLsbD · k) same
  simp only [BitVec.getLsbD_xor, flip, Bool.xor_true] at bit
  cases h : b.getLsbD k <;> simp [h] at bit

/-- Settles O7: the flipped byte is another byte. -/
theorem crc32DetectsOneBitErrors : Obligations.Crc32DetectsOneBitErrors := by
  intro P S b k hk
  exact crc32_ne_of_byte_ne P S (xor_flip_ne b hk).symm

end Sys2Proof.Machine
end

