-- ==== Sys2Proof/Proofs/FrameRoundTrip.lean ====
section
/-!
PROOF. Encoders, decoders and frame rows against each other (R99 to R108, R167, R172, R194, R202, R313): what an encoder
writes is what the decoder reads, a frame row is exactly what its bytes decode to, and a changed byte is noticed.
-/

namespace Sys2Proof.Machine

/-! What the encoders write, as frame rows. -/

/-- The row of R99 that ENC_DATA packs. -/
def packedData (src dst : Nat) (a : Bit) (flag : EndFlag) (p : Bytes) : DataFields :=
  ⟨low16 src, low16 dst, a, BitVec.ofNat 16 p.length,
    crc32 block.crc (dataHeaderBytes block src dst a flag p.length ++ p), p⟩

/-- The row of R102 that ENC_ACK packs. -/
def packedAck (src dst : Nat) (a : Bit) : AckFields :=
  ⟨low16 src, low16 dst, a, crc32 block.crc (ackHeaderBytes block src dst a)⟩

section Packed

variable {src dst : Nat} {a : Bit} {flag : EndFlag} {p F : Bytes}

theorem packData_eq_dataFrameBytes :
    packData block src dst a flag p = dataFrameBytes flag (packedData src dst a flag p) := rfl

theorem encAck_eq_ackFrameBytes : encAck block src dst a = ackFrameBytes (packedAck src dst a) := rfl

/-- ENC_DATA succeeds exactly within the size bound (R163). -/
theorem encData_eq_ok_iff :
    encData block src dst a flag p = .ok F ↔ p.length ≤ 1388 ∧ packData block src dst a flag p = F := by
  have maxFrame : block.maxFrame = 1400 := rfl
  obtain ⟨large, encoded⟩ | ⟨fits, encoded⟩ := encData_cases block src dst a flag p
  · rw [maxFrame, Config.headerSize] at large
    simp only [encoded, reduceCtorEq, false_iff, not_and]; omega
  · rw [maxFrame, Config.headerSize] at fits
    rw [encoded, Except.ok.injEq]
    exact ⟨fun frame => ⟨by omega, frame⟩, And.right⟩

/-- A length of 16 bits is kept. -/
theorem packedData_wellFormed (fits : p.length < 65536) : (packedData src dst a flag p).wellFormed = true :=
  beq_iff_eq.mpr (Nat.mod_eq_of_lt fits)

theorem packedData_checksum :
    crc32 block.crc ((dataFrameBytes flag (packedData src dst a flag p)).take 8 ++ (packedData src dst a flag p).payload) =
      (packedData src dst a flag p).checksum := rfl

theorem packedAck_checksum :
    crc32 block.crc ((ackFrameBytes (packedAck src dst a)).take 5) = (packedAck src dst a).checksum := rfl

/-- DEC_DATA accepts what ENC_DATA packs and reports its operands. -/
theorem decData_packData (fits : p.length < 65536) :
    decData block (packData block src dst a flag p) =
      { runt := false, lengthOk := true, fieldsOk := true, checksumOk := true, frameOk := true
        header := some ⟨low16 src, low16 dst, altByteOf a, flagByteOf flag, a, wireFlagOf (flagByteOf flag),
          BitVec.ofNat 16 p.length, (packedData src dst a flag p).checksum⟩
        payload := p } := by
  rw [packData_eq_dataFrameBytes, decData_dataFrameBytes _ _ (packedData_wellFormed fits),
    decide_eq_true packedData_checksum]
  rfl

/-- DEC_ACK accepts what ENC_ACK packs and reports its operands. -/
theorem decAck_encAck :
    decAck block (encAck block src dst a) =
      { lengthOk := true, fieldsOk := true, checksumOk := true, frameOk := true
        header := some ⟨low16 src, low16 dst, altByteOf a, a, (packedAck src dst a).checksum⟩ } := by
  rw [encAck_eq_ackFrameBytes, decAck_ackFrameBytes, decide_eq_true packedAck_checksum]
  rfl

/-- Every frame ENC_DATA produces passes DEC_DATA. -/
theorem frameOk_of_encData (encoded : encData block src dst a flag p = .ok F) : (decData block F).frameOk = true := by
  obtain ⟨fits, rfl⟩ := encData_eq_ok_iff.mp encoded
  rw [decData_packData (by omega)]

theorem frameOk_encAck : (decAck block (encAck block src dst a)).frameOk = true := by rw [decAck_encAck]

end Packed

theorem low16_toNat (n : Nat) : (low16 n).toNat = n % 65536 := BitVec.toNat_ofNat ..

/-- A port below 2^16 is kept. -/
theorem low16_injective {m n : Nat} (hm : m < 65536) (hn : n < 65536) (same : low16 m = low16 n) : m = n := by
  have := congrArg BitVec.toNat same
  rw [low16_toNat, low16_toNat] at this
  omega

theorem flagByteOf_injective : Function.Injective flagByteOf := by
  intro f g same
  cases f <;> cases g <;> simp_all [flagByteOf]

/-- A frame row is determined by its bytes. -/
theorem dataFrameBytes_inj {f g : EndFlag} {x y : DataFields} (same : dataFrameBytes f x = dataFrameBytes g y) :
    f = g ∧ x = y := by
  have flags : flagByteOf f = flagByteOf g := congrArg (byteAt · 5) same
  have fields := congrArg dataFieldsOf same
  rw [dataFieldsOf_dataFrameBytes, dataFieldsOf_dataFrameBytes] at fields
  exact ⟨flagByteOf_injective flags, fields⟩

/-- Settles O14: the decoders' verdicts on `packData` and `encAck`. -/
theorem decodersInvertEncoders : Obligations.DecodersInvertEncoders := by
  refine ⟨fun src dst a f p fits => ?_, fun src dst a => ?_⟩
  · refine ⟨_, _, encData_eq_ok_iff.mpr ⟨fits, rfl⟩, decData_packData (by omega), low16_toNat src, low16_toNat dst, rfl,
      ?_, Nat.mod_eq_of_lt (by omega)⟩
    cases f <;> rfl
  · exact ⟨_, decAck_encAck, low16_toNat src, low16_toNat dst, rfl⟩

/-- Settles O11: the frame determines its row, the row the operands. -/
theorem encDataIsInjective : Obligations.EncDataIsInjective := by
  intro s₁ d₁ s₂ d₂ a₁ a₂ f₁ f₂ p₁ p₂ F hs₁ hd₁ hs₂ hd₂ _ _ first second
  obtain ⟨-, rfl⟩ := encData_eq_ok_iff.mp first
  obtain ⟨-, same⟩ := encData_eq_ok_iff.mp second
  rw [packData_eq_dataFrameBytes, packData_eq_dataFrameBytes] at same
  obtain ⟨rfl, fields⟩ := dataFrameBytes_inj same
  rw [packedData, packedData, DataFields.mk.injEq] at fields
  obtain ⟨src, dst, bit, -, -, payload⟩ := fields
  exact ⟨low16_injective hs₁ hs₂ src.symm, low16_injective hd₁ hd₂ dst.symm, bit.symm, rfl, payload.symm⟩

/-! The frame rows and their bytes (R99, R102, R104 to R106). -/

/-- A byte with bits 1 to 7 zero is a bit's (R104). -/
theorem altByteOf_altBitOf {b : Byte} (legal : b &&& 0xFE = 0) : altByteOf (altBitOf b) = b := by
  revert b; decide +kernel

theorem altByteOf_and (a : Bit) : altByteOf a &&& 0xFE = 0 := by revert a; decide

theorem altByteLegal_iff (b : Byte) : altByteLegal b = true ↔ b &&& 0xFE = 0 := by
  revert b; decide +kernel

theorem flagByteLegal_iff (b : Byte) : flagByteLegal b = true ↔ ∃ flag, b = flagByteOf flag := by
  constructor
  · intro legal
    have small : b.toNat ≤ 2 := of_decide_eq_true legal
    have cases : b = 0 ∨ b = 1 ∨ b = 2 := by bv_omega
    obtain rfl | rfl | rfl := cases
    · exact ⟨.none, rfl⟩
    · exact ⟨.moreFollow, rfl⟩
    · exact ⟨.last, rfl⟩
  · rintro ⟨flag, rfl⟩
    cases flag <;> rfl

/-- The bytes of a 16-bit field that was read are the bytes read. -/
theorem put16_get16 (D : Bytes) (i : Nat) : put16 .big (get16 .big D i) = [byteAt D i, byteAt D (i + 1)] := by
  rw [get16, put16, BitVec.extractLsb'_append_eq_left, BitVec.extractLsb'_append_eq_right]

/-- The bytes of a 32-bit field that was read are the bytes read. -/
theorem put32_get32 (D : Bytes) (i : Nat) :
    put32 .big (get32 .big D i) = [byteAt D i, byteAt D (i + 1), byteAt D (i + 2), byteAt D (i + 3)] := by
  have third : (get32 .big D i).extractLsb' 16 8 = byteAt D (i + 1) := by
    rw [get32, BitVec.extractLsb'_append_eq_of_le (by omega), BitVec.extractLsb'_append_eq_of_le (by omega)]
    exact BitVec.extractLsb'_append_eq_right
  have second : (get32 .big D i).extractLsb' 8 8 = byteAt D (i + 2) := by
    rw [get32, BitVec.extractLsb'_append_eq_of_le (by omega)]
    exact BitVec.extractLsb'_append_eq_right
  have first : (get32 .big D i).extractLsb' 0 8 = byteAt D (i + 3) := BitVec.extractLsb'_append_eq_right
  have fourth : (get32 .big D i).extractLsb' 24 8 = byteAt D i := by
    rw [get32, BitVec.extractLsb'_append_eq_of_le (by omega), BitVec.extractLsb'_append_eq_of_le (by omega)]
    exact BitVec.extractLsb'_append_eq_left
  rw [put32, first, second, third, fourth]

/-- A sequence is its first `n` bytes and the rest. -/
theorem map_byteAt_append_drop {D : Bytes} {n : Nat} (long : n ≤ D.length) :
    (List.range n).map (byteAt D) ++ D.drop n = D := by
  have first : (List.range n).map (byteAt D) = D.take n := by
    apply List.ext_getElem
    · simp [long]
    · intro i hi _
      simp only [List.length_map, List.length_range] at hi
      simp [byteAt, List.getElem?_eq_getElem (show i < D.length by omega)]
  rw [first, List.take_append_drop]

/-- A datagram has the shape of the row of R99 with that flag (R104 to R106). -/
structure DataShape (D : Datagram) (flag : EndFlag) : Prop where
  long : 12 ≤ D.length
  length : D.length = 12 + (be16 D 6).toNat
  alt : byteAt D 4 &&& 0xFE = 0
  flag : byteAt D 5 = flagByteOf flag

/-- A datagram has the shape of the row of R102 (R104, R106). -/
structure AckShape (D : Datagram) : Prop where
  nine : D.length = 9
  alt : byteAt D 4 &&& 0xFE = 0

theorem decodeDataFrame_of_shape {D : Datagram} {flag : EndFlag} (shape : DataShape D flag) :
    decodeDataFrame D = .ok (dataRow flag (dataFieldsOf D)) := by
  have length : D.length = 12 + (dataFieldsOf D).payloadLength.toNat := shape.length
  rw [decodeDataFrame, if_neg (Nat.not_lt.mpr shape.long), if_neg (not_not.mpr length),
    if_neg (not_not.mpr shape.alt), shape.flag]
  cases flag <;> rfl

/-- The row decoder accepts nothing else. -/
theorem shape_of_decodeDataFrame {D : Datagram} {i : Instr} (h : decodeDataFrame D = .ok i) :
    ∃ flag, DataShape D flag ∧ dataRow flag (dataFieldsOf D) = i := by
  unfold decodeDataFrame at h
  split at h
  · cases h
  split at h
  · cases h
  split at h
  · cases h
  rename_i runt length alt
  have shape (flag : EndFlag) (hflag : byteAt D 5 = flagByteOf flag) : DataShape D flag :=
    ⟨Nat.le_of_not_lt runt, not_not.mp length, not_not.mp alt, hflag⟩
  split at h
  · cases h; exact ⟨.none, shape _ ‹_›, rfl⟩
  split at h
  · cases h; exact ⟨.moreFollow, shape _ ‹_›, rfl⟩
  split at h
  · cases h; exact ⟨.last, shape _ ‹_›, rfl⟩
  · cases h

theorem decodeAckFrame_of_shape {D : Datagram} (shape : AckShape D) : decodeAckFrame D = .ok (.ack (ackFieldsOf D)) := by
  rw [decodeAckFrame, if_neg (not_not.mpr shape.nine), if_neg (not_not.mpr shape.alt)]

theorem shape_of_decodeAckFrame {D : Datagram} {i : Instr} (h : decodeAckFrame D = .ok i) :
    AckShape D ∧ .ack (ackFieldsOf D) = i := by
  unfold decodeAckFrame at h
  split at h
  · cases h
  split at h
  · cases h
  · cases h; exact ⟨⟨not_not.mp ‹_›, not_not.mp ‹_›⟩, rfl⟩

/-- A well-formed row's bytes have its shape. -/
theorem dataShape_dataFrameBytes {f : DataFields} (flag : EndFlag) (wf : f.wellFormed = true) :
    DataShape (dataFrameBytes flag f) flag := by
  have field : be16 (dataFrameBytes flag f) 6 = f.payloadLength := half_of_bytes f.payloadLength
  have length : f.payloadLength.toNat = f.payload.length := beq_iff_eq.mp wf
  refine ⟨?_, ?_, altByteOf_and f.altBit, rfl⟩
  · rw [dataFrameBytes_length]; omega
  · rw [dataFrameBytes_length, field, length]

theorem decodeDataFrame_dataFrameBytes {f : DataFields} (flag : EndFlag) (wf : f.wellFormed = true) :
    decodeDataFrame (dataFrameBytes flag f) = .ok (dataRow flag f) := by
  rw [decodeDataFrame_of_shape (dataShape_dataFrameBytes flag wf), dataFieldsOf_dataFrameBytes]

theorem decodeAckFrame_ackFrameBytes (f : AckFields) : decodeAckFrame (ackFrameBytes f) = .ok (.ack f) := by
  rw [decodeAckFrame_of_shape ⟨ackFrameBytes_length f, altByteOf_and f.altBit⟩, ackFieldsOf_ackFrameBytes]

/-- The row of R99 read from a datagram of its shape writes that datagram. -/
theorem dataFrameBytes_dataFieldsOf {D : Datagram} {flag : EndFlag} (shape : DataShape D flag) :
    dataFrameBytes flag (dataFieldsOf D) = D := by
  conv_rhs => rw [← map_byteAt_append_drop shape.long]
  rw [dataFrameBytes, dataFieldsOf, put16_get16, put16_get16, put16_get16, put32_get32,
    altByteOf_altBitOf shape.alt, ← shape.flag]
  rfl

/-- The row of R102 read from a datagram of its shape writes that datagram. -/
theorem ackFrameBytes_ackFieldsOf {D : Datagram} (shape : AckShape D) : ackFrameBytes (ackFieldsOf D) = D := by
  have bytes := map_byteAt_append_drop shape.nine.ge
  rw [List.drop_of_length_le shape.nine.le, List.append_nil] at bytes
  conv_rhs => rw [← bytes]
  rw [ackFrameBytes, ackFieldsOf, put16_get16, put16_get16, put32_get32, altByteOf_altBitOf shape.alt]
  rfl

theorem encode_dataRow (flag : EndFlag) (f : DataFields) :
    encode (dataRow flag f) = .dataFrame (dataFrameBytes flag f) := by cases flag <;> rfl

theorem wellFormed_dataRow (flag : EndFlag) (f : DataFields) : (dataRow flag f).wellFormed = f.wellFormed := by
  cases flag <;> rfl

theorem wellFormed_dataFieldsOf {D : Datagram} {flag : EndFlag} (shape : DataShape D flag) :
    (dataFieldsOf D).wellFormed = true := by
  have length := shape.length
  refine beq_iff_eq.mpr ?_
  change (be16 D 6).toNat = (D.drop 12).length
  rw [List.length_drop]; omega

/-- Settles O18: a frame row is read back from its bytes; the operations and the event rows compute. -/
theorem decodeInvertsEncode : Obligations.DecodeInvertsEncode := by
  intro i wf
  cases i with
  | dataNone f => exact decodeDataFrame_dataFrameBytes .none wf
  | dataMore f => exact decodeDataFrame_dataFrameBytes .moreFollow wf
  | dataLast f => exact decodeDataFrame_dataFrameBytes .last wf
  | ack f => exact decodeAckFrame_ackFrameBytes f
  | _ => rfl

/-- Settles O19: what decodes has the row's shape, and such a datagram is the row's bytes. -/
theorem encodeInvertsFrameDecode : Obligations.EncodeInvertsFrameDecode := by
  refine fun D i => ⟨fun decoded => ?_, fun decoded => ?_⟩
  · obtain ⟨flag, shape, rfl⟩ := shape_of_decodeDataFrame decoded
    rw [encode_dataRow, wellFormed_dataRow, dataFrameBytes_dataFieldsOf shape]
    exact ⟨rfl, wellFormed_dataFieldsOf shape⟩
  · obtain ⟨shape, rfl⟩ := shape_of_decodeAckFrame decoded
    exact ⟨congrArg _ (ackFrameBytes_ackFieldsOf shape), rfl⟩

/-- DEC_DATA's length and field verdicts are the shape (R185, R187). -/
theorem exists_dataShape_iff (D : Datagram) :
    (∃ flag, DataShape D flag) ↔ (decData block D).lengthOk = true ∧ (decData block D).fieldsOk = true := by
  by_cases runt : D.length < 12
  · rw [decData_of_runt block runt]
    refine ⟨fun ⟨flag, shape⟩ => absurd shape.long (Nat.not_le.mpr runt), fun ⟨length, _⟩ => by cases length⟩
  · rw [decData_of_complete_header block runt]
    change _ ↔ dataLengthOk D = true ∧ dataFieldsOk D = true
    rw [dataLengthOk_eq_decide, decide_eq_true_iff, dataFieldsOk, Bool.and_eq_true, altByteLegal_iff, flagByteLegal_iff]
    constructor
    · rintro ⟨flag, shape⟩
      exact ⟨shape.length, shape.alt, flag, shape.flag⟩
    · rintro ⟨length, alt, flag, hflag⟩
      exact ⟨flag, Nat.le_of_not_lt runt, length, alt, hflag⟩

/-- DEC_ACK's length and field verdicts are the shape (R198, R200). -/
theorem ackShape_iff (D : Datagram) :
    AckShape D ↔ (decAck block D).lengthOk = true ∧ (decAck block D).fieldsOk = true := by
  by_cases nine : D.length = 9
  · rw [decAck_of_length_eq block nine]
    change _ ↔ true = true ∧ ackFieldsOk D = true
    rw [ackFieldsOk, altByteLegal_iff]
    exact ⟨fun shape => ⟨rfl, shape.alt⟩, fun ⟨_, alt⟩ => ⟨nine, alt⟩⟩
  · rw [decAck_of_length_ne block nine]
    exact ⟨fun shape => absurd shape.nine nine, fun ⟨length, _⟩ => by cases length⟩

/-- Settles O20: both sides are the shape. -/
theorem frameRowsAreTheLegalShapes : Obligations.FrameRowsAreTheLegalShapes := by
  intro D
  rw [← exists_dataShape_iff, ← ackShape_iff]
  constructor
  · constructor
    · rintro ⟨i, decoded⟩
      obtain ⟨flag, shape, -⟩ := shape_of_decodeDataFrame decoded
      exact ⟨flag, shape⟩
    · rintro ⟨flag, shape⟩
      exact ⟨_, decodeDataFrame_of_shape shape⟩
  · constructor
    · rintro ⟨i, decoded⟩
      exact (shape_of_decodeAckFrame decoded).1
    · intro shape
      exact ⟨_, decodeAckFrame_of_shape shape⟩

/-- Settles O21: the five words, decoded. -/
theorem sampleWordsDecode : Obligations.SampleWordsDecode := by
  refine ⟨?_, ?_, ?_, ?_, ?_⟩ <;> decide

/-! A changed byte is noticed (R194, R202, R313). -/

/-- The verdicts of R181 and R196 hang together. -/
theorem decData_frameOk_eq (D : Datagram) :
    (decData block D).frameOk =
      ((decData block D).lengthOk && (decData block D).fieldsOk && (decData block D).checksumOk) := by
  by_cases runt : D.length < 12
  · rw [decData_of_runt block runt]; rfl
  · rw [decData_of_complete_header block runt]

theorem decAck_frameOk_eq (D : Datagram) :
    (decAck block D).frameOk = ((decAck block D).fieldsOk && (decAck block D).checksumOk) := by
  by_cases nine : D.length = 9
  · rw [decAck_of_length_eq block nine]
  · rw [decAck_of_length_ne block nine]; rfl

/-- Equal fields have equal bytes. -/
theorem byteAt_eq_of_be16_eq {D E : Bytes} {j : Nat} (same : be16 D j = be16 E j) (k : Nat) (hk : k < 2) :
    byteAt D (j + k) = byteAt E (j + k) := by
  have bytes := congrArg (put16 .big) same
  rw [be16, be16, put16_get16, put16_get16] at bytes
  interval_cases k <;> simp_all

theorem byteAt_eq_of_get32_eq {D E : Bytes} {j : Nat} (same : get32 .big D j = get32 .big E j) (k : Nat) (hk : k < 4) :
    byteAt D (j + k) = byteAt E (j + k) := by
  have bytes := congrArg (put32 .big) same
  rw [put32_get32, put32_get32] at bytes
  interval_cases k <;> simp_all

theorem byteAt_take {D : Bytes} {i n : Nat} (h : i < n) : byteAt (D.take n) i = byteAt D i := by
  rw [byteAt, byteAt, List.getD_eq_getElem?_getD, List.getD_eq_getElem?_getD, List.getElem?_take_of_lt h]

theorem byteAt_drop (D : Bytes) (n i : Nat) : byteAt (D.drop n) i = byteAt D (n + i) := by
  rw [byteAt, byteAt, List.getD_eq_getElem?_getD, List.getD_eq_getElem?_getD, List.getElem?_drop]

section Changed

variable {D : Datagram} {i : Nat} {b : Byte}

theorem byteAt_set_ne {j : Nat} (h : i ≠ j) : byteAt (D.set i b) j = byteAt D j := by
  rw [byteAt_set, if_neg fun both => h both.1]

theorem be16_set_outside {j : Nat} (out : i < j ∨ j + 2 ≤ i) : be16 (D.set i b) j = be16 D j := by
  rw [be16, get16, byteAt_set_ne (by omega), byteAt_set_ne (by omega)]; rfl

theorem get32_set_outside {j : Nat} (out : i < j ∨ j + 4 ≤ i) : get32 .big (D.set i b) j = get32 .big D j := by
  rw [get32, byteAt_set_ne (by omega), byteAt_set_ne (by omega), byteAt_set_ne (by omega), byteAt_set_ne (by omega)]; rfl

variable (hi : i < D.length) (changed : b ≠ byteAt D i)
include hi changed

theorem byteAt_set_self_ne : byteAt (D.set i b) i ≠ byteAt D i := by
  rw [byteAt_set, if_pos ⟨rfl, hi⟩]; exact changed

theorem be16_set_inside {j : Nat} (lo : j ≤ i) (hi2 : i < j + 2) : be16 (D.set i b) j ≠ be16 D j := by
  intro same
  have byte := byteAt_eq_of_be16_eq same (i - j) (by omega)
  rw [Nat.add_sub_cancel' lo] at byte
  exact byteAt_set_self_ne hi changed byte

theorem get32_set_inside {j : Nat} (lo : j ≤ i) (hi4 : i < j + 4) : get32 .big (D.set i b) j ≠ get32 .big D j := by
  intro same
  have byte := byteAt_eq_of_get32_eq same (i - j) (by omega)
  rw [Nat.add_sub_cancel' lo] at byte
  exact byteAt_set_self_ne hi changed byte

/-- The bytes under a data frame's checksum, one of them changed (R186). -/
theorem crc32_data_set_ne (covered : i < 8 ∨ 12 ≤ i) :
    crc32 block.crc ((D.set i b).take 8 ++ (D.set i b).drop 12) ≠ crc32 block.crc (D.take 8 ++ D.drop 12) := by
  rw [List.take_set, List.drop_set]
  obtain low | high := covered
  · rw [if_pos (by omega), ← List.set_append_left _ _ (by rw [List.length_take]; omega)]
    refine crc32_set_ne (by rw [List.length_append, List.length_take]; omega) ?_
    rwa [byteAt_append_left _ _ _ (by rw [List.length_take]; omega), byteAt_take low]
  · have eight : (D.take 8).length = 8 := by rw [List.length_take]; omega
    have place : (D.drop 12).set (i - 12) b = (D.drop 12).set (i - 4 - (D.take 8).length) b := by
      rw [eight, Nat.sub_sub]
    rw [if_neg (by omega), List.set_eq_of_length_le (by omega), place,
      ← List.set_append_right _ _ (by omega)]
    refine crc32_set_ne (by rw [List.length_append, List.length_drop]; omega) ?_
    rw [byteAt_append_right _ _ _ (by omega), byteAt_drop, eight]
    rwa [show 12 + (i - 4 - 8) = i by omega]

/-- A changed byte of an accepted data frame: the length shows it in bytes 6 and 7, the checksum anywhere else (R194). -/
theorem decData_set_rejected (ok : (decData block D).frameOk = true) :
    if 6 ≤ i ∧ i < 8 then (decData block (D.set i b)).lengthOk = false
    else (decData block (D.set i b)).lengthOk = true ∧ (decData block (D.set i b)).checksumOk = false := by
  obtain ⟨long, length, checksum⟩ := decData_frameOk ok
  have size : (D.set i b).length = D.length := List.length_set
  rw [decData_of_complete_header block (by rw [size]; omega)]
  change if _ then dataLengthOk _ = false else dataLengthOk _ = true ∧ (dataLengthOk _ && dataChecksumOk block _) = false
  rw [dataLengthOk_eq_decide, dataChecksumOk_eq_decide, size]
  split
  case isTrue field =>
    have other : be16 (D.set i b) 6 ≠ be16 D 6 := be16_set_inside hi changed field.1 field.2
    refine decide_eq_false fun same => other (BitVec.eq_of_toNat_eq ?_)
    omega
  case isFalse elsewhere =>
    rw [be16_set_outside (by omega)]
    refine ⟨decide_eq_true length, Bool.and_eq_false_imp.mpr fun _ => decide_eq_false ?_⟩
    change crc32 block.crc _ ≠ get32 .big (D.set i b) 8
    by_cases field : 8 ≤ i ∧ i < 12
    · rw [List.take_set, List.set_eq_of_length_le (by rw [List.length_take]; omega), List.drop_set, if_pos field.2,
        checksum]
      exact (get32_set_inside hi changed field.1 field.2).symm
    · rw [get32_set_outside (by omega), ← checksum]
      exact crc32_data_set_ne hi changed (by omega)

/-- A changed byte of an accepted ack frame: the checksum shows it (R202). -/
theorem decAck_set_rejected (ok : (decAck block D).frameOk = true) : (decAck block (D.set i b)).checksumOk = false := by
  obtain ⟨nine, checksum⟩ := decAck_frameOk ok
  rw [decAck_of_length_eq block (List.length_set.trans nine)]
  change ackChecksumOk block _ = false
  rw [ackChecksumOk_eq_decide, List.take_set]
  refine decide_eq_false ?_
  change crc32 block.crc _ ≠ get32 .big (D.set i b) 5
  by_cases field : 5 ≤ i
  · rw [List.set_eq_of_length_le (by rw [List.length_take]; omega), checksum]
    exact (get32_set_inside hi changed field (by omega)).symm
  · rw [get32_set_outside (by omega), ← checksum]
    refine crc32_set_ne (by rw [List.length_take]; omega) ?_
    rwa [byteAt_take (by omega)]

end Changed

/-- Settles O15: the frame is accepted, and the flip changes a byte of it. -/
theorem oneBitFlipOfADataFrameIsRejected : Obligations.OneBitFlipOfADataFrameIsRejected := by
  intro src dst a f p F i k encoded hi hk v
  have rejected := decData_set_rejected hi (xor_flip_ne _ hk) (frameOk_of_encData encoded)
  refine ⟨?_, rejected⟩
  rw [decData_frameOk_eq]
  split at rejected
  case isTrue field => rw [rejected]; rfl
  case isFalse elsewhere => rw [rejected.2, Bool.and_false]

/-- Settles O16: the ack is accepted, and the flip changes a byte of it. -/
theorem oneBitFlipOfAnAckIsRejected : Obligations.OneBitFlipOfAnAckIsRejected := by
  intro src dst a i k hi hk
  rw [decAck_frameOk_eq, decAck_set_rejected (by rwa [encAck_length]) (xor_flip_ne _ hk) frameOk_encAck, Bool.and_false]

/-- The bit that the corrupt transform flips is bit 0 of the first payload byte (R313, D36). -/
theorem corruptTransform_eq_set (d : Datagram) : corruptTransform block d = d.set 12 (byteAt d 12 ^^^ (1#8 <<< 0)) := by
  change d.modify 12 _ = _
  by_cases long : 12 < d.length
  · rw [List.modify_eq_set, List.getElem?_eq_getElem long, byteAt, List.getD_eq_getElem _ _ long]; rfl
  · rw [List.modify_eq_self (Nat.le_of_not_lt long), List.set_eq_of_length_le (Nat.le_of_not_lt long)]

theorem decData_fieldsOk_set {D : Datagram} {i : Nat} {b : Byte} (long : 12 ≤ D.length) (high : 6 ≤ i) :
    (decData block (D.set i b)).fieldsOk = (decData block D).fieldsOk := by
  have size : (D.set i b).length = D.length := List.length_set
  rw [decData_of_complete_header block (by rw [size]; omega), decData_of_complete_header block (by omega)]
  change dataFieldsOk _ = dataFieldsOk _
  rw [dataFieldsOk, dataFieldsOk, byteAt_set_ne (by omega), byteAt_set_ne (by omega)]

/-- Settles O60: the transform changes byte 12 of a frame that has one; an ack is shorter. -/
theorem injectedCorruptionIsDetected : Obligations.InjectedCorruptionIsDetected := by
  refine ⟨fun src dst a f p F encoded nonempty => ?_, fun src dst a => ?_⟩
  · have ok := frameOk_of_encData encoded
    have payload : 0 < p.length := List.length_pos_of_ne_nil nonempty
    have long : 12 < F.length := by
      obtain ⟨-, rfl⟩ := encData_eq_ok_iff.mp encoded
      rw [packData_length]; omega
    have rejected := decData_set_rejected long (xor_flip_ne _ (by omega : 0 < 8)) ok
    rw [if_neg (by omega)] at rejected
    rw [decData_frameOk_eq, Bool.and_eq_true, Bool.and_eq_true] at ok
    rw [corruptTransform_eq_set, decData_fieldsOk_set long.le (by omega)]
    exact ⟨rejected.1, ok.1.2, rejected.2⟩
  · rw [corruptTransform_eq_set, List.set_eq_of_length_le (by rw [encAck_length]; omega)]

/-! The all-zero datagram (R108). -/

theorem byteAt_zeros (n i : Nat) : byteAt (zeros n) i = 0 := by
  rw [byteAt, zeros, List.getD_eq_getElem?_getD, List.getElem?_replicate]
  split <;> rfl

theorem get32_zeros (n i : Nat) : get32 .big (zeros n) i = 0 := by
  simp only [get32, byteAt_zeros]; decide

theorem crc32_eight_zeros : crc32 block.crc (zeros 8) = 0x6522DF69 := by decide +kernel

theorem crc32_five_zeros : crc32 block.crc (zeros 5) = 0xC622F71D := by decide +kernel

theorem decData_zeros_frameOk (n : Nat) : (decData block (zeros n)).frameOk = false := by
  by_contra passes
  obtain ⟨-, length, checksum⟩ := decData_frameOk (eq_true_of_ne_false passes)
  have payload : be16 (zeros n) 6 = 0 := by simp only [be16, get16, byteAt_zeros]; decide
  rw [payload, zeros_length] at length
  obtain rfl : n = 12 := length
  rw [get32_zeros] at checksum
  exact absurd (crc32_eight_zeros.symm.trans checksum) (by decide)

theorem decData_zeros_lengthOk (n : Nat) : (decData block (zeros n)).lengthOk = decide (n = 12) := by
  have payload : be16 (zeros n) 6 = 0 := by simp only [be16, get16, byteAt_zeros]; decide
  by_cases runt : n < 12
  · rw [decData_of_runt block (by rwa [zeros_length])]
    exact (decide_eq_false (by omega)).symm
  · rw [decData_of_complete_header block (by rwa [zeros_length])]
    change dataLengthOk _ = _
    rw [dataLengthOk_eq_decide, payload, zeros_length]; rfl

theorem decAck_zeros_frameOk (n : Nat) : (decAck block (zeros n)).frameOk = false := by
  by_contra passes
  obtain ⟨nine, checksum⟩ := decAck_frameOk (eq_true_of_ne_false passes)
  rw [zeros_length] at nine
  subst nine
  rw [get32_zeros] at checksum
  exact absurd (crc32_five_zeros.symm.trans checksum) (by decide)

/-- A datagram that DEC_DATA accepts is not all zero. -/
theorem allZero_of_decData {D : Datagram} (ok : (decData block D).frameOk = true) : allZero D = false := by
  by_contra zero
  rw [(allZero_iff D).mp (eq_true_of_ne_false zero), decData_zeros_frameOk] at ok
  cases ok

theorem allZero_of_decAck {D : Datagram} (ok : (decAck block D).frameOk = true) : allZero D = false := by
  by_contra zero
  rw [(allZero_iff D).mp (eq_true_of_ne_false zero), decAck_zeros_frameOk] at ok
  cases ok

/-- Settles O17: the checksum field 0 is no CRC of zero bytes, and the encoders' frames are accepted. -/
theorem zeroDatagramIsNoFrame : Obligations.ZeroDatagramIsNoFrame :=
  ⟨fun n => ⟨decData_zeros_frameOk n, decData_zeros_lengthOk n, decAck_zeros_frameOk n⟩,
    fun _ _ _ _ _ _ encoded => allZero_of_decData (frameOk_of_encData encoded),
    fun _ _ _ => allZero_of_decAck frameOk_encAck, crc32_eight_zeros, crc32_five_zeros⟩

end Sys2Proof.Machine
end

