-- ==== Sys2Proof/Proofs/StepInversion.lean ====
section
/-!
PROOF. What a step is, input by input (O22, O23), and what a step that answers a next state did: nothing to the registers, an
operation of the host, or the selected row of one shell with the datagram its receive returned.
-/

namespace Sys2Proof.Machine

/-! The operations of the host (R110). -/

/-- An operation or a command of the host: a row of R110. -/
def isOperation : Instr → Bool
  | .crc32 _ | .crc32Verify _ _ | .encData _ _ _ _ _ | .decData _ | .encAck _ _ _ | .decAck _ => true
  | .txStart _ _ | .rxRestart | .cfgTx _ _ | .cfgRx _ _ | .hwReset => true
  | _ => false

/-- The codes that select no operation (R110, U5). -/
def unusedCode (code : BitVec 4) : Prop :=
  code = 0b0000 ∨ code = 0b0111 ∨ code = 0b1100 ∨ code = 0b1101 ∨ code = 0b1110

/-- A code selects nothing, or one of the eleven operations. -/
theorem decodeOp_cases (code : BitVec 4) (o : HostOperands) :
    (unusedCode code ∧ decodeOp code o = .error (.noSuchOperation code)) ∨
      (¬unusedCode code ∧ ∃ i, decodeOp code o = .ok i ∧ isOperation i = true) := by
  unfold decodeOp unusedCode
  split
  case h_12 => refine .inl ⟨?_, rfl⟩; simp only [imp_false] at *; bv_omega
  all_goals exact .inr ⟨by bv_omega, _, rfl, rfl⟩

theorem isOperation_of_decodeOp {code : BitVec 4} {o : HostOperands} {i : Instr} (decoded : decodeOp code o = .ok i) :
    isOperation i = true := by
  obtain ⟨-, rejected⟩ | ⟨-, j, accepted, operation⟩ := decodeOp_cases code o
  · rw [rejected] at decoded; cases decoded
  · rw [accepted] at decoded; cases decoded; exact operation

theorem isOperation_rxRow (row : RxRow) : isOperation row.instr = false := by cases row <;> rfl

theorem isOperation_dataRow (flag : EndFlag) (f : DataFields) : isOperation (dataRow flag f) = false := by
  cases flag <;> rfl

theorem exec_hwReset (s : State) : exec .hwReset s = .next ((resetBlock s).answer .commandDone) := rfl

section RxRestart

variable {s : State}

theorem exec_rxRestart_of_running (running : s.rx.status = .running) :
    exec .rxRestart s = .next (s.answer .commandRefused) := if_pos running

theorem exec_rxRestart_of_stopped (stopped : s.rx.status ≠ .running) :
    exec .rxRestart s = .next ((startRx block s).answer .commandDone) := if_neg stopped

end RxRestart

/-- An operation always completes (R144, R182, U6). -/
theorem exec_operation_total {i : Instr} (operation : isOperation i = true) (s : State) : ∃ t, exec i s = .next t := by
  cases i with
  | crc32 | crc32Verify | decData | encAck | decAck | hwReset => exact ⟨_, rfl⟩
  | encData src dst a f p => exact ⟨_, exec_encData src dst a f p s⟩
  | txStart name file => exact (txStartCreatesASession name file s).elim fun _ next => ⟨_, next⟩
  | cfgTx src dst => exact (cfgTxSetsPortsWhenStopped src dst s).elim fun _ next => ⟨_, next⟩
  | cfgRx src dst => exact (cfgRxSetsPortsWhenStopped src dst s).elim fun _ next => ⟨_, next⟩
  | rxRestart =>
    by_cases running : s.rx.status = .running
    · exact ⟨_, exec_rxRestart_of_running running⟩
    · exact ⟨_, exec_rxRestart_of_stopped running⟩
  | _ => cases operation

/-! One step, input by input. -/

section Inputs

variable {s : State} {rest : List Input}

theorem step_nil (input : s.env.inputs = []) : step s = .next s := by
  unfold step; rw [input]

theorem step_host {code : BitVec 4} {o : HostOperands} {i : Instr} (input : s.env.inputs = .host code o :: rest)
    (decoded : decodeOp code o = .ok i) : step s = exec i (s.setInputs rest) := by
  rw [step_cons input]
  simp only [fetch, decoded]

theorem step_host_unused {code : BitVec 4} {o : HostOperands} (input : s.env.inputs = .host code o :: rest)
    (unused : unusedCode code) : step s = .refused (.noSuchOperation code) := by
  obtain ⟨-, rejected⟩ | ⟨used, -⟩ := decodeOp_cases code o
  · rw [step_cons input]
    simp only [fetch, rejected]
  · exact absurd unused used

theorem exec_dataRow (flag : EndFlag) (f : DataFields) (s : State) :
    exec (dataRow flag f) s = arriveAtRx (dataFrameBytes flag f) s := by cases flag <;> rfl

theorem exec_ack (f : AckFields) (s : State) : exec (.ack f) s = arriveAtTx (ackFrameBytes f) s := rfl

/-- A datagram reaches the receiver, a frame or not (R107, R261). -/
theorem step_arrive_toRx {d : Datagram} {ok : Bool} (input : s.env.inputs = .arrive .toRx d ok :: rest) :
    step s = arriveAtRx d (grantSend .toRx ok (s.setInputs rest)) := by
  rw [step_cons input]
  cases decoded : decodeDataFrame d with
  | error e => simp only [fetch, decoded]
  | ok i =>
    obtain ⟨flag, shape, rfl⟩ := shape_of_decodeDataFrame decoded
    simp only [fetch, decoded, exec_dataRow, dataFrameBytes_dataFieldsOf shape]

/-- A datagram reaches the sender, a frame or not (R107, R223). -/
theorem step_arrive_toTx {d : Datagram} {ok : Bool} (input : s.env.inputs = .arrive .toTx d ok :: rest) :
    step s = arriveAtTx d (grantSend .toTx ok (s.setInputs rest)) := by
  rw [step_cons input]
  cases decoded : decodeAckFrame d with
  | error e => simp only [fetch, decoded]
  | ok i =>
    obtain ⟨shape, rfl⟩ := shape_of_decodeAckFrame decoded
    simp only [fetch, decoded, exec_ack, ackFrameBytes_ackFieldsOf shape]

/-- The turn of a running sender runs the row it selects (R111). -/
theorem step_txTurn_of_running {ch : RecvChoice} {ok : Bool} (input : s.env.inputs = .txTurn ch ok :: rest)
    (running : s.tx.status = .running) :
    step s = txAction block (txSelect (pollTx ch ok (s.setInputs rest))) (pollTx ch ok (s.setInputs rest)) := by
  rw [step_txTurn input, if_pos running]
  exact exec_txRow (by rwa [pollTx_tx]) rfl

/-- The turn of a running receiver runs the row it selects (R112). -/
theorem step_rxTurn_of_running {ch : RecvChoice} {ok : Bool} (input : s.env.inputs = .rxTurn ch ok :: rest)
    (running : s.rx.status = .running) :
    step s = rxAction block (rxSelect (pollRx ch ok (s.setInputs rest))) (pollRx ch ok (s.setInputs rest)) := by
  rw [step_rxTurn input, if_pos running]
  exact exec_rxRow running rfl

end Inputs

/-- Settles O22: `decodeOp` rejects exactly the five codes. -/
theorem unusedOperationCodesAreRefused : Obligations.UnusedOperationCodesAreRefused := by
  intro s code o rest input
  split
  case isTrue unused => exact step_host_unused input unused
  case isFalse used =>
    obtain ⟨unused, -⟩ | ⟨-, i, decoded, -⟩ := decodeOp_cases code o
    · exact absurd unused used
    · exact ⟨i, decoded, step_host input decoded⟩

/-- Settles O23: each clause is the input fetched. -/
theorem stepRunsTheNextInput : Obligations.StepRunsTheNextInput := by
  intro s
  refine ⟨step_nil, fun _ _ _ _ => step_host, fun _ _ => step_cons, fun _ _ _ => step_txTurn, fun _ _ _ => step_rxTurn,
    fun d ok rest i input decoded => ?_, fun d ok rest i input decoded => ?_,
    fun _ _ _ _ input _ => step_arrive_toRx input, fun _ _ _ _ input _ => step_arrive_toTx input,
    fun _ _ => step_cons, fun _ _ => step_cons, fun _ _ => step_cons⟩
  · rw [step_cons input]; simp only [fetch, decoded]
  · rw [step_cons input]; simp only [fetch, decoded]

/-! What a receive returns. -/

/-- The datagram of an outcome, if it is one. -/
def RecvOutcome.received : RecvOutcome → Option Datagram
  | .bytes d => some d
  | .failure => none
  | .timeout => none

section Receives

variable {s : State} {rest : List Input}

theorem txReceives_turn {ch : RecvChoice} {ok : Bool} (input : s.env.inputs = .txTurn ch ok :: rest)
    (running : s.tx.status = .running) (waiting : s.tx.phase = .ack) : s.txReceives = (txOutcome ch s).received := by
  simp only [State.txReceives, running, waiting, input, and_self, if_true]
  cases txOutcome ch s <;> rfl

theorem txReceives_arrive {d : Datagram} {ok : Bool} (input : s.env.inputs = .arrive .toTx d ok :: rest)
    (running : s.tx.status = .running) (waiting : s.tx.phase = .ack) (isOpen : s.env.txEnd.fails = false) :
    s.txReceives = some d := by
  rw [State.txReceives, if_pos ⟨running, waiting⟩, input]
  simp only [isOpen, Bool.false_eq_true, if_false]

theorem rxReceives_turn {ch : RecvChoice} {ok : Bool} (input : s.env.inputs = .rxTurn ch ok :: rest)
    (running : s.rx.status = .running) : s.rxReceives = (rxOutcome ch s).received := by
  simp only [State.rxReceives, running, input, if_true]
  cases rxOutcome ch s <;> rfl

theorem rxReceives_arrive {d : Datagram} {ok : Bool} (input : s.env.inputs = .arrive .toRx d ok :: rest)
    (running : s.rx.status = .running) : s.rxReceives = if s.env.rxEnd.fails then none else some d := by
  rw [State.rxReceives, if_pos running, input]

theorem rxReceives_of_stopped (stopped : s.rx.status ≠ .running) : s.rxReceives = none := if_neg stopped

/-- Only the receiver's turn and an arrival at the receiver return it a datagram. -/
theorem rxReceives_of_other_input {x : Input} (input : s.env.inputs = x :: rest) (turn : ∀ ch ok, x ≠ .rxTurn ch ok)
    (arrival : ∀ d ok, x ≠ .arrive .toRx d ok) : s.rxReceives = none := by
  unfold State.rxReceives
  rw [input]
  split
  · split
    · exact absurd (List.cons.inj ‹_›).1 (turn _ _)
    · exact absurd (List.cons.inj ‹_›).1 (arrival _ _)
    · rfl
  · rfl

theorem rxReceives_of_no_input (input : s.env.inputs = []) : s.rxReceives = none := by
  simp only [State.rxReceives, input, ite_self]

end Receives

/-! What a step did. -/

/-- What a step that answered `t` did to the registers of `s`, and what its receives returned. -/
inductive StepCase (s t : State) : Prop where
  /-- a wait, a read, a move of the Channel, a close, a reopening, a stopped shell's turn, a datagram kept by the Channel -/
  | quiet (txSame : t.tx = s.tx) (rxSame : t.rx = s.rx) (nothing : s.rxReceives = none)
  /-- the host's operation -/
  | operation (i : Instr) (u : State) (op : isOperation i = true) (runs : Runs s i u) (txRegs : u.tx = s.tx)
      (rxRegs : u.rx = s.rx) (next : exec i u = .next t) (nothing : s.rxReceives = none)
  /-- the sender's selected row, in its turn or on an arrival -/
  | sender (u : State) (txRegs : u.tx = s.tx) (rxRegs : u.rx = s.rx) (running : s.tx.status = .running)
      (next : txAction block (txSelect u) u = .next t)
      (receives : s.tx.phase = .ack → s.txReceives = u.env.txPort.recv.received) (nothing : s.rxReceives = none)
  /-- the receiver's selected row, in its turn or on an arrival -/
  | receiver (u : State) (txRegs : u.tx = s.tx) (rxRegs : u.rx = s.rx) (running : s.rx.status = .running)
      (next : rxAction block (rxSelect u) u = .next t) (receives : s.rxReceives = u.env.rxPort.recv.received)

/-- The inversion of `step` that the statements about all steps rest on. -/
theorem step_case {s t : State} (next : step s = .next t) : StepCase s t := by
  cases input : s.env.inputs with
  | nil =>
    rw [step_nil input] at next; cases next
    exact .quiet rfl rfl (rxReceives_of_no_input input)
  | cons x rest =>
    have nothing := rxReceives_of_other_input input
    cases x with
    | host code o =>
      obtain ⟨unused, -⟩ | ⟨-, i, decoded, op⟩ := decodeOp_cases code o
      · rw [step_host_unused input unused] at next; cases next
      · rw [step_host input decoded] at next
        exact .operation i (s.setInputs rest) op ⟨_, rest, input, by simp only [fetch, decoded]⟩ rfl rfl
          next (nothing (by simp) (by simp))
    | txTurn ch ok =>
      by_cases running : s.tx.status = .running
      · rw [step_txTurn_of_running input running] at next
        refine .sender _ (by simp) (by simp) running next (fun waiting => ?_)
          (nothing (by simp) (by simp))
        rw [txReceives_turn input running waiting, pollTx_recv_ack (s.setInputs rest) ch ok waiting, txOutcome_setInputs]
      · rw [step_txTurn input, if_neg running] at next; cases next
        exact .quiet rfl rfl (nothing (by simp) (by simp))
    | rxTurn ch ok =>
      by_cases running : s.rx.status = .running
      · rw [step_rxTurn_of_running input running] at next
        exact .receiver (pollRx ch ok (s.setInputs rest)) rfl rfl running next (rxReceives_turn input running)
      · rw [step_rxTurn input, if_neg running] at next; cases next
        exact .quiet rfl rfl (rxReceives_of_stopped running)
    | arrive dir d ok =>
      cases dir with
      | toRx =>
        rw [step_arrive_toRx input] at next
        obtain ⟨⟨running, isOpen⟩, judged⟩ | ⟨unawaited, kept⟩ :=
          arriveAtRx_cases d (grantSend .toRx ok (s.setInputs rest))
        · rw [judged] at next
          have isOpen : s.env.rxEnd.fails = false := isOpen
          refine .receiver (receiveRx d (grantSend .toRx ok (s.setInputs rest))) rfl rfl running next ?_
          rw [rxReceives_arrive input running, isOpen]; rfl
        · rw [kept] at next; cases next
          refine .quiet rfl rfl ?_
          by_cases running : s.rx.status = .running
          · have fails : s.env.rxEnd.fails = true := eq_true_of_ne_false fun isOpen => unawaited ⟨running, isOpen⟩
            rw [rxReceives_arrive input running, fails]; rfl
          · exact rxReceives_of_stopped running
      | toTx =>
        rw [step_arrive_toTx input] at next
        obtain ⟨⟨running, waiting, isOpen⟩, judged⟩ | ⟨-, kept⟩ :=
          arriveAtTx_cases d (grantSend .toTx ok (s.setInputs rest))
        · rw [judged] at next
          exact .sender (receiveTx d (grantSend .toTx ok (s.setInputs rest))) rfl rfl running next
            (fun _ => txReceives_arrive input running waiting isOpen) (nothing (by simp) (by simp))
        · rw [kept] at next; cases next
          exact .quiet rfl rfl (nothing (by simp) (by simp))
    | read r =>
      rw [step_cons input] at next; cases next
      exact .quiet rfl rfl (nothing (by simp) (by simp))
    | channel m =>
      rw [step_cons input] at next; cases next
      obtain ⟨tx, rx⟩ := channelMove_regs block m (s.setInputs rest)
      exact .quiet tx rx (nothing (by simp) (by simp))
    | close e =>
      rw [step_cons input] at next; cases next
      exact .quiet (by simp) (by simp) (nothing (by simp) (by simp))
    | reopen e =>
      rw [step_cons input] at next; cases next
      exact .quiet (by simp) (by simp) (nothing (by simp) (by simp))

end Sys2Proof.Machine
end

