-- ==== Sys2Proof/Proofs/Invariant.lean ====
section
/-!
PROOF. The invariant of both shells (R26, R30, R31, R36 to R38, R41, R42, R216, R219): it holds after reset, every step keeps
it, and under it every step completes.
-/

namespace Sys2Proof.Machine

/-! The sender's rows and phases. -/

theorem call_of_txSelect {s : State} (selected : txSelect s = .send) : s.tx.phase = .call := by
  rw [txSelect_eq] at selected
  cases phase : s.tx.phase with
  | call => rfl
  | ack =>
    simp only [phase] at selected
    split at selected
    · cases selected
    · cases selected
    · split at selected
      · cases selected
      · split at selected <;> cases selected

/-- Every row but SEND is selected in WAIT_ACK only (R228). -/
theorem ack_of_txSelect {s : State} (selected : txSelect s ≠ .send) : s.tx.phase = .ack := by
  cases phase : s.tx.phase with
  | call => exact absurd (txSelect_of_call phase) selected
  | ack => rfl

/-! The sender's registers. -/

theorem chunkFlag_eq_last_iff (len o : Nat) : chunkFlag block len o = .last ↔ o + min 1386 (len - o) = len := by
  change (if o + min 1386 (len - o) = len then EndFlag.last else .moreFollow) = _ ↔ _
  split <;> simp_all

theorem flagByteOf_eq_last_iff (flag : EndFlag) : flagByteOf flag = 0x02 ↔ flag = .last := by
  cases flag <;> decide

/-- The frame of a chunk has the size of a header and the chunk (R90, R218). -/
theorem length_of_nextFrame {t : TxRegs} {F : Bytes} (encoded : nextFrame block t = .ok F) :
    F.length = 12 + min 1386 (t.T.length - t.bytesProcessed) := by
  rw [nextFrame_block, Except.ok.injEq] at encoded
  rw [← encoded, packData_length, chunkPayload_length]; rfl

/-- Its flag byte is LAST's exactly where the chunk ends the stream (R217). -/
theorem flag_of_nextFrame {t : TxRegs} {F : Bytes} (encoded : nextFrame block t = .ok F) :
    byteAt F 5 = 0x02 ↔ t.bytesProcessed + min 1386 (t.T.length - t.bytesProcessed) = t.T.length := by
  rw [nextFrame_block, Except.ok.injEq] at encoded
  rw [← encoded, packData_flagByte, flagByteOf_eq_last_iff, chunkFlag_eq_last_iff]

/-- Of a sender that is not running, only the sizes and the timer flag are claimed. -/
theorem txInv_of_stopped {t : TxRegs} (offset : t.bytesProcessed ≤ t.T.length)
    (size : t.pending = [] ∨ (12 ≤ t.pending.length ∧ t.pending.length ≤ 1400)) (stopped : t.status ≠ .running)
    (disarmed : t.timerArmed = false) : TxInv t where
  offset := offset
  pendingSize := size
  timer := by simp [disarmed, stopped]
  bytesLeft running := absurd running stopped
  inFlight running := absurd running stopped
  bitOfChunk running := absurd running stopped

theorem TxInv.disarmed {t : TxRegs} (inv : TxInv t) (stopped : t.status ≠ .running) : t.timerArmed = false :=
  eq_false_of_ne_true fun armed => stopped (inv.timer.mp armed).1

/-- A fatal error stops the sender and keeps its sizes (R330). -/
theorem enterTxFatal_keeps_inv {code : TxStatus} {s : State} (inv : TxInv s.tx) (ended : code ≠ .running) :
    TxInv (enterTxFatal code s).tx := txInv_of_stopped inv.offset inv.pendingSize ended rfl

theorem sendChunk_keeps_inv {s : State} (inv : TxInv s.tx) (running : s.tx.status = .running) :
    TxInv (sendChunk block s).tx := by
  obtain ⟨F, encoded, sent⟩ := sendChunk_cases s
  have size := length_of_nextFrame encoded
  have frame : F = [] ∨ (12 ≤ F.length ∧ F.length ≤ 1400) := .inr (by omega)
  obtain ⟨-, done⟩ | ⟨-, failed⟩ := sent
  · rw [done]
    exact { offset := inv.offset, pendingSize := frame, timer := by simp [running], bytesLeft := inv.bytesLeft,
            inFlight := fun _ _ => encoded, bitOfChunk := inv.bitOfChunk }
  · rw [failed]
    exact txInv_of_stopped inv.offset frame (by simp) rfl

theorem retransmit_keeps_inv {s : State} (inv : TxInv s.tx) (running : s.tx.status = .running)
    (waiting : s.tx.phase = .ack) : TxInv (retransmit s).tx := by
  obtain ⟨-, done⟩ | ⟨-, failed⟩ := retransmit_cases s
  · rw [done]
    exact { offset := inv.offset, pendingSize := inv.pendingSize, timer := by simp [running, waiting],
            bytesLeft := inv.bytesLeft, inFlight := inv.inFlight, bitOfChunk := inv.bitOfChunk }
  · rw [failed]
    exact enterTxFatal_keeps_inv inv (by simp)

/-- The bit of the next chunk. -/
theorem one_sub_ofNat_bit (k : Nat) : (1 : Bit) - BitVec.ofNat 1 k = BitVec.ofNat 1 (k + 1) := by
  apply BitVec.eq_of_toNat_eq
  have one : (1 : Bit).toNat = 1 := rfl
  simp only [BitVec.toNat_sub, BitVec.toNat_ofNat, one]
  omega

/-- ACK_OK goes on to the next chunk, or ends the session with the chunk that ended the stream (R220, R221). -/
theorem acceptAck_keeps_inv {s t : State} (inv : TxInv s.tx) (running : s.tx.status = .running)
    (waiting : s.tx.phase = .ack) (next : acceptAck s = .next t) : TxInv t.tx := by
  have inFlight := inv.inFlight running waiting
  have size := length_of_nextFrame inFlight
  have last := flag_of_nextFrame inFlight
  have left := inv.bytesLeft running
  obtain ⟨-, rfl⟩ := acceptAck_next.mp next
  by_cases ends : byteAt s.tx.pending 5 = 0x02
  · exact txInv_of_stopped (by simp; omega) inv.pendingSize (by simp [ends]) rfl
  · have goesOn := mt last.mpr ends
    obtain ⟨k, chunk, bit⟩ := inv.bitOfChunk running
    refine { offset := ?_, pendingSize := inv.pendingSize, timer := by simp, bytesLeft := fun _ => ?_,
             inFlight := fun _ waiting => (by cases waiting), bitOfChunk := fun _ => ⟨k + 1, ?_, ?_⟩ }
    · simp; omega
    · simp; omega
    · simp; omega
    · simp only [State.setTx_tx, bit, one_sub_ofNat_bit]

/-- Every selected row of a running sender keeps the sender's invariant. -/
theorem txAction_keeps_inv {s t : State} (inv : TxInv s.tx) (running : s.tx.status = .running)
    (next : txAction block (txSelect s) s = .next t) : TxInv t.tx := by
  cases selected : txSelect s with
  | send => rw [selected] at next; cases next; exact sendChunk_keeps_inv inv running
  | channelFailure => rw [selected] at next; cases next; exact enterTxFatal_keeps_inv inv (by simp)
  | timeout | ackBadCorrupt | ackBadWrongBit =>
    have waiting := ack_of_txSelect (s := s) (by simp [selected])
    rw [selected] at next; cases next; exact retransmit_keeps_inv inv running waiting
  | ackOk =>
    have waiting := ack_of_txSelect (s := s) (by simp [selected])
    rw [selected] at next; exact acceptAck_keeps_inv inv running waiting next

theorem txInv_reset : TxInv TxRegs.reset := txInv_of_stopped le_rfl (.inl rfl) (by decide) rfl

/-- A name that fits gives a stream that is not empty (R214, R219). -/
theorem transferStream_length {name file : Bytes} (fits : name.length ≤ 20) :
    (transferStream block name file).length = 20 + file.length := by
  have nameLen : block.nameLen = 20 := rfl
  rw [transferStream, nameField, List.length_append, List.length_append, zeros_length, nameLen]
  omega

theorem startTx_inv {name file : Bytes} (fits : name.length ≤ 20) (s : State) : TxInv (startTx block name file s).tx where
  offset := Nat.zero_le _
  pendingSize := .inl rfl
  timer := by simp [startTx]
  bytesLeft _ := (transferStream_length (file := file) fits).symm ▸ (by omega : 0 < 20 + file.length)
  inFlight _ waiting := by cases waiting
  bitOfChunk _ := ⟨0, rfl, rfl⟩

theorem TxChange.keeps_inv {i : Instr} {s t : State} (change : TxChange i s t) (inv : TxInv s.tx) : TxInv t.tx := by
  cases change with
  | same h => rwa [h]
  | reset hi h => rw [h]; exact txInv_reset
  | configure src dst hi hs h => rw [h]; exact txInv_of_stopped inv.offset inv.pendingSize hs (inv.disarmed hs)
  | start name file hi hs hn h => rw [h]; exact startTx_inv hn s
  | refuseName name file hi hs hn h =>
    rw [h]; exact txInv_of_stopped inv.offset inv.pendingSize (by simp) (inv.disarmed hs)
  | row row u hu hr hsel h hi =>
    subst hsel
    rw [← hu] at hr inv
    exact txAction_keeps_inv inv hr h

/-! The receiver's registers. -/

section TakePayload

variable (p : Bytes) (r : RxRegs)

theorem takePayload_cases :
    (r.fileNameValid = true ∧ takePayload block p r = { r with buf := r.buf ++ p }) ∨
      (r.fileNameValid = false ∧ takePayload block p r =
        { r with fileName := capturedName block p, fileNameValid := true, buf := r.buf ++ capturedContent block p }) := by
  unfold takePayload
  cases valid : r.fileNameValid
  · exact .inr ⟨rfl, rfl⟩
  · exact .inl ⟨rfl, rfl⟩

theorem takePayload_fileNameValid : (takePayload block p r).fileNameValid = true := by
  obtain ⟨valid, h⟩ | ⟨-, h⟩ := takePayload_cases p r <;> rw [h]
  exact valid

theorem takePayload_lastAck : (takePayload block p r).lastAck = r.lastAck := by
  obtain ⟨-, h⟩ | ⟨-, h⟩ := takePayload_cases p r <;> rw [h]

theorem takePayload_lastAckValid : (takePayload block p r).lastAckValid = r.lastAckValid := by
  obtain ⟨-, h⟩ | ⟨-, h⟩ := takePayload_cases p r <;> rw [h]

theorem takePayload_status : (takePayload block p r).status = r.status := by
  obtain ⟨-, h⟩ | ⟨-, h⟩ := takePayload_cases p r <;> rw [h]

theorem takePayload_timerArmed : (takePayload block p r).timerArmed = r.timerArmed := by
  obtain ⟨-, h⟩ | ⟨-, h⟩ := takePayload_cases p r <;> rw [h]

/-- A captured name has 20 bytes (R258, R259). -/
theorem capturedName_length : (capturedName block p).length = 20 := by
  have nameLen : block.nameLen = 20 := rfl
  simp only [capturedName, List.length_append, List.length_take, zeros_length, nameLen]
  omega

theorem takePayload_fileName_length (size : r.fileName.length = 20) :
    (takePayload block p r).fileName.length = 20 := by
  obtain ⟨-, h⟩ | ⟨-, h⟩ := takePayload_cases p r <;> rw [h]
  · exact size
  · exact capturedName_length p

end TakePayload

/-- A loop that has ended keeps what is claimed of a stopped receiver (R264, R266). -/
theorem rxInv_of_ended {r : RxRegs} {status : RxStatus} (inv : RxInv r) (ended : status ≠ .running) :
    RxInv { r with status := status, timerArmed := false } where
  fileNameSize := inv.fileNameSize
  lastAckSize := inv.lastAckSize
  timer := by simp [ended]
  fresh := inv.fresh
  lastAckFrame := inv.lastAckFrame
  lastAckBit running := absurd running ended

/-- A counter is no part of the invariant. -/
theorem rxInv_of_counted {r : RxRegs} (inv : RxInv r) (corrupt wrongBit : Nat) :
    RxInv { r with cntCorrupt := corrupt, cntWrongBit := wrongBit } :=
  { inv with }

theorem resendAck_keeps_inv {s : State} (inv : RxInv s.rx) : RxInv (resendAck s).rx := by
  have counted := rxInv_of_counted inv s.rx.cntCorrupt (s.rx.cntWrongBit + 1)
  obtain ⟨-, none⟩ | ⟨-, -, resent⟩ | ⟨-, -, failed⟩ := resendAck_cases s
  · rw [none]; exact counted
  · rw [resent, transmit_rx]; exact counted
  · rw [failed]; exact rxInv_of_ended counted (by simp)

/-- The record of an ack that was sent: it acknowledges the bit before the flip (R42, R258). -/
theorem recordAck_inv {r : RxRegs} {p : Bytes} (inv : RxInv r) :
    RxInv (recordAck (ackNow block r) (takePayload block p r)) where
  fileNameSize := takePayload_fileName_length p r inv.fileNameSize
  lastAckSize := encAck_length ..
  timer := by
    change (takePayload block p r).timerArmed = true ↔ (takePayload block p r).status = .running
    rw [takePayload_timerArmed, takePayload_status]; exact inv.timer
  fresh fresh := by
    change (takePayload block p r).fileNameValid = false at fresh
    rw [takePayload_fileNameValid] at fresh; cases fresh
  lastAckFrame _ := ⟨_, _, _, rfl⟩
  lastAckBit _ _ := by
    have flip : ∀ b : Bit, 1 - (1 - b) = b := by decide
    refine ⟨rfl, ?_⟩
    change byteAt (encAck block _ _ r.bit) 4 = altByteOf (1 - (1 - (takePayload block p r).bit))
    rw [encAck_altByte, flip, takePayload_bit]

theorem acceptPacket_keeps_inv {s : State} (d : Datagram) (inv : RxInv s.rx) : RxInv (acceptPacket block d s).rx := by
  have recorded := recordAck_inv (p := (decData block d).payload) inv
  obtain ⟨-, -, more⟩ | ⟨-, -, last⟩ | ⟨-, failed⟩ := acceptPacket_cases d s
  · rw [more]; exact recorded
  · rw [last]
    exact { fileNameSize := recorded.fileNameSize, lastAckSize := recorded.lastAckSize, timer := recorded.timer,
            fresh := fun _ => ⟨rfl, rfl⟩, lastAckFrame := recorded.lastAckFrame,
            lastAckBit := fun _ valid => by cases valid }
  · rw [failed]
    refine { fileNameSize := takePayload_fileName_length _ _ inv.fileNameSize, lastAckSize := ?_, timer := by simp,
             fresh := fun fresh => ?_, lastAckFrame := fun valid => ?_, lastAckBit := fun running => by cases running }
    · rw [enterRxFatal_lastAck, State.setRx_rx, takePayload_lastAck]; exact inv.lastAckSize
    · rw [enterRxFatal_fileNameValid, State.setRx_rx, takePayload_fileNameValid] at fresh; cases fresh
    · rw [enterRxFatal_lastAckValid, State.setRx_rx, takePayload_lastAckValid] at valid
      rw [enterRxFatal_lastAck, State.setRx_rx, takePayload_lastAck]; exact inv.lastAckFrame valid

/-- Every row of the receiver keeps the receiver's invariant. -/
theorem rxAction_keeps_inv {row : RxRow} {s t : State} (inv : RxInv s.rx) (next : rxAction block row s = .next t) :
    RxInv t.rx := by
  cases row <;> cases next
  case channelFailure => exact rxInv_of_ended inv (by simp)
  case idleTimeout => exact rxInv_of_ended inv (by simp)
  case zeroDatagram => exact inv
  case packetCorrupt => exact rxInv_of_counted inv _ _
  case packetWrongBit => exact resendAck_keeps_inv inv
  case packetOkMore => exact acceptPacket_keeps_inv _ inv
  case packetOkLast => exact acceptPacket_keeps_inv _ inv

theorem rxInv_reset : RxInv RxRegs.reset where
  fileNameSize := rfl
  lastAckSize := rfl
  timer := by decide
  fresh _ := ⟨rfl, rfl⟩
  lastAckFrame valid := by cases valid
  lastAckBit running := by cases running

theorem startRx_inv {s : State} (inv : RxInv s.rx) : RxInv (startRx block s).rx where
  fileNameSize := inv.fileNameSize
  lastAckSize := inv.lastAckSize
  timer := by simp [startRx]
  fresh _ := ⟨rfl, rfl⟩
  lastAckFrame valid := by cases valid
  lastAckBit _ valid := by cases valid

theorem RxChange.keeps_inv {i : Instr} {s t : State} (change : RxChange i s t) (inv : RxInv s.rx) : RxInv t.rx := by
  cases change with
  | same h => rwa [h]
  | reset hi h => rw [h]; exact rxInv_reset
  | configure src dst hi hs h => rw [h]; exact { inv with }
  | restart hi hs h => rw [h]; exact startRx_inv inv
  | row row u hu hr hsel h hi =>
    rw [← hu] at inv
    exact rxAction_keeps_inv inv h

/-! The statements. -/

/-- Settles O28. -/
theorem resetMeetsTheInvariant : Obligations.ResetMeetsTheInvariant := ⟨txInv_reset, rxInv_reset⟩

/-- Settles O29: an operation and a row of one shell keep that shell's invariant and leave the other's registers. -/
theorem stepKeepsTheInvariant : Obligations.StepKeepsTheInvariant := by
  intro s t inv next
  cases step_case next with
  | quiet txSame rxSame => exact ⟨txSame ▸ inv.tx, rxSame ▸ inv.rx⟩
  | operation i u op runs txRegs rxRegs next =>
    obtain ⟨txChange, rxChange⟩ := exec_change next
    exact ⟨txChange.keeps_inv (txRegs ▸ inv.tx), rxChange.keeps_inv (rxRegs ▸ inv.rx)⟩
  | sender u txRegs rxRegs running next =>
    exact ⟨txAction_keeps_inv (txRegs ▸ inv.tx) (txRegs ▸ running) next,
      ((txAction_rx next).trans rxRegs) ▸ inv.rx⟩
  | receiver u txRegs rxRegs running next =>
    exact ⟨((rxAction_tx next).trans txRegs) ▸ inv.tx, rxAction_keeps_inv (rxRegs ▸ inv.rx) next⟩

/-! Completion. -/

/-- The outcome is a next state, or it is the fault of ACK_OK on a frame in flight without a header (R14, assumption log 17). -/
def CompletesOrShort (r : StepResult) (t : TxRegs) : Prop :=
  (∃ u, r = .next u) ∨
    (r = .fault .pendingNotAFrame ∧ t.status = .running ∧ t.phase = .ack ∧ t.pending.length < 12)

/-- Under the invariant the frame in flight has a header (R26). -/
theorem TxInv.header_in_flight {t : TxRegs} (inv : TxInv t) (running : t.status = .running) (waiting : t.phase = .ack) :
    12 ≤ t.pending.length := by
  have size := length_of_nextFrame (inv.inFlight running waiting)
  omega

theorem CompletesOrShort.next_of_inv {r : StepResult} {t : TxRegs} (outcome : CompletesOrShort r t) (inv : TxInv t) :
    ∃ u, r = .next u := by
  obtain next | ⟨-, running, waiting, short⟩ := outcome
  · exact next
  · exact absurd (inv.header_in_flight running waiting) (Nat.not_le.mpr short)

/-- A row of the sender completes where ACK_OK has a header to look at. -/
theorem txAction_total {row : TxRow} {s : State} (header : row = .ackOk → 12 ≤ s.tx.pending.length) :
    ∃ t, txAction block row s = .next t := by
  cases row with
  | ackOk => exact ⟨_, acceptAck_next.mpr ⟨header rfl, rfl⟩⟩
  | _ => exact ⟨_, rfl⟩

theorem txAction_completes {s : State} (running : s.tx.status = .running) :
    CompletesOrShort (txAction block (txSelect s) s) s.tx := by
  by_cases header : txSelect s = .ackOk → 12 ≤ s.tx.pending.length
  · exact .inl (txAction_total header)
  · obtain ⟨selected, short⟩ := Classical.not_imp.mp header
    have waiting := ack_of_txSelect (s := s) (by simp [selected])
    rw [selected]
    exact .inr ⟨if_pos (Nat.not_le.mp short), running, waiting, Nat.not_le.mp short⟩

theorem arriveAtTx_completes (d : Datagram) (s : State) : CompletesOrShort (arriveAtTx d s) s.tx := by
  obtain ⟨⟨running, -, -⟩, judged⟩ | ⟨-, kept⟩ := arriveAtTx_cases d s
  · rw [judged]
    exact txAction_completes (s := receiveTx d s) running
  · exact .inl ⟨_, kept⟩

theorem arriveAtRx_total (d : Datagram) (s : State) : ∃ t, arriveAtRx d s = .next t := by
  obtain ⟨-, judged⟩ | ⟨-, kept⟩ := arriveAtRx_cases d s
  · rw [judged]; exact rxAction_total _ _
  · exact ⟨_, kept⟩

/-- How a step can end, in any state: on a code that selects nothing, or by a next state or the fault of ACK_OK. -/
theorem step_completes (s : State) :
    CompletesOrShort (step s) s.tx ∨
      ∃ code o rest, s.env.inputs = .host code o :: rest ∧ unusedCode code ∧
        step s = .refused (.noSuchOperation code) := by
  cases input : s.env.inputs with
  | nil => exact .inl (.inl ⟨s, step_nil input⟩)
  | cons x rest =>
    cases x with
    | host code o =>
      obtain ⟨unused, -⟩ | ⟨-, i, decoded, op⟩ := decodeOp_cases code o
      · exact .inr ⟨code, o, rest, rfl, unused, step_host_unused input unused⟩
      · rw [step_host input decoded]
        exact .inl (.inl (exec_operation_total op _))
    | txTurn ch ok =>
      by_cases running : s.tx.status = .running
      · rw [step_txTurn_of_running input running]
        have outcome := txAction_completes (s := pollTx ch ok (s.setInputs rest)) (by rwa [pollTx_tx])
        rw [pollTx_tx] at outcome
        exact .inl outcome
      · exact .inl (.inl ⟨_, (step_txTurn input).trans (if_neg running)⟩)
    | rxTurn ch ok =>
      by_cases running : s.rx.status = .running
      · rw [step_rxTurn_of_running input running]
        exact .inl (.inl (rxAction_total _ _))
      · exact .inl (.inl ⟨_, (step_rxTurn input).trans (if_neg running)⟩)
    | arrive dir d ok =>
      cases dir with
      | toRx => rw [step_arrive_toRx input]; exact .inl (.inl (arriveAtRx_total d _))
      | toTx => rw [step_arrive_toTx input]; exact .inl (arriveAtTx_completes d (grantSend .toTx ok (s.setInputs rest)))
    | read r => exact .inl (.inl ⟨_, step_cons input⟩)
    | channel m => exact .inl (.inl ⟨_, step_cons input⟩)
    | close e => exact .inl (.inl ⟨_, step_cons input⟩)
    | reopen e => exact .inl (.inl ⟨_, step_cons input⟩)

/-- Settles O26: the invariant excludes the fault. -/
theorem stepCompletesUnderTheInvariant : Obligations.StepCompletesUnderTheInvariant :=
  fun s inv => (step_completes s).imp (fun outcome => outcome.next_of_inv inv.tx) id

end Sys2Proof.Machine
end

