-- ==== Sys2Proof/Proofs/Placing.lean ====
section
/-!
PROOF. Which rows a step can reach (R228, R254), and that a placed instruction is the one the next step runs (assumption log
16).
-/

namespace Sys2Proof.Machine

/-! Rows that are not selected. -/

theorem exec_txRow_of_not_selected {row : TxRow} {s : State} (other : txSelect s ≠ row) :
    exec row.instr s = .refused (.txRowNotSelected row) := by
  have unselected : ¬(s.tx.status = .running ∧ txSelect s = row) := fun both => other both.2
  cases row <;> exact if_neg unselected

/-- Settles O25: WAIT_CALL selects SEND and WAIT_ACK another row; a step runs what it has selected. -/
theorem stepNeverReachesAPairWithoutARow : Obligations.StepNeverReachesAPairWithoutARow := by
  refine ⟨fun s call row other => ?_, fun s waiting => ?_, fun s => ?_⟩
  · exact exec_txRow_of_not_selected ((txSelect_of_call call).trans_ne other.symm)
  · refine exec_txRow_of_not_selected (row := .send) fun selected => ?_
    rw [call_of_txSelect selected] at waiting; cases waiting
  · obtain (⟨t, next⟩ | ⟨fault, -⟩) | ⟨code, o, rest, -, -, refused⟩ := step_completes s
    · simp [next]
    · simp [fault]
    · simp [refused]

/-! Placing (assumption log 16). -/

/-- The step of `p`, where an instruction was placed in `s`, runs it on the same registers and the rest of the environment, and
completes under the invariant. -/
def RunsPlaced (i : Instr) (s p : State) : Prop :=
  ∃ u, step p = exec i u ∧ u.tx = p.tx ∧ u.rx = p.rx ∧ u.env.inputs = s.env.inputs ∧ u.env.result = s.env.result ∧
    u.env.sink = s.env.sink ∧ u.env.injector = s.env.injector ∧ (s.Inv → ∃ t, exec i u = .next t)

theorem runsPlaced_op {code : BitVec 4} {o : HostOperands} {i : Instr} (decoded : decodeOp code o = .ok i) (s : State) :
    RunsPlaced i s (placeEncoded (.op code o) s) :=
  ⟨s, step_host rfl decoded, rfl, rfl, rfl, rfl, rfl, rfl,
    fun _ => exec_operation_total (isOperation_of_decodeOp decoded) s⟩

theorem runsPlaced_dataRow (flag : EndFlag) (f : DataFields) (s : State) :
    RunsPlaced (dataRow flag f) s (placeEncoded (.dataFrame (dataFrameBytes flag f)) s) := by
  refine ⟨grantSend .toRx true s, ?_, rfl, rfl, rfl, rfl, rfl, rfl, fun _ => ?_⟩
  · rw [step_arrive_toRx rfl, exec_dataRow]; rfl
  · rw [exec_dataRow]; exact arriveAtRx_total _ _

theorem runsPlaced_ack (f : AckFields) (s : State) : RunsPlaced (.ack f) s (placeEncoded (.ackFrame (ackFrameBytes f)) s) := by
  refine ⟨grantSend .toTx true s, ?_, rfl, rfl, rfl, rfl, rfl, rfl, fun inv => ?_⟩
  · rw [step_arrive_toTx rfl, exec_ack]; rfl
  · exact (arriveAtTx_completes _ (grantSend .toTx true s)).next_of_inv inv.tx

/-- The phase of the sender in which a row is selected (R111, R228). -/
def rowPhase : TxRow → TxPhase
  | .send => .call
  | _ => .ack

/-- A sender in the state that a row needs: running, in the row's phase, with a frame in flight where there has to be one. -/
structure ReadyTx (row : TxRow) (s t : State) : Prop where
  running : t.tx.status = .running
  phase : t.tx.phase = rowPhase row
  env : t.env = s.env
  header : rowPhase row = .ack → TxInv s.tx → 12 ≤ t.tx.pending.length

theorem readyTxCall_ready (s : State) : ReadyTx .send s (readyTxCall s) := by
  unfold readyTxCall
  by_cases ready : s.tx.status = .running ∧ s.tx.phase = .call
  · rw [if_pos ready]
    exact ⟨ready.1, ready.2, rfl, fun ack => by cases ack⟩
  · rw [if_neg ready]
    exact ⟨rfl, rfl, rfl, fun ack => by cases ack⟩

/-- A session started for a placed row has its chunk in flight. -/
theorem readyTxAck_ready {row : TxRow} (waits : rowPhase row = .ack) (s : State) : ReadyTx row s (readyTxAck s) := by
  unfold readyTxAck
  by_cases ready : s.tx.status = .running ∧ s.tx.phase = .ack
  · rw [if_pos ready]
    exact ⟨ready.1, ready.2.trans waits.symm, rfl, fun _ inv => inv.header_in_flight ready.1 ready.2⟩
  · rw [if_neg ready]
    dsimp only
    rw [nextFrame_block]
    refine ⟨rfl, waits.symm, rfl, fun _ _ => ?_⟩
    change 12 ≤ (packData _ _ _ _ _ _).length
    rw [packData_length]; omega

theorem readyTx_ready (row : TxRow) (s : State) : ReadyTx row s (readyTx row s) := by
  cases row with
  | send => exact readyTxCall_ready s
  | _ => exact readyTxAck_ready rfl s

theorem readyRx_ready (s : State) :
    (readyRx s).rx.status = .running ∧ (readyRx s).env = s.env := by
  unfold readyRx
  by_cases ready : s.rx.status = .running
  · rw [if_pos ready]; exact ⟨ready, rfl⟩
  · rw [if_neg ready]; exact ⟨rfl, rfl⟩

theorem one_sub_bit_ne : ∀ b : Bit, 1 - b ≠ b := by decide

/-- The choice made for a row selects it, in a sender that is ready and whose end is open. -/
theorem txSelect_placed {row : TxRow} {t : State} (phase : t.tx.phase = rowPhase row)
    (isOpen : t.env.txEnd.fails = false) (ok : Bool) :
    txSelect (pollTx (txChoiceFor row t) ok t) = row := by
  have recv (waits : rowPhase row = .ack) (ch : RecvChoice) :
      (pollTx ch ok t).env.txPort.recv = resolve ch t.env.toTx := by
    rw [pollTx_recv_ack t ch ok (phase.trans waits), txOutcome, grantRecv_open isOpen]
  rw [← pollTx_tx t (txChoiceFor row t) ok] at phase
  have header (b : Bit) : (decAck block (encAck block 0 0 b)).header = some _ := congrArg AckVerdict.header decAck_encAck
  cases row with
  | send => exact txSelect_of_call phase
  | channelFailure => exact txSelect_of_failure phase (recv rfl _)
  | timeout => exact txSelect_of_timeout phase (recv rfl _)
  | ackBadCorrupt => exact txSelect_of_corrupt_ack phase (recv rfl _) (decAck_zeros_frameOk 0)
  | ackBadWrongBit =>
    rw [txSelect_of_valid_ack phase (recv rfl _) frameOk_encAck (header _), pollTx_tx, if_neg (one_sub_bit_ne _)]
  | ackOk => rw [txSelect_of_valid_ack phase (recv rfl _) frameOk_encAck (header _), pollTx_tx, if_pos rfl]

/-- The choice made for a row selects it, in a state whose receiver's end is open. -/
theorem rxSelect_placed (row : RxRow) {t : State} (isOpen : t.env.rxEnd.fails = false) (ok : Bool) :
    rxSelect (pollRx (rxChoiceFor row t) ok t) = row := by
  have recv (ch : RecvChoice) : (pollRx ch ok t).env.rxPort.recv = resolve ch t.env.toRx := by
    rw [pollRx_recv, rxOutcome, grantRecv_open isOpen]
  have packed (b : Bit) (flag : EndFlag) :=
    decData_packData (src := 0) (dst := 0) (a := b) (flag := flag) (p := []) (by decide)
  have valid (b : Bit) (flag : EndFlag) : (decData block (packData block 0 0 b flag [])).frameOk = true :=
    congrArg DataVerdict.frameOk (packed b flag)
  have judged (b : Bit) (flag : EndFlag) :=
    rxSelect_of_valid_packet (recv (.bytes (packData block 0 0 b flag []))) (allZero_of_decData (valid b flag))
      (valid b flag) (congrArg DataVerdict.header (packed b flag))
  cases row with
  | channelFailure => rw [rxSelect_eq, recv]; rfl
  | idleTimeout => rw [rxSelect_eq, recv]; rfl
  | zeroDatagram => exact rxSelect_of_zero_datagram (recv _) rfl
  | packetCorrupt => exact rxSelect_of_corrupt_packet (recv _) rfl rfl
  | packetWrongBit => exact (judged _ _).trans (if_neg (one_sub_bit_ne _))
  | packetOkMore => exact (judged _ _).trans (if_pos rfl)
  | packetOkLast => exact (judged _ _).trans (if_pos rfl)

theorem pollTx_env (ch : RecvChoice) (ok : Bool) (t : State) :
    (pollTx ch ok t).env.inputs = t.env.inputs ∧ (pollTx ch ok t).env.result = t.env.result ∧
      (pollTx ch ok t).env.sink = t.env.sink ∧ (pollTx ch ok t).env.injector = t.env.injector := by
  unfold pollTx
  split <;> exact ⟨rfl, rfl, rfl, rfl⟩

/-- The sender's end of the Channel opened. -/
def openTxEnd (s : State) : State := s.onEnd .sender fun _ => ⟨false, false⟩

/-- The receiver's end of the Channel opened. -/
def openRxEnd (s : State) : State := s.onEnd .receiver fun _ => ⟨false, false⟩

/-- The placed input taken again leaves the state it was placed in. -/
theorem setInputs_setInputs_self (s : State) (l : List Input) : (s.setInputs l).setInputs s.env.inputs = s := rfl

/-- The turn placed for a row of the sender, in a sender that is ready. -/
theorem runsPlaced_txTurn {row : TxRow} {s t : State} (ready : ReadyTx row s t) :
    RunsPlaced row.instr s
      ((openTxEnd t).setInputs (.txTurn (txChoiceFor row (openTxEnd t)) true :: (openTxEnd t).env.inputs)) := by
  obtain ⟨running, phase, env, header⟩ := ready
  have selected := txSelect_placed (row := row) (t := openTxEnd t) phase rfl true
  obtain ⟨inputs, result, sink, injector⟩ := pollTx_env (txChoiceFor row (openTxEnd t)) true (openTxEnd t)
  refine ⟨pollTx (txChoiceFor row (openTxEnd t)) true (openTxEnd t), ?_, pollTx_tx .., pollTx_rx ..,
    inputs.trans (env ▸ rfl), result.trans (env ▸ rfl), sink.trans (env ▸ rfl), injector.trans (env ▸ rfl), fun inv => ?_⟩
  · rw [step_txTurn rfl, setInputs_setInputs_self, selected]
    exact if_pos running
  · rw [exec_txRow (by rwa [pollTx_tx]) selected]
    refine txAction_total fun ackOk => ?_
    rw [pollTx_tx]
    exact header (by rw [ackOk]; rfl) inv.tx

/-- The turn placed for a row of the receiver, in a receiver that is running. -/
theorem runsPlaced_rxTurn (row : RxRow) {s t : State} (running : t.rx.status = .running) (env : t.env = s.env) :
    RunsPlaced row.instr s
      ((openRxEnd t).setInputs (.rxTurn (rxChoiceFor row (openRxEnd t)) true :: (openRxEnd t).env.inputs)) := by
  have selected := rxSelect_placed row (t := openRxEnd t) rfl true
  refine ⟨pollRx (rxChoiceFor row (openRxEnd t)) true (openRxEnd t), ?_, rfl, rfl, env ▸ rfl, env ▸ rfl, env ▸ rfl,
    env ▸ rfl, fun _ => ?_⟩
  · rw [step_rxTurn rfl, setInputs_setInputs_self, selected]
    exact if_pos running
  · rw [exec_rxRow (by exact running) selected]
    exact rxAction_total _ _

/-- Settles O24: by the shape of what stands for the instruction, which decodes to it. -/
theorem placedInstructionIsRunNext : Obligations.PlacedInstructionIsRunNext := by
  intro i s wf
  have decoded := decodeInvertsEncode i wf
  change RunsPlaced i s (placeEncoded (encode i) s)
  cases encoded : encode i with
  | op code o => rw [encoded] at decoded; exact runsPlaced_op decoded s
  | txVector v => rw [encoded] at decoded; cases decoded; exact runsPlaced_txTurn (readyTx_ready _ s)
  | rxVector v =>
    rw [encoded] at decoded; cases decoded
    exact runsPlaced_rxTurn _ (readyRx_ready s).1 (readyRx_ready s).2
  | dataFrame d =>
    rw [encoded] at decoded
    obtain ⟨flag, shape, rfl⟩ := shape_of_decodeDataFrame decoded
    have placed := runsPlaced_dataRow flag (dataFieldsOf d) s
    rwa [dataFrameBytes_dataFieldsOf shape] at placed
  | ackFrame d =>
    rw [encoded] at decoded
    obtain ⟨shape, rfl⟩ := shape_of_decodeAckFrame decoded
    have placed := runsPlaced_ack (ackFieldsOf d) s
    rwa [ackFrameBytes_ackFieldsOf shape] at placed

end Sys2Proof.Machine
end

