-- ==== Sys2Proof/Proofs/SenderSteps.lean ====
section
/-!
PROOF. The sender over instructions and steps (R216, R217, R227, R229, R73): when its bit and offset move, what it keeps while
a frame is in flight, an oversized chunk, and the partition of the stream into chunks.
-/

namespace Sys2Proof.Machine

/-! An oversized chunk (R227). -/

theorem sendChunk_of_oversized {c : Config} {s : State}
    (large : 12 + min c.chunkMax (s.tx.T.length - s.tx.bytesProcessed) > c.maxFrame) :
    sendChunk c s = enterTxFatal .errPayload s := by
  have refused : ∃ n, nextFrame c s.tx = .error (.payloadTooLarge n) := by
    obtain ⟨-, refused⟩ | ⟨fits, -⟩ := encData_cases c s.tx.srcPort.toNat s.tx.dstPort.toNat s.tx.bit
      (chunkFlag c s.tx.T.length s.tx.bytesProcessed) (chunkPayload c s.tx.T s.tx.bytesProcessed)
    · exact ⟨_, refused⟩
    · rw [chunkPayload_length, chunkLength, Config.headerSize] at fits; omega
  obtain ⟨n, refused⟩ := refused
  rw [sendChunk, refused]

/-- Settles O36: the encoder refuses an oversized chunk; the block's SEND changes the status where its send fails. -/
theorem oversizedChunkStopsTheSender : Obligations.OversizedChunkStopsTheSender := by
  refine ⟨fun c s large => sendChunk_of_oversized large, fun s changed => ?_⟩
  obtain ⟨F, -, ⟨-, done⟩ | ⟨-, failed⟩⟩ := sendChunk_cases s
  · rw [done] at changed; exact absurd rfl changed
  · rw [failed]; rfl

/-! When the sender advances (R229). -/

/-- The bit or the offset is another. -/
def Advanced (t u : TxRegs) : Prop := u.bit ≠ t.bit ∨ u.bytesProcessed ≠ t.bytesProcessed

theorem not_advanced_of_eq {t u : TxRegs} (bit : u.bit = t.bit) (offset : u.bytesProcessed = t.bytesProcessed) :
    ¬Advanced t u := fun moved => moved.elim (fun h => h bit) (fun h => h offset)

theorem not_advanced_self (t : TxRegs) : ¬Advanced t t := not_advanced_of_eq rfl rfl

theorem retransmit_not_advanced (s : State) : ¬Advanced s.tx (retransmit s).tx := by
  obtain ⟨-, h⟩ | ⟨-, h⟩ := retransmit_cases s <;> rw [h] <;> exact not_advanced_of_eq rfl rfl

/-- Of the sender's rows only ACK_OK advances it. -/
theorem row_of_advanced {row : TxRow} {s t : State} (next : txAction block row s = .next t) (moved : Advanced s.tx t.tx) :
    row = .ackOk := by
  cases row with
  | ackOk => rfl
  | send =>
    cases next
    obtain ⟨F, -, ⟨-, h⟩ | ⟨-, h⟩⟩ := sendChunk_cases s <;> rw [h] at moved <;>
      exact absurd moved (not_advanced_of_eq rfl rfl)
  | channelFailure => cases next; exact absurd moved (not_advanced_of_eq rfl rfl)
  | timeout => cases next; exact absurd moved (retransmit_not_advanced s)
  | ackBadCorrupt => cases next; exact absurd moved (retransmit_not_advanced s)
  | ackBadWrongBit => cases next; exact absurd moved (retransmit_not_advanced s)

/-- A datagram is a valid ack of that bit. -/
def AcksBit (d : Datagram) (b : Bit) : Prop :=
  (decAck block d).frameOk = true ∧ ∃ h, (decAck block d).header = some h ∧ h.altBit = b

/-- ACK_OK is selected in WAIT_ACK by a valid ack of the current bit (R111). -/
theorem received_of_ackOk {s : State} (selected : txSelect s = .ackOk) :
    s.tx.phase = .ack ∧ ∃ d, s.env.txPort.recv = .bytes d ∧ AcksBit d s.tx.bit := by
  have waiting := ack_of_txSelect (s := s) (by simp [selected])
  refine ⟨waiting, ?_⟩
  cases received : s.env.txPort.recv with
  | failure => rw [txSelect_of_failure waiting received] at selected; cases selected
  | timeout => rw [txSelect_of_timeout waiting received] at selected; cases selected
  | bytes d =>
    refine ⟨d, rfl, ?_⟩
    by_cases corrupt : (decAck block d).frameOk = false
    · rw [txSelect_of_corrupt_ack waiting received corrupt] at selected; cases selected
    · have valid := eq_true_of_ne_false corrupt
      have header : (decAck block d).header = some (ackHeaderOf block d) := by
        rw [decAck_of_length_eq block (decAck_frameOk valid).1]
      rw [txSelect_of_valid_ack waiting received valid header] at selected
      split at selected
      · exact ⟨valid, _, header, ‹_›⟩
      · cases selected

/-- The statement about one instruction. -/
theorem instr_of_advanced {i : Instr} {s t : State} (next : exec i s = .next t) (moved : Advanced s.tx t.tx) :
    i = .txAckOk ∨ i = .hwReset ∨ (∃ name file, i = .txStart name file) ∨
      ∃ f, i = .ack f ∧ s.tx.status = .running ∧ s.tx.phase = .ack ∧
        (decAck block (ackFrameBytes f)).frameOk = true ∧ f.altBit = s.tx.bit := by
  cases (exec_change next).1 with
  | same h => rw [h] at moved; exact absurd moved (not_advanced_self _)
  | reset hi h => exact .inr (.inl hi)
  | configure src dst hi hs h => rw [h] at moved; exact absurd moved (not_advanced_of_eq rfl rfl)
  | start name file hi hs hn h => exact .inr (.inr (.inl ⟨name, file, hi⟩))
  | refuseName name file hi hs hn h => rw [h] at moved; exact absurd moved (not_advanced_of_eq rfl rfl)
  | row row u hu hr hsel h hi =>
    have ackOk := row_of_advanced h (hu.symm ▸ moved)
    obtain hi | ⟨f, hi, -⟩ := hi
    · rw [ackOk] at hi; exact .inl hi
    · subst hi
      rw [exec_ack] at next
      obtain ⟨⟨running, waiting, -⟩, judged⟩ | ⟨-, kept⟩ := arriveAtTx_cases (ackFrameBytes f) s
      · rw [judged] at next
        have selected := row_of_advanced (s := receiveTx (ackFrameBytes f) s) next moved
        obtain ⟨-, d, received, valid, h, header, bit⟩ := received_of_ackOk selected
        obtain rfl : ackFrameBytes f = d := RecvOutcome.bytes.inj received
        rw [decAck_ackFrameBytes] at header
        obtain rfl := Option.some.inj header
        exact .inr (.inr (.inr ⟨f, rfl, running, waiting, valid, bit⟩))
      · rw [kept] at next; cases next
        rw [transmit_tx] at moved; exact absurd moved (not_advanced_self _)

/-- Settles O37: an operation that advances the sender is a reset or a start, and the row that does is ACK_OK. -/
theorem senderAdvancesOnlyOnAckOk : Obligations.SenderAdvancesOnlyOnAckOk := by
  refine ⟨fun i s t next moved => instr_of_advanced next moved, fun s t next moved => ?_⟩
  have moved : Advanced s.tx t.tx := moved
  cases step_case next with
  | quiet txSame => rw [txSame] at moved; exact absurd moved (not_advanced_self _)
  | operation i u op runs txRegs rxRegs next =>
    obtain rfl | rfl | ⟨name, file, rfl⟩ | ⟨f, rfl, -⟩ := instr_of_advanced next (txRegs.symm ▸ moved)
    · cases op
    · exact .inl ⟨u, runs⟩
    · exact .inr (.inl ⟨name, file, u, runs⟩)
    · cases op
  | sender u txRegs rxRegs running next receives =>
    have selected := row_of_advanced next (txRegs.symm ▸ moved)
    obtain ⟨waiting, d, received, valid, h, header, bit⟩ := received_of_ackOk selected
    rw [txRegs] at waiting bit
    refine .inr (.inr ⟨d, h, ?_, valid, header, bit⟩)
    rw [receives waiting, received]; rfl
  | receiver u txRegs rxRegs running next =>
    rw [rxAction_tx next, txRegs] at moved; exact absurd moved (not_advanced_self _)

/-! What is kept in flight (R23, R29, R73). -/

/-- The frame in flight, the stream and the ports are the same. -/
def SameInFlight (t u : TxRegs) : Prop :=
  u.pending = t.pending ∧ u.T = t.T ∧ u.srcPort = t.srcPort ∧ u.dstPort = t.dstPort

theorem sameInFlight_self (t : TxRegs) : SameInFlight t t := ⟨rfl, rfl, rfl, rfl⟩

theorem retransmit_sameInFlight (s : State) : SameInFlight s.tx (retransmit s).tx := by
  obtain ⟨-, h⟩ | ⟨-, h⟩ := retransmit_cases s <;> rw [h] <;> exact sameInFlight_self _

/-- Every row but SEND keeps them. -/
theorem txAction_sameInFlight {row : TxRow} {s t : State} (other : row ≠ .send) (next : txAction block row s = .next t) :
    SameInFlight s.tx t.tx := by
  cases row with
  | send => exact absurd rfl other
  | channelFailure => cases next; exact sameInFlight_self _
  | timeout => cases next; exact retransmit_sameInFlight s
  | ackBadCorrupt => cases next; exact retransmit_sameInFlight s
  | ackBadWrongBit => cases next; exact retransmit_sameInFlight s
  | ackOk => rw [(acceptAck_next.mp next).2]; exact sameInFlight_self _

/-- In WAIT_ACK the selected row is not SEND. -/
theorem selected_sameInFlight {s t : State} (waiting : s.tx.phase = .ack) (next : txAction block (txSelect s) s = .next t) :
    SameInFlight s.tx t.tx :=
  txAction_sameInFlight (fun send => by rw [call_of_txSelect send] at waiting; cases waiting) next

theorem exec_sameInFlight {i : Instr} {s t : State} (next : exec i s = .next t) (other : i ≠ .hwReset)
    (running : s.tx.status = .running) (waiting : s.tx.phase = .ack) : SameInFlight s.tx t.tx := by
  cases (exec_change next).1 with
  | same h => rw [h]; exact sameInFlight_self _
  | reset hi h => exact absurd hi other
  | configure src dst hi hs h => exact absurd running hs
  | start name file hi hs hn h => exact absurd running hs
  | refuseName name file hi hs hn h => exact absurd running hs
  | row row u hu hr hsel h hi =>
    subst hsel
    rw [← hu] at waiting ⊢
    exact selected_sameInFlight waiting h

/-- Settles O38: a running sender's host commands are refused, and in WAIT_ACK no row writes them. -/
theorem pendingIsUnchangedInFlight : Obligations.PendingIsUnchangedInFlight := by
  refine ⟨fun i s t => exec_sameInFlight, fun s t next noReset running waiting => ?_⟩
  change SameInFlight s.tx t.tx
  cases step_case next with
  | quiet txSame => rw [txSame]; exact sameInFlight_self _
  | operation i u op runs txRegs rxRegs next =>
    rw [← txRegs] at running waiting ⊢
    exact exec_sameInFlight next (fun reset => noReset u (reset ▸ runs)) running waiting
  | sender u txRegs rxRegs _ next =>
    rw [← txRegs] at waiting ⊢
    exact selected_sameInFlight waiting next
  | receiver u txRegs rxRegs _ next => rw [rxAction_tx next, txRegs]; exact sameInFlight_self _

/-! The chunks (R216, R217). -/

/-- A chunk is the next 1386 bytes, or what is left. -/
theorem chunkPayload_eq_take (T : Bytes) (o : Nat) : chunkPayload block T o = (T.drop o).take 1386 := by
  have chunkMax : block.chunkMax = 1386 := rfl
  rw [chunkPayload, slice, Nat.add_sub_cancel_left, chunkLength, chunkMax, List.take_eq_take_iff, List.length_drop]
  omega

/-- The first `n` chunks are the first `n * 1386` bytes. -/
theorem flatten_chunks (T : Bytes) (n : Nat) :
    ((List.range n).map fun k => chunkPayload block T (k * 1386)).flatten = T.take (n * 1386) := by
  induction n with
  | zero => simp
  | succ n ih =>
    rw [List.range_succ, List.map_append, List.flatten_append, ih, Nat.succ_mul, List.take_add, List.map_singleton,
      List.flatten_singleton, chunkPayload_eq_take]

/-- Settles O39: by the number of chunks, the last one ends the stream and no earlier one does. -/
theorem chunksPartitionTheStream : Obligations.ChunksPartitionTheStream := by
  intro T long K
  have length (o : Nat) : (chunkPayload block T o).length = min 1386 (T.length - o) := chunkPayload_length block T o
  have count : T.length ≤ K * 1386 ∧ K * 1386 < T.length + 1386 ∧ 1 ≤ K := by omega
  obtain ⟨covers, tight, nonempty⟩ := count
  clear_value K
  refine ⟨?_, nonempty, fun k inner => ⟨?_, ?_⟩, ?_, by omega, by omega, ?_⟩
  · rw [flatten_chunks, List.take_of_length_le covers]
  · rw [length]; omega
  · have inside : ¬k * 1386 + min 1386 (T.length - k * 1386) = T.length := by omega
    exact if_neg inside
  · rw [length]; omega
  · have ends : (K - 1) * 1386 + min 1386 (T.length - (K - 1) * 1386) = T.length := by omega
    exact (chunkFlag_eq_last_iff _ _).mpr ends

end Sys2Proof.Machine
end

