-- ==== Sys2Proof/Proofs/ReceiverSteps.lean ====
section
/-!
PROOF. The receiver over instructions and steps (R39, R72, R269, R270, R376): when its bit, its buffer and its counters move,
what a second copy of a frame does, and the start and end of its loop (R253, R264, R266).
-/

namespace Sys2Proof.Machine

/-- Settles O41: refused while running; otherwise `startRx`. -/
theorem rxRestartClearsTheReceiver : Obligations.RxRestartClearsTheReceiver := by
  intro s
  by_cases running : s.rx.status = .running
  · exact ⟨some .commandRefused, by rw [if_pos running]; exact exec_rxRestart_of_running running⟩
  · exact ⟨some .commandDone, by rw [if_neg running]; exact exec_rxRestart_of_stopped running⟩

/-! What selects a row, by inversion (R112). -/

theorem rxSelect_of_failure {s : State} (received : s.env.rxPort.recv = .failure) : rxSelect s = .channelFailure := by
  simp only [rxSelect_eq, received]

theorem rxSelect_of_timeout {s : State} (received : s.env.rxPort.recv = .timeout) : rxSelect s = .idleTimeout := by
  simp only [rxSelect_eq, received]

/-- Settles O46: the outcome selects the row. -/
theorem timeoutAndFailureEndTheReceiver : Obligations.TimeoutAndFailureEndTheReceiver := by
  intro s running
  refine ⟨fun received => ?_, fun received => ?_⟩
  · exact exec_rxRow running (rxSelect_of_timeout received)
  · exact exec_rxRow running (rxSelect_of_failure received)

/-- A datagram is a valid data frame with that header. -/
structure ValidPacket (d : Datagram) (h : DataHeader) : Prop where
  nonzero : allZero d = false
  frameOk : (decData block d).frameOk = true
  header : (decData block d).header = some h

/-- A datagram that DEC_DATA accepts has a header. -/
theorem validPacket_of_frameOk {d : Datagram} (frameOk : (decData block d).frameOk = true) :
    ValidPacket d (dataHeaderOf block d) := by
  refine ⟨allZero_of_decData frameOk, frameOk, ?_⟩
  rw [decData_of_complete_header block (Nat.not_lt.mpr (decData_frameOk frameOk).1)]

/-- The four judgements of a datagram. -/
theorem rxSelect_cases {s : State} {d : Datagram} (received : s.env.rxPort.recv = .bytes d) :
    (allZero d = true ∧ rxSelect s = .zeroDatagram) ∨
      (allZero d = false ∧ (decData block d).frameOk = false ∧ rxSelect s = .packetCorrupt) ∨
      (∃ h, ValidPacket d h ∧ h.altBit ≠ s.rx.bit ∧ rxSelect s = .packetWrongBit) ∨
      ∃ h, ValidPacket d h ∧ h.altBit = s.rx.bit ∧ rxSelect s = packetOkRow h.endFlag := by
  cases zero : allZero d with
  | true => exact .inl ⟨rfl, rxSelect_of_zero_datagram received zero⟩
  | false =>
    cases ok : (decData block d).frameOk with
    | false => exact .inr (.inl ⟨rfl, rfl, rxSelect_of_corrupt_packet received zero ok⟩)
    | true =>
      have valid := validPacket_of_frameOk ok
      have selected := rxSelect_of_valid_packet received zero ok valid.header
      by_cases bit : (dataHeaderOf block d).altBit = s.rx.bit
      · rw [if_pos bit] at selected; exact .inr (.inr (.inr ⟨_, valid, bit, selected⟩))
      · rw [if_neg bit] at selected; exact .inr (.inr (.inl ⟨_, valid, bit, selected⟩))

/-- One of the two rows of PACKET_OK. -/
abbrev IsPacketOk (row : RxRow) : Prop := row = .packetOkMore ∨ row = .packetOkLast

theorem isPacketOk_packetOkRow (flag : WireFlag) : IsPacketOk (packetOkRow flag) := by
  unfold packetOkRow
  split
  · exact .inr rfl
  · exact .inl rfl

/-- PACKET_OK is selected by a valid frame with the expected bit, which tells the row by its flag. -/
theorem received_of_packetOk {s : State} (ok : IsPacketOk (rxSelect s)) :
    ∃ d h, s.env.rxPort.recv = .bytes d ∧ ValidPacket d h ∧ h.altBit = s.rx.bit ∧ rxSelect s = packetOkRow h.endFlag := by
  cases received : s.env.rxPort.recv with
  | failure => rw [rxSelect_of_failure received] at ok; simp [IsPacketOk] at ok
  | timeout => rw [rxSelect_of_timeout received] at ok; simp [IsPacketOk] at ok
  | bytes d =>
    obtain ⟨-, h⟩ | ⟨-, -, h⟩ | ⟨_, -, -, h⟩ | ⟨h, valid, bit, selected⟩ := rxSelect_cases received
    · rw [h] at ok; simp [IsPacketOk] at ok
    · rw [h] at ok; simp [IsPacketOk] at ok
    · rw [h] at ok; simp [IsPacketOk] at ok
    · exact ⟨d, h, rfl, valid, bit, selected⟩

theorem exec_rxRow_eq (row : RxRow) (s : State) : exec row.instr s = onRxRow row (rxAction block row) s := by
  cases row <;> rfl

/-- An event row that answered was selected in a running receiver. -/
theorem selected_of_exec_rxRow {row : RxRow} {s t : State} (next : exec row.instr s = .next t) :
    s.rx.status = .running ∧ rxSelect s = row ∧ rxAction block row s = .next t := by
  rw [exec_rxRow_eq, onRxRow_next] at next
  exact ⟨next.1.1, next.1.2, next.2⟩

/-! When the bit and the buffer move (R269). -/

/-- The bit or the buffer is another. -/
def Moved (r u : RxRegs) : Prop := u.bit ≠ r.bit ∨ u.buf ≠ r.buf

theorem not_moved_of_eq {r u : RxRegs} (bit : u.bit = r.bit) (buf : u.buf = r.buf) : ¬Moved r u :=
  fun moved => moved.elim (fun h => h bit) (fun h => h buf)

theorem not_moved_self (r : RxRegs) : ¬Moved r r := not_moved_of_eq rfl rfl

theorem resendAck_not_moved (s : State) : ¬Moved s.rx (resendAck s).rx := by
  obtain ⟨-, h⟩ | ⟨-, -, h⟩ | ⟨-, -, h⟩ := resendAck_cases s <;> rw [h]
  · exact not_moved_of_eq rfl rfl
  · rw [transmit_rx]; exact not_moved_of_eq rfl rfl
  · exact not_moved_of_eq rfl rfl

/-- Of the receiver's rows only PACKET_OK moves them. -/
theorem row_of_moved {row : RxRow} {s t : State} (next : rxAction block row s = .next t) (moved : Moved s.rx t.rx) :
    IsPacketOk row := by
  cases row with
  | packetOkMore => exact .inl rfl
  | packetOkLast => exact .inr rfl
  | channelFailure => cases next; exact absurd moved (not_moved_of_eq rfl rfl)
  | idleTimeout => cases next; exact absurd moved (not_moved_of_eq rfl rfl)
  | zeroDatagram => cases next; exact absurd moved (not_moved_self _)
  | packetCorrupt => cases next; exact absurd moved (not_moved_of_eq rfl rfl)
  | packetWrongBit => cases next; exact absurd moved (resendAck_not_moved s)

/-- A data frame row is a `dataRow`. -/
theorem exists_dataRow {i : Instr} (frame : ∃ f, i = .dataNone f ∨ i = .dataMore f ∨ i = .dataLast f) :
    ∃ flag f, i = dataRow flag f := by
  obtain ⟨f, rfl | rfl | rfl⟩ := frame
  · exact ⟨.none, f, rfl⟩
  · exact ⟨.moreFollow, f, rfl⟩
  · exact ⟨.last, f, rfl⟩

/-- The statement about one instruction. -/
theorem instr_of_moved {i : Instr} {s t : State} (next : exec i s = .next t) (running : s.rx.status = .running)
    (moved : Moved s.rx t.rx) :
    i = .rxPacketOkMore ∨ i = .rxPacketOkLast ∨ i = .hwReset ∨
      ∃ f flag, i = dataRow flag f ∧ (decData block (dataFrameBytes flag f)).frameOk = true ∧ f.altBit = s.rx.bit := by
  cases (exec_change next).2 with
  | same h => rw [h] at moved; exact absurd moved (not_moved_self _)
  | reset hi h => exact .inr (.inr (.inl hi))
  | configure src dst hi hs h => exact absurd running hs
  | restart hi hs h => exact absurd running hs
  | row row u hu hr hsel h hi =>
    obtain hi | frame := hi
    · obtain rfl | rfl := row_of_moved h (hu.symm ▸ moved)
      · exact .inl hi
      · exact .inr (.inl hi)
    · obtain ⟨flag, f, rfl⟩ := exists_dataRow frame
      rw [exec_dataRow] at next
      obtain ⟨-, judged⟩ | ⟨-, kept⟩ := arriveAtRx_cases (dataFrameBytes flag f) s
      · rw [judged] at next
        have ok := row_of_moved (s := receiveRx (dataFrameBytes flag f) s) next moved
        obtain ⟨d, h, received, valid, bit, -⟩ := received_of_packetOk ok
        obtain rfl : dataFrameBytes flag f = d := RecvOutcome.bytes.inj received
        have header := valid.header.symm.trans (validPacket_of_frameOk valid.frameOk).header
        obtain rfl := Option.some.inj header
        have field : altBitOf (byteAt (dataFrameBytes flag f) 4) = f.altBit := altBitOf_altByteOf f.altBit
        exact .inr (.inr (.inr ⟨f, flag, rfl, valid.frameOk, field.symm.trans bit⟩))
      · rw [kept] at next; cases next
        rw [transmit_rx] at moved; exact absurd moved (not_moved_self _)

/-- Settles O47: an operation that moves a running receiver is a reset, and the row that does is PACKET_OK. -/
theorem receiverAdvancesOnlyOnPacketOk : Obligations.ReceiverAdvancesOnlyOnPacketOk := by
  refine ⟨fun i s t => instr_of_moved, fun s t next running moved => ?_⟩
  have moved : Moved s.rx t.rx := moved
  cases step_case next with
  | quiet txSame rxSame => rw [rxSame] at moved; exact absurd moved (not_moved_self _)
  | operation i u op runs txRegs rxRegs next =>
    obtain rfl | rfl | rfl | ⟨f, flag, rfl, -⟩ := instr_of_moved next (rxRegs.symm ▸ running) (rxRegs.symm ▸ moved)
    · cases op
    · cases op
    · exact .inl ⟨u, runs⟩
    · rw [isOperation_dataRow] at op; cases op
  | sender u txRegs rxRegs _ next => rw [txAction_rx next, rxRegs] at moved; exact absurd moved (not_moved_self _)
  | receiver u txRegs rxRegs _ next receives =>
    obtain ⟨d, h, received, valid, bit, -⟩ := received_of_packetOk (row_of_moved next (rxRegs.symm ▸ moved))
    rw [rxRegs] at bit
    exact .inr ⟨d, h, by rw [receives, received]; rfl, valid.nonzero, valid.frameOk, valid.header, bit⟩

/-! The buffer only grows or is emptied (R72). -/

theorem buf_prefix_takePayload (p : Bytes) (r : RxRegs) : r.buf <+: (takePayload block p r).buf := by
  obtain ⟨-, h⟩ | ⟨-, h⟩ := takePayload_cases p r <;> rw [h] <;> exact List.prefix_append _ _

theorem rxAction_buf {row : RxRow} {s t : State} (next : rxAction block row s = .next t) :
    t.rx.buf = [] ∨ s.rx.buf <+: t.rx.buf := by
  by_cases moved : Moved s.rx t.rx
  · have accepted : ∃ d, t = acceptPacket block d s := by
      obtain rfl | rfl := row_of_moved next moved <;> cases next <;> exact ⟨_, rfl⟩
    obtain ⟨d, rfl⟩ := accepted
    obtain ⟨-, -, h⟩ | ⟨-, -, h⟩ | ⟨-, h⟩ := acceptPacket_cases d s <;> rw [h]
    · exact .inr (buf_prefix_takePayload _ _)
    · exact .inl rfl
    · exact .inr (buf_prefix_takePayload _ _)
  · have same : t.rx.buf = s.rx.buf := by
      by_contra other; exact moved (.inr other)
    rw [same]; exact .inr (List.prefix_refl _)

/-- Settles O48: a reset or a start empties the buffer, a row of the receiver appends or empties, nothing else writes it. -/
theorem reassemblyBufferIsAppendOnly : Obligations.ReassemblyBufferIsAppendOnly := by
  intro s t next
  have same (h : t.rx.buf = s.rx.buf) : t.rx.buf = [] ∨ s.rx.buf <+: t.rx.buf := .inr (h ▸ List.prefix_refl _)
  cases step_case next with
  | quiet txSame rxSame => exact same (by rw [rxSame])
  | operation i u op runs txRegs rxRegs next =>
    rw [← rxRegs] at same ⊢
    cases (exec_change next).2 with
    | same h => exact same (by rw [h])
    | reset hi h => rw [h]; exact .inl rfl
    | configure src dst hi hs h => exact same (by rw [h])
    | restart hi hs h => rw [h]; exact .inl rfl
    | row row v hv hr hsel h hi => rw [← hv]; exact rxAction_buf h
  | sender u txRegs rxRegs _ next => exact same (by rw [txAction_rx next, rxRegs])
  | receiver u txRegs rxRegs _ next => rw [← rxRegs]; exact rxAction_buf next

end Sys2Proof.Machine
end

