-- ==== Sys2Proof/Proofs/ReceiverCounters.lean ====
section
/-!
PROOF. The receiver's counters over instructions and steps (R39), and a frame delivered twice (R270, R376).
-/

namespace Sys2Proof.Machine

section TakePayload

variable (p : Bytes) (r : RxRegs)

theorem takePayload_cntCorrupt : (takePayload block p r).cntCorrupt = r.cntCorrupt := by
  obtain ⟨-, h⟩ | ⟨-, h⟩ := takePayload_cases p r <;> rw [h]

theorem takePayload_cntWrongBit : (takePayload block p r).cntWrongBit = r.cntWrongBit := by
  obtain ⟨-, h⟩ | ⟨-, h⟩ := takePayload_cases p r <;> rw [h]

end TakePayload

/-! The counters. -/

/-- How much each counter grew. -/
structure Counted (r u : RxRegs) (ok corrupt wrongBit : Nat) : Prop where
  cntOk : u.cntOk = r.cntOk + ok
  cntCorrupt : u.cntCorrupt = r.cntCorrupt + corrupt
  cntWrongBit : u.cntWrongBit = r.cntWrongBit + wrongBit

theorem counted_self (r : RxRegs) : Counted r r 0 0 0 := ⟨rfl, rfl, rfl⟩

/-- PACKET_OK counts where its ack was sent, which is where the receiver goes on (R258, R266). -/
theorem acceptPacket_counted (d : Datagram) {s : State} (running : s.rx.status = .running) :
    Counted s.rx (acceptPacket block d s).rx (if (acceptPacket block d s).rx.status = .running then 1 else 0) 0 0 := by
  have corrupt := takePayload_cntCorrupt (decData block d).payload s.rx
  have wrongBit := takePayload_cntWrongBit (decData block d).payload s.rx
  have goesOn := (takePayload_status (decData block d).payload s.rx).trans running
  have ok := takePayload_cntOk block (decData block d).payload s.rx
  have done : (if (takePayload block (decData block d).payload s.rx).status = .running then 1 else 0) = 1 := if_pos goesOn
  obtain ⟨-, -, h⟩ | ⟨-, -, h⟩ | ⟨-, h⟩ := acceptPacket_cases d s <;> rw [h]
  · exact ⟨(congrArg (· + 1) ok).trans (congrArg (s.rx.cntOk + ·) done.symm), corrupt, wrongBit⟩
  · exact ⟨(congrArg (· + 1) ok).trans (congrArg (s.rx.cntOk + ·) done.symm), corrupt, wrongBit⟩
  · exact ⟨ok, corrupt, wrongBit⟩

theorem resendAck_counted (s : State) : Counted s.rx (resendAck s).rx 0 0 1 := by
  obtain ⟨-, h⟩ | ⟨-, -, h⟩ | ⟨-, -, h⟩ := resendAck_cases s <;> rw [h]
  · exact ⟨rfl, rfl, rfl⟩
  · rw [transmit_rx]; exact ⟨rfl, rfl, rfl⟩
  · exact ⟨rfl, rfl, rfl⟩

/-- What each row counts (R39). -/
theorem rxAction_counted {row : RxRow} {s t : State} (running : s.rx.status = .running)
    (next : rxAction block row s = .next t) :
    Counted s.rx t.rx (if IsPacketOk row ∧ t.rx.status = .running then 1 else 0)
      (if row = .packetCorrupt then 1 else 0) (if row = .packetWrongBit then 1 else 0) := by
  cases row <;> cases next <;> simp only [IsPacketOk, reduceCtorEq, or_self, or_false, or_true, false_and, true_and,
    if_true, if_false]
  case channelFailure => exact ⟨rfl, rfl, rfl⟩
  case idleTimeout => exact ⟨rfl, rfl, rfl⟩
  case zeroDatagram => exact counted_self _
  case packetCorrupt => exact ⟨rfl, rfl, rfl⟩
  case packetWrongBit => exact resendAck_counted s
  case packetOkMore => exact acceptPacket_counted _ running
  case packetOkLast => exact acceptPacket_counted _ running

/-- An instruction that is no row of the receiver, no data frame and no start or reset of the receiver counts nothing. -/
theorem counted_of_other {i : Instr} {s t : State} (next : exec i s = .next t) (reset : i ≠ .hwReset)
    (restart : i ≠ .rxRestart) (frame : ∀ flag f, i ≠ dataRow flag f) (row : ∀ row : RxRow, i ≠ row.instr) :
    Counted s.rx t.rx 0 0 0 := by
  cases (exec_change next).2 with
  | same h => rw [h]; exact counted_self _
  | reset hi h => exact absurd hi reset
  | configure src dst hi hs h => rw [h]; exact ⟨rfl, rfl, rfl⟩
  | restart hi hs h => exact absurd hi restart
  | row v u hu hr hsel h hi =>
    obtain hi | isFrame := hi
    · exact absurd hi (row v)
    · obtain ⟨flag, f, hi⟩ := exists_dataRow isFrame
      exact absurd hi (frame flag f)

/-- The first clause of O49. -/
theorem exec_counts {i : Instr} {s t : State} (next : exec i s = .next t) (reset : i ≠ .hwReset)
    (restart : i ≠ .rxRestart) (frame : ∀ flag f, i ≠ dataRow flag f) :
    (t.rx.cntOk = s.rx.cntOk ∨ ((i = .rxPacketOkMore ∨ i = .rxPacketOkLast) ∧ t.rx.cntOk = s.rx.cntOk + 1)) ∧
      (t.rx.cntCorrupt = s.rx.cntCorrupt + if i = .rxPacketCorrupt then 1 else 0) ∧
      (t.rx.cntWrongBit = s.rx.cntWrongBit + if i = .rxPacketWrongBit then 1 else 0) := by
  by_cases isRow : ∃ row : RxRow, i = row.instr
  · obtain ⟨row, rfl⟩ := isRow
    obtain ⟨running, -, action⟩ := selected_of_exec_rxRow next
    obtain ⟨ok, corrupt, wrongBit⟩ := rxAction_counted running action
    have corruptRow : row.instr = .rxPacketCorrupt ↔ row = .packetCorrupt := by cases row <;> simp [RxRow.instr]
    have wrongBitRow : row.instr = .rxPacketWrongBit ↔ row = .packetWrongBit := by cases row <;> simp [RxRow.instr]
    have okRow : (row.instr = .rxPacketOkMore ∨ row.instr = .rxPacketOkLast) ↔ IsPacketOk row := by
      cases row <;> simp [RxRow.instr, IsPacketOk]
    simp only [corruptRow, wrongBitRow, okRow]
    refine ⟨?_, corrupt, wrongBit⟩
    split at ok
    case isTrue counts => exact .inr ⟨counts.1, ok⟩
    case isFalse => exact .inl ok
  · have other (row : RxRow) : i ≠ row.instr := fun hi => isRow ⟨row, hi⟩
    obtain ⟨ok, corrupt, wrongBit⟩ := counted_of_other next reset restart frame other
    refine ⟨.inl ok, corrupt.trans ?_, wrongBit.trans ?_⟩
    · exact congrArg _ (if_neg (other .packetCorrupt)).symm
    · exact congrArg _ (if_neg (other .packetWrongBit)).symm

/-- The number of datagrams, none or one, that the receiver's receive returns in the next step, of a kind. -/
def receivedCount (s : State) (kind : DataVerdict → Bool) : Nat :=
  match s.rxReceives with
  | none => 0
  | some d => if !allZero d && kind (decData block d) then 1 else 0

theorem receivedCount_of_none {s : State} (nothing : s.rxReceives = none) (kind : DataVerdict → Bool) :
    receivedCount s kind = 0 := by
  rw [receivedCount, nothing]

theorem receivedCount_of_some {s : State} {d : Datagram} (received : s.rxReceives = some d) (kind : DataVerdict → Bool) :
    receivedCount s kind = if !allZero d && kind (decData block d) then 1 else 0 := by
  rw [receivedCount, received]

/-- The altBit of a frame is the one the receiver waits for. -/
def expectedBit (s : State) (v : DataVerdict) : Bool := v.header.map (·.altBit) == some s.rx.bit

theorem expectedBit_of_header {s : State} {v : DataVerdict} {h : DataHeader} (header : v.header = some h) :
    expectedBit s v = decide (h.altBit = s.rx.bit) := by
  rw [expectedBit, header, beq_eq_decide]
  exact decide_eq_decide.mpr Option.some_inj

/-- The three counts of a step, by the datagram its receive returned. -/
def CountsReceived (s t : State) : Prop :=
  Counted s.rx t.rx
    (receivedCount s fun v => v.frameOk && expectedBit s v && decide (t.rx.status = .running))
    (receivedCount s fun v => !v.frameOk) (receivedCount s fun v => v.frameOk && !expectedBit s v)

theorem countsReceived_of_none {s t : State} (nothing : s.rxReceives = none) (counted : Counted s.rx t.rx 0 0 0) :
    CountsReceived s t := by
  unfold CountsReceived
  rw [receivedCount_of_none nothing, receivedCount_of_none nothing, receivedCount_of_none nothing]
  exact counted

theorem packetOkRow_ne_corrupt (flag : WireFlag) : packetOkRow flag ≠ .packetCorrupt := by
  unfold packetOkRow; split <;> simp

theorem packetOkRow_ne_wrongBit (flag : WireFlag) : packetOkRow flag ≠ .packetWrongBit := by
  unfold packetOkRow; split <;> simp

/-- A row of the receiver counts what its receive returned. -/
theorem countsReceived_of_row {s t u : State} (regs : u.rx = s.rx) (running : s.rx.status = .running)
    (next : rxAction block (rxSelect u) u = .next t) (receives : s.rxReceives = u.env.rxPort.recv.received) :
    CountsReceived s t := by
  have counted := rxAction_counted (regs.symm ▸ running) next
  rw [regs] at counted
  cases received : u.env.rxPort.recv with
  | failure =>
    rw [received] at receives
    rw [rxSelect_of_failure received] at counted
    exact countsReceived_of_none receives (by simpa [IsPacketOk] using counted)
  | timeout =>
    rw [received] at receives
    rw [rxSelect_of_timeout received] at counted
    exact countsReceived_of_none receives (by simpa [IsPacketOk] using counted)
  | bytes d =>
    rw [received] at receives
    unfold CountsReceived
    rw [receivedCount_of_some receives, receivedCount_of_some receives, receivedCount_of_some receives]
    obtain ⟨zero, h⟩ | ⟨nonzero, corrupt, h⟩ | ⟨_, ⟨nonzero, ok, header⟩, bit, h⟩ | ⟨_, ⟨nonzero, ok, header⟩, bit, h⟩ :=
      rxSelect_cases received <;> rw [h] at counted
    · simpa [IsPacketOk, zero] using counted
    · simpa [IsPacketOk, nonzero, corrupt] using counted
    · rw [regs] at bit
      simpa [IsPacketOk, nonzero, ok, expectedBit_of_header header, bit] using counted
    · rw [regs] at bit
      simpa [isPacketOk_packetOkRow, packetOkRow_ne_corrupt, packetOkRow_ne_wrongBit, nonzero, ok,
        expectedBit_of_header header, bit] using counted

/-- Settles O49: an operation, a row of the sender and a quiet step count nothing; a row of the receiver counts its own kind. -/
theorem countersCountTheirOwnEvents : Obligations.CountersCountTheirOwnEvents := by
  refine ⟨fun i s t => exec_counts, fun s t next noReset noRestart => ?_⟩
  suffices counts : CountsReceived s t from ⟨counts.cntOk, counts.cntCorrupt, counts.cntWrongBit⟩
  cases step_case next with
  | quiet txSame rxSame nothing => exact countsReceived_of_none nothing (rxSame ▸ counted_self _)
  | operation i u op runs txRegs rxRegs next nothing =>
    refine countsReceived_of_none nothing (rxRegs ▸ counted_of_other next ?_ ?_ ?_ ?_)
    · rintro rfl; exact noReset u runs
    · rintro rfl; exact noRestart u runs
    · rintro flag f rfl; rw [isOperation_dataRow] at op; cases op
    · rintro row rfl; rw [isOperation_rxRow] at op; cases op
  | sender u txRegs rxRegs _ next _ nothing =>
    exact countsReceived_of_none nothing (by rw [txAction_rx next, rxRegs]; exact counted_self _)
  | receiver u txRegs rxRegs running next receives => exact countsReceived_of_row rxRegs running next receives

/-! A frame delivered twice (R270, R376). -/

/-- What a PACKET_OK whose send was done has made of a valid frame with the expected bit (R258). -/
theorem accepted_of_exec {row : RxRow} {s t : State} {d : Datagram} (isOk : IsPacketOk row)
    (port : s.env.rxPort = ⟨.bytes d, true⟩) (next : exec row.instr s = .next t) :
    ∃ h, ValidPacket d h ∧ h.altBit = s.rx.bit ∧ row = packetOkRow h.endFlag ∧ s.rx.status = .running ∧
      t = acceptPacket block d s := by
  obtain ⟨running, selected, action⟩ := selected_of_exec_rxRow next
  subst selected
  obtain ⟨d', h, received, valid, bit, ofFlag⟩ := received_of_packetOk isOk
  have same : d' = d := RecvOutcome.bytes.inj (received.symm.trans (congrArg ShellPort.recv port))
  subst same
  rw [ofFlag, rxAction_packetOkRow received] at action
  cases action
  exact ⟨h, valid, bit, ofFlag, running, rfl⟩

/-- After a packet that was not LAST-flagged, the receiver waits for the other bit and holds the ack it sent. -/
theorem acceptPacket_more {s : State} {d : Datagram} {h : DataHeader} (port : s.env.rxPort = ⟨.bytes d, true⟩)
    (valid : ValidPacket d h) (more : h.endFlag ≠ .last) :
    acceptPacket block d s = (transmit .toTx (ackNow block s.rx) s).setRx
      (recordAck (ackNow block s.rx) (takePayload block (decData block d).payload s.rx)) := by
  have flag := DataVerdict.isLast_of_header valid.header
  obtain ⟨-, -, accepted⟩ | ⟨-, last, -⟩ | ⟨failed, -⟩ := acceptPacket_cases d s
  · exact accepted
  · rw [flag, decide_eq_true_iff] at last; exact absurd last more
  · rw [port] at failed; cases failed

/-- After a LAST-flagged packet the session is reset and the receiver holds the ack it sent. -/
theorem acceptPacket_last {s : State} {d : Datagram} {h : DataHeader} (port : s.env.rxPort = ⟨.bytes d, true⟩)
    (valid : ValidPacket d h) (last : h.endFlag = .last) :
    acceptPacket block d s = handOver block ((transmit .toTx (ackNow block s.rx) s).setRx
      (recordAck (ackNow block s.rx) (takePayload block (decData block d).payload s.rx))) := by
  have flag := DataVerdict.isLast_of_header valid.header
  obtain ⟨-, more, -⟩ | ⟨-, -, accepted⟩ | ⟨failed, -⟩ := acceptPacket_cases d s
  · rw [flag, decide_eq_false_iff_not] at more; exact absurd last more
  · exact accepted
  · rw [port] at failed; cases failed

theorem packetOkRow_more {flag : WireFlag} (row : RxRow.packetOkMore = packetOkRow flag) : flag ≠ .last := by
  rintro rfl; cases row

theorem packetOkRow_last {flag : WireFlag} (row : RxRow.packetOkLast = packetOkRow flag) : flag = .last := by
  unfold packetOkRow at row
  split at row
  · assumption
  · cases row

/-- A copy with the bit that is not awaited makes a running receiver resend its stored ack (R262). -/
theorem resend_of_copy {t : State} {d : Datagram} {h : DataHeader} (port : t.env.rxPort = ⟨.bytes d, true⟩)
    (valid : ValidPacket d h) (running : t.rx.status = .running) (stored : t.rx.lastAckValid = true)
    (other : h.altBit ≠ t.rx.bit) :
    exec .rxPacketWrongBit t = .next
      { t with rx := { t.rx with cntWrongBit := t.rx.cntWrongBit + 1 }
               env := { t.env with toTx := t.env.toTx ++ [t.rx.lastAck] } } := by
  have recv : t.env.rxPort.recv = .bytes d := congrArg ShellPort.recv port
  have sendOk : t.env.rxPort.sendOk = true := congrArg ShellPort.sendOk port
  rw [packetWrongBitResendsTheLastAck t d h running recv valid.nonzero valid.frameOk valid.header other, stored,
    if_neg (by decide), sendOk, if_pos rfl]

/-- Settles O50: the first copy flips the bit, so the second has the other one. -/
theorem duplicateFrameIsAppendedOnce : Obligations.DuplicateFrameIsAppendedOnce := by
  intro s t d port next
  obtain ⟨h, valid, bit, row, running, accepted⟩ := accepted_of_exec (row := .packetOkMore) (.inl rfl) port next
  rw [acceptPacket_more port valid (packetOkRow_more row)] at accepted
  have flipped : h.altBit ≠ t.rx.bit := by
    have next : t.rx.bit = 1 - s.rx.bit := by
      rw [accepted]; exact congrArg (1 - ·) (takePayload_bit ..)
    rw [bit, next]; exact (one_sub_bit_ne _).symm
  have wrongBit : t.rx.cntWrongBit = s.rx.cntWrongBit := by rw [accepted]; exact takePayload_cntWrongBit ..
  have sent : t.env.toTx = s.env.toTx ++ [t.rx.lastAck] := by rw [accepted]; rfl
  have goesOn : t.rx.status = .running := by rw [accepted]; exact (takePayload_status ..).trans running
  rw [resend_of_copy (by rw [accepted]; exact port) valid goesOn (by rw [accepted]; rfl) flipped, wrongBit, sent,
    List.append_assoc]
  rfl

/-- Settles O51: after the reset the receiver waits for bit 0 with no name captured. -/
theorem copyOfTheLastFrame : Obligations.CopyOfTheLastFrame := by
  intro s t d port next
  obtain ⟨h, valid, bit, row, running, accepted⟩ := accepted_of_exec (row := .packetOkLast) (.inr rfl) port next
  have last := packetOkRow_last row
  rw [acceptPacket_last port valid last] at accepted
  have reset : t.rx.bit = 0 := by rw [accepted]; rfl
  have port' : t.env.rxPort = ⟨.bytes d, true⟩ := by rw [accepted]; exact port
  have goesOn : t.rx.status = .running := by rw [accepted]; exact (takePayload_status ..).trans running
  by_cases one : s.rx.bit = 1
  · rw [if_pos one]
    have other : h.altBit ≠ t.rx.bit := by rw [bit, one, reset]; decide
    exact ⟨_, resend_of_copy port' valid goesOn (by rw [accepted]; rfl) other, rfl, rfl⟩
  · rw [if_neg one]
    have zero : s.rx.bit = 0 := by bv_omega
    have selected : rxSelect t = packetOkRow h.endFlag := by
      rw [rxSelect_of_valid_packet (congrArg ShellPort.recv port') valid.nonzero valid.frameOk valid.header,
        if_pos (by rw [bit, zero, reset])]
    refine ⟨acceptPacket block d t, ?_, ?_⟩
    · have action := exec_rxRow goesOn selected
      rw [rxAction_packetOkRow (congrArg ShellPort.recv port'), last] at action
      exact action
    · rw [acceptPacket_last port' valid last]
      have fresh : takePayload block (decData block d).payload t.rx = { t.rx with
          fileName := capturedName block (decData block d).payload, fileNameValid := true
          buf := capturedContent block (decData block d).payload } := by
        obtain ⟨captured, -⟩ | ⟨-, taken⟩ := takePayload_cases (decData block d).payload t.rx
        · rw [accepted] at captured; cases captured
        · rw [taken, show t.rx.buf = [] by rw [accepted]; rfl, List.nil_append]
      rw [fresh]; rfl

end Sys2Proof.Machine
end

