-- ==== Sys2Proof/Proofs/BothShells.lean ====
section
/-!
PROOF. Both shells: reset (R360), starts after an end (R334), disjointness (R17, R76, R160, R180), arriving datagrams (R107,
R254, R223, R291), and the host's reads (R44, R45).
-/

namespace Sys2Proof.Machine

/-- Settles O1: `resetBlock` writes the reset registers and no part of the environment. -/
theorem hwResetGivesResetValues : Obligations.HwResetGivesResetValues := by
  intro s
  exact ⟨_, exec_hwReset s, rfl, rfl, rfl, rfl, rfl, rfl, rfl, rfl, rfl, rfl, rfl, rfl, rfl⟩

/-- Settles O2. -/
theorem powerOnHasResetValues : Obligations.PowerOnHasResetValues :=
  ⟨rfl, rfl, rfl, rfl, rfl, rfl, rfl, rfl, rfl, rfl, rfl, rfl⟩

/-! Leaving an ended status (R334). -/

theorem start_of_tx_status {i : Instr} {s t : State} (next : exec i s = .next t) (ended : s.tx.status ≠ .running)
    (changed : t.tx.status ≠ s.tx.status) : i = .hwReset ∨ ∃ name file, i = .txStart name file := by
  cases (exec_change next).1 with
  | same h => exact absurd (congrArg TxRegs.status h) changed
  | reset hi h => exact .inl hi
  | configure src dst hi hs h => exact absurd (congrArg TxRegs.status h) changed
  | start name file hi hs hn h => exact .inr ⟨name, file, hi⟩
  | refuseName name file hi hs hn h => exact .inr ⟨name, file, hi⟩
  | row row u hu hr hsel h hi => exact absurd hr ended

theorem start_of_rx_status {i : Instr} {s t : State} (next : exec i s = .next t) (ended : s.rx.status ≠ .running)
    (changed : t.rx.status ≠ s.rx.status) : i = .hwReset ∨ i = .rxRestart := by
  cases (exec_change next).2 with
  | same h => exact absurd (congrArg RxRegs.status h) changed
  | reset hi h => exact .inl hi
  | configure src dst hi hs h => exact absurd (congrArg RxRegs.status h) changed
  | restart hi hs h => exact .inr hi
  | row row u hu hr hsel h hi => exact absurd hr ended

/-- Settles O52: a row is selected in a running shell only, so a step that changes an ended status runs a command. -/
theorem endedShellsLeaveOnlyByAStart : Obligations.EndedShellsLeaveOnlyByAStart := by
  refine ⟨fun i s t next => ⟨start_of_tx_status next, start_of_rx_status next⟩,
    fun s t next => ⟨fun ended changed => ?_, fun ended changed => ?_⟩⟩
  · cases step_case next with
    | quiet txSame => exact absurd (congrArg TxRegs.status txSame) changed
    | operation i u op runs txRegs rxRegs next =>
      rw [← txRegs] at ended changed
      exact ⟨i, u, runs, start_of_tx_status next ended changed⟩
    | sender u txRegs rxRegs running => exact absurd running ended
    | receiver u txRegs rxRegs running next =>
      exact absurd (congrArg TxRegs.status ((rxAction_tx next).trans txRegs)) changed
  · cases step_case next with
    | quiet txSame rxSame => exact absurd (congrArg RxRegs.status rxSame) changed
    | operation i u op runs txRegs rxRegs next =>
      rw [← rxRegs] at ended changed
      exact ⟨i, u, runs, start_of_rx_status next ended changed⟩
    | sender u txRegs rxRegs running next =>
      exact absurd (congrArg RxRegs.status ((txAction_rx next).trans rxRegs)) changed
    | receiver u txRegs rxRegs running => exact absurd running ended

/-! Which registers an instruction may write (R17, R76). -/

/-- The instructions that may write the sender's registers. -/
def writesTx : Instr → Bool
  | .ack _ | .txStart _ _ | .cfgTx _ _ | .hwReset => true
  | .txSend | .txChannelFailure | .txTimeout | .txAckBadCorrupt | .txAckBadWrongBit | .txAckOk => true
  | _ => false

/-- The instructions that may write the receiver's registers. -/
def writesRx : Instr → Bool
  | .dataNone _ | .dataMore _ | .dataLast _ | .rxRestart | .cfgRx _ _ | .hwReset => true
  | .rxChannelFailure | .rxIdleTimeout | .rxZeroDatagram | .rxPacketCorrupt | .rxPacketWrongBit => true
  | .rxPacketOkMore | .rxPacketOkLast => true
  | _ => false

theorem writesTx_txRow (row : TxRow) : writesTx row.instr = true := by cases row <;> rfl

theorem writesRx_txRow (row : TxRow) : writesRx row.instr = false := by cases row <;> rfl

theorem writesRx_rxRow (row : RxRow) : writesRx row.instr = true := by cases row <;> rfl

theorem writesTx_rxRow (row : RxRow) : writesTx row.instr = false := by cases row <;> rfl

theorem writesRx_dataRow (flag : EndFlag) (f : DataFields) : writesRx (dataRow flag f) = true := by cases flag <;> rfl

theorem writesTx_dataRow (flag : EndFlag) (f : DataFields) : writesTx (dataRow flag f) = false := by cases flag <;> rfl

theorem exec_tx_of_not_writesTx {i : Instr} {s t : State} (next : exec i s = .next t) (other : writesTx i = false) :
    t.tx = s.tx := by
  cases (exec_change next).1 with
  | same h => exact h
  | reset hi h => subst hi; cases other
  | configure src dst hi hs h => subst hi; cases other
  | start name file hi hs hn h => subst hi; cases other
  | refuseName name file hi hs hn h => subst hi; cases other
  | row row u hu hr hsel h hi =>
    obtain rfl | ⟨f, rfl, -⟩ := hi
    · rw [writesTx_txRow] at other; cases other
    · cases other

theorem exec_rx_of_not_writesRx {i : Instr} {s t : State} (next : exec i s = .next t) (other : writesRx i = false) :
    t.rx = s.rx := by
  cases (exec_change next).2 with
  | same h => exact h
  | reset hi h => subst hi; cases other
  | configure src dst hi hs h => subst hi; cases other
  | restart hi hs h => subst hi; cases other
  | row row u hu hr hsel h hi =>
    obtain rfl | frame := hi
    · rw [writesRx_rxRow] at other; cases other
    · obtain ⟨flag, f, rfl⟩ := exists_dataRow frame
      rw [writesRx_dataRow] at other; cases other

/-- HW_RESET alone may write both. -/
theorem not_writesTx_or_not_writesRx {i : Instr} (other : i ≠ .hwReset) : writesTx i = false ∨ writesRx i = false := by
  cases i with
  | hwReset => exact absurd rfl other
  | ack | txStart | cfgTx | txSend | txChannelFailure | txTimeout | txAckBadCorrupt | txAckBadWrongBit | txAckOk =>
    exact .inr rfl
  | _ => exact .inl rfl

/-- Settles O53: by what an instruction may write; the codec operations only answer. -/
theorem shellsAreDisjoint : Obligations.ShellsAreDisjoint := by
  intro i s t next
  refine ⟨fun sender => exec_rx_of_not_writesRx next ?_, fun receiver => exec_tx_of_not_writesTx next ?_,
    fun B e src dst a f codec => ?_, fun other => ?_⟩
  · obtain ⟨row, rfl⟩ | ⟨src, dst, rfl⟩ | ⟨name, file, rfl⟩ | ⟨f, rfl⟩ := sender
    · exact writesRx_txRow row
    · rfl
    · rfl
    · rfl
  · obtain ⟨row, rfl⟩ | ⟨src, dst, rfl⟩ | rfl | ⟨flag, f, rfl⟩ := receiver
    · exact writesTx_rxRow row
    · rfl
    · rfl
    · exact writesTx_dataRow flag f
  · have answered {r : OpResult} (h : Host.Outcome.next (s.answer r) = (.next t : StepResult)) :
        t = { s with env := { s.env with result := t.env.result } } := by cases h; rfl
    obtain rfl | rfl | rfl | rfl | rfl | rfl := codec
    · exact answered next
    · exact answered next
    · exact answered ((exec_encData src dst a f B s).symm.trans next)
    · exact answered next
    · exact answered next
    · exact answered next
  · obtain noTx | noRx := not_writesTx_or_not_writesRx other
    · exact .inl (exec_tx_of_not_writesTx next noTx)
    · exact .inr (exec_rx_of_not_writesRx next noRx)

/-! Arriving datagrams (R107, R223, R254, R261, R291). -/

/-- The row of R112 for a received datagram, written out. -/
theorem rxSelect_instr {s : State} {d : Datagram} (received : s.env.rxPort.recv = .bytes d) :
    (rxSelect s).instr =
      if allZero d then .rxZeroDatagram
      else if (decData block d).frameOk = false then .rxPacketCorrupt
      else if (decData block d).header.map (·.altBit) ≠ some s.rx.bit then .rxPacketWrongBit
      else if (decData block d).header.map (·.endFlag) = some .last then .rxPacketOkLast else .rxPacketOkMore := by
  simp only [rxSelect_eq, received, apply_ite RxRow.instr, DataVerdict.bit, DataVerdict.isLast, beq_iff_eq]
  rfl

/-- The row of R111 for a received datagram, written out. -/
theorem txSelect_instr {s : State} {d : Datagram} (waiting : s.tx.phase = .ack) (received : s.env.txPort.recv = .bytes d) :
    (txSelect s).instr =
      if (decAck block d).frameOk = false then .txAckBadCorrupt
      else if (decAck block d).header.map (·.altBit) ≠ some s.tx.bit then .txAckBadWrongBit else .txAckOk := by
  simp only [txSelect_eq, waiting, received]
  by_cases corrupt : (decAck block d).frameOk = false
  · rw [if_pos corrupt, if_pos corrupt]; rfl
  · rw [if_neg corrupt, if_neg corrupt]
    by_cases bit : (decAck block d).bit = some s.tx.bit
    · rw [if_pos bit]; exact (if_neg (not_not.mpr bit)).symm
    · rw [if_neg bit]; exact (if_pos bit).symm

/-- A datagram that reaches a blocked receiver is the row it selects. -/
theorem arriveAtRx_of_running {d : Datagram} {s : State} (running : s.rx.status = .running)
    (isOpen : s.env.rxEnd.fails = false) :
    arriveAtRx d s = exec (rxSelect (receiveRx d s)).instr (receiveRx d s) := by
  rw [arriveAtRx, if_pos ⟨running, isOpen⟩, exec_rxRow (by exact running) rfl]

/-- A datagram that reaches a blocked sender is the row it selects. -/
theorem arriveAtTx_of_waiting {d : Datagram} {s : State} (running : s.tx.status = .running) (waiting : s.tx.phase = .ack)
    (isOpen : s.env.txEnd.fails = false) :
    arriveAtTx d s = exec (txSelect (receiveTx d s)).instr (receiveTx d s) := by
  rw [arriveAtTx, if_pos ⟨running, waiting, isOpen⟩, exec_txRow (by exact running) rfl]

theorem arriveAtRx_eq (s : State) (d : Datagram) :
    arriveAtRx d s =
      if s.rx.status = .running ∧ s.env.rxEnd.fails = false then
        exec (if allZero d then .rxZeroDatagram
          else if (decData block d).frameOk = false then .rxPacketCorrupt
          else if (decData block d).header.map (·.altBit) ≠ some s.rx.bit then .rxPacketWrongBit
          else if (decData block d).header.map (·.endFlag) = some .last then .rxPacketOkLast else .rxPacketOkMore)
          { s with env := { s.env with rxPort := { s.env.rxPort with recv := .bytes d } } }
      else .next { s with env := { s.env with toRx := s.env.toRx ++ [d] } } := by
  split
  case isTrue blocked => rw [arriveAtRx_of_running blocked.1 blocked.2, rxSelect_instr (d := d) rfl]; rfl
  case isFalse unawaited => exact if_neg unawaited

theorem arriveAtTx_eq (s : State) (d : Datagram) :
    arriveAtTx d s =
      if s.tx.status = .running ∧ s.tx.phase = .ack ∧ s.env.txEnd.fails = false then
        exec (if (decAck block d).frameOk = false then .txAckBadCorrupt
          else if (decAck block d).header.map (·.altBit) ≠ some s.tx.bit then .txAckBadWrongBit else .txAckOk)
          { s with env := { s.env with txPort := { s.env.txPort with recv := .bytes d } } }
      else .next { s with env := { s.env with toTx := s.env.toTx ++ [d] } } := by
  split
  case isTrue blocked =>
    obtain ⟨running, waiting, isOpen⟩ := blocked
    rw [arriveAtTx_of_waiting running waiting isOpen, txSelect_instr (d := d) (by exact waiting) rfl]; rfl
  case isFalse unawaited => exact if_neg unawaited

theorem wireFlagOf_flagByteOf_eq_last_iff (flag : EndFlag) : wireFlagOf (flagByteOf flag) = .last ↔ flag = .last := by
  cases flag <;> decide

/-- A well-formed data frame row is judged by its fields. -/
theorem exec_dataRow_eq (s : State) (f : DataFields) (flag : EndFlag) (wf : f.wellFormed = true) :
    exec (dataRow flag f) s =
      if s.rx.status = .running ∧ s.env.rxEnd.fails = false then
        exec (if allZero (dataFrameBytes flag f) then .rxZeroDatagram
          else if f.checksum ≠ crc32 block.crc ((dataFrameBytes flag f).take 8 ++ f.payload) then .rxPacketCorrupt
          else if f.altBit ≠ s.rx.bit then .rxPacketWrongBit
          else if flag = .last then .rxPacketOkLast else .rxPacketOkMore)
          { s with env := { s.env with rxPort := { s.env.rxPort with recv := .bytes (dataFrameBytes flag f) } } }
      else .next { s with env := { s.env with toRx := s.env.toRx ++ [dataFrameBytes flag f] } } := by
  rw [exec_dataRow, arriveAtRx_eq, decData_dataFrameBytes flag f wf]
  simp only [decide_eq_false_iff_not, Option.map_some, ne_eq, Option.some.injEq, wireFlagOf_flagByteOf_eq_last_iff,
    eq_comm (a := f.checksum)]

theorem exec_ack_eq (s : State) (f : AckFields) :
    exec (.ack f) s =
      if s.tx.status = .running ∧ s.tx.phase = .ack ∧ s.env.txEnd.fails = false then
        exec (if f.checksum ≠ crc32 block.crc ((ackFrameBytes f).take 5) then .txAckBadCorrupt
          else if f.altBit ≠ s.tx.bit then .txAckBadWrongBit else .txAckOk)
          { s with env := { s.env with txPort := { s.env.txPort with recv := .bytes (ackFrameBytes f) } } }
      else .next { s with env := { s.env with toTx := s.env.toTx ++ [ackFrameBytes f] } } := by
  rw [exec_ack, arriveAtTx_eq, decAck_ackFrameBytes]
  simp only [decide_eq_false_iff_not, Option.map_some, ne_eq, Option.some.injEq, eq_comm (a := f.checksum)]

/-- Settles O54. -/
theorem arrivingDatagramIsJudgedOrKept : Obligations.ArrivingDatagramIsJudgedOrKept :=
  ⟨arriveAtRx_eq, arriveAtTx_eq, exec_dataRow_eq, exec_ack_eq⟩

/-- A receive of a step whose send is done. -/
theorem receiveRx_eq {s : State} (sendOk : s.env.rxPort.sendOk = true) (d : Datagram) :
    receiveRx d s = { s with env := { s.env with rxPort := ⟨.bytes d, true⟩ } } :=
  congrArg (fun ok => { s with env := { s.env with rxPort := ⟨.bytes d, ok⟩ } }) sendOk

theorem receiveTx_eq {s : State} (sendOk : s.env.txPort.sendOk = true) (d : Datagram) :
    receiveTx d s = { s with env := { s.env with txPort := ⟨.bytes d, true⟩ } } :=
  congrArg (fun ok => { s with env := { s.env with txPort := ⟨.bytes d, ok⟩ } }) sendOk

/-- Settles O55: the judgement is PACKET_OK, whose effect is O42's. -/
theorem arrivingDataFrameIsDelivered : Obligations.ArrivingDataFrameIsDelivered := by
  intro s f flag running isOpen sendOk wf checksum bit m r A port
  have verdict := decData_dataFrameBytes flag f wf
  rw [decide_eq_true checksum.symm] at verdict
  have frameOk : (decData block (dataFrameBytes flag f)).frameOk = true := by rw [verdict]
  have payload : (decData block (dataFrameBytes flag f)).payload = f.payload := by rw [verdict]
  have nonzero := allZero_of_decData frameOk
  have delivered := packetOkDeliversAndAcknowledges { s with env := { s.env with rxPort := port } }
    (dataFrameBytes flag f) _ running rfl nonzero frameOk (by rw [verdict]) bit
  rw [payload] at delivered
  rw [exec_dataRow_eq s f flag wf, if_pos ⟨running, isOpen⟩, nonzero, if_neg Bool.false_ne_true,
    if_neg (not_not.mpr checksum), if_neg (not_not.mpr bit)]
  refine (congrArg (exec _) (receiveRx_eq sendOk _)).trans ?_
  cases flag <;> exact delivered

/-- Settles O56: the judgement is ACK_OK, whose effect is O33's, or ACK_BAD, whose effect is O34's. -/
theorem arrivingAckFrameIsJudged : Obligations.ArrivingAckFrameIsJudged := by
  intro s f running waiting isOpen sendOk header port
  have verdict := decAck_ackFrameBytes f
  obtain ⟨-, onCorrupt, onWrongBit⟩ :=
    badAckAndTimeoutRetransmit { s with env := { s.env with txPort := port } } running waiting
  rw [exec_ack_eq s f, if_pos ⟨running, waiting, isOpen⟩]
  refine (congrArg (exec _) (receiveTx_eq sendOk _)).trans ?_
  by_cases checksum : f.checksum = crc32 block.crc ((ackFrameBytes f).take 5)
  · have frameOk : (decAck block (ackFrameBytes f)).frameOk = true := by
      rw [verdict]; exact decide_eq_true checksum.symm
    rw [if_neg (not_not.mpr checksum)]
    by_cases bit : f.altBit = s.tx.bit
    · rw [if_neg (not_not.mpr bit), if_pos ⟨checksum, bit⟩]
      exact ackOkAdvancesTheSender { s with env := { s.env with txPort := port } } _ _ running waiting rfl frameOk
        (by rw [verdict]) bit header
    · rw [if_pos bit, if_neg (fun both => bit both.2)]
      exact onWrongBit _ _ rfl frameOk (by rw [verdict]) bit
  · rw [if_pos checksum, if_neg (fun both => checksum both.1)]
    exact onCorrupt _ rfl (by rw [verdict]; exact decide_eq_false (Ne.symm checksum))

end Sys2Proof.Machine
end

