-- ==== Sys2Proof/Proofs/Environment.lean ====
section
/-!
PROOF. The environment (R44, R45, R290, R291, R299, R310 to R316, D38): host reads, moves of the Channel, the FaultInjector's
categories, closing and reopening, and turns at an end that fails.
-/

namespace Sys2Proof.Machine

/-! Host reads (R44, R45). -/

theorem registerValue_setInputs (r : RegName) (s : State) (l : List Input) :
    registerValue r (s.setInputs l) = registerValue r s := by cases r <;> rfl

theorem step_read {s : State} {r : RegName} {rest : List Input} (input : s.env.inputs = .read r :: rest) :
    step s = .next
      { s with env := { s.env with inputs := rest, result := some (.register (registerValue r s)) } } := by
  rw [step_cons input]
  exact congrArg (fun v => Host.Outcome.next ((s.setInputs rest).answer (.register v))) (registerValue_setInputs r s rest)

theorem pendingSeen_of_ack {t : TxRegs} (waiting : t.phase = .ack) : pendingSeen t = t.pending := by
  rw [pendingSeen, waiting]

/-- A register behind its valid bit (R36, R38, R45, U4). -/
theorem guardedSeen_cases (valid : Bool) (width : Nat) (B : Bytes) :
    if valid then guardedSeen valid width B = .bytes B
    else ∃ B', guardedSeen valid width B = .unspecified B' ∧ B'.length = width := by
  cases valid with
  | true => exact guardedSeen_valid width B
  | false => exact guardedSeen_invalid width B

/-- Settles O27: register by register. -/
theorem hostReadsGiveTheRegisters : Obligations.HostReadsGiveTheRegisters := by
  intro s r rest input
  refine ⟨registerValue r s, ?_, step_read input⟩
  cases r with
  | txPending => exact ⟨_, rfl, pendingSeen_of_ack⟩
  | txStatus =>
    refine ⟨_, rfl, ?_⟩
    cases s.tx.status <;> decide
  | rxStatus =>
    refine ⟨_, rfl, ?_⟩
    cases s.rx.status <;> decide
  | rxFileName => exact guardedSeen_cases s.rx.fileNameValid 20 s.rx.fileName
  | rxLastAck => exact guardedSeen_cases s.rx.lastAckValid 9 s.rx.lastAck
  | _ => rfl

/-! The FaultInjector (R311 to R316). -/

/-- The category of the next three draws (R314, R315). -/
theorem nextCase_eq (draw : Nat → BitVec 32) (j : Injector) :
    nextCase draw j =
      if (draw j.drawsUsed).toNat < j.pLoss then .loss
      else if (draw (j.drawsUsed + 1)).toNat < j.pDup then .duplicate
      else if (draw (j.drawsUsed + 2)).toNat < j.pCorrupt then .corrupt
      else .pass := by
  simp only [nextCase, injectorCase, fires, decide_eq_true_eq]

/-- Settles O59: probability 0 never fires, probability 1 always does. -/
theorem injectorPriorityAndPassThrough : Obligations.InjectorPriorityAndPassThrough := by
  intro draw j d
  refine ⟨fun loss dup corrupt => ?_, fun loss => ?_, fun loss dup => ?_⟩
  · rw [nextCase_eq, loss, dup, corrupt, if_neg (Nat.not_lt_zero _), if_neg (Nat.not_lt_zero _),
      if_neg (Nat.not_lt_zero _)]
    rfl
  · rw [nextCase_eq, loss, if_pos (BitVec.isLt _)]
    rfl
  · rw [nextCase_eq, loss, dup, if_neg (Nat.not_lt_zero _), if_pos (BitVec.isLt _)]
    rfl

/-! Moves of the Channel (R291, R310). -/

/-- What the FaultInjector does to a datagram of a category (R310 to R315): three draws, its counter, its output. -/
theorem channelMove_inject {s : State} {k : InjectorCase} (category : nextCase Config.randomSource s.env.injector = k)
    (dir : Direction) (d : Datagram) :
    channelMove block (.inject dir d) s =
      (onQueue dir (fun q => q.erase d ++ injectorOutput block k d)
        (s.setEnv { s.env with injector := { s.env.injector with
          drawsUsed := s.env.injector.drawsUsed + 3, stats := countCase k s.env.injector.stats } })) := by
  subst category
  cases dir <;> rfl

/-! Closing and reopening (R290, R299, D38). -/

theorem EndState.fails_iff (e : EndState) : e.fails = true ↔ e.closed = true ∨ e.abort = true := Bool.or_eq_true_iff

theorem pollTx_of_call {s : State} (call : s.tx.phase = .call) (ch : RecvChoice) (ok : Bool) :
    pollTx ch ok s = s.setEnv { s.env with
      txPort := { s.env.txPort with sendOk := grantOk s.env.txEnd ok }
      txEnd := s.env.txEnd.called } := by
  rw [pollTx, call]

theorem pollTx_of_ack {s : State} (waiting : s.tx.phase = .ack) (ch : RecvChoice) (ok : Bool) :
    pollTx ch ok s = s.setEnv { s.env with
      txPort := ⟨txOutcome ch s, grantOk s.env.txEnd ok⟩
      toTx := consume (txOutcome ch s) s.env.toTx
      txEnd := s.env.txEnd.called } := by
  rw [pollTx, waiting]

section FailingTurns

variable {s : State} {ch : RecvChoice} {ok : Bool} {rest : List Input}

/-- The turn of a sender in WAIT_ACK at an end that fails: the receive returns Failure and takes no datagram (R226, R290). -/
theorem step_failing_txTurn_of_ack (running : s.tx.status = .running) (waiting : s.tx.phase = .ack)
    (fails : s.env.txEnd.fails = true) (input : s.env.inputs = .txTurn ch ok :: rest) :
    step s = .next (enterTxFatal .errChannel ((s.setInputs rest).setEnv { (s.setInputs rest).env with
      txPort := ⟨.failure, false⟩, txEnd := s.env.txEnd.called })) := by
  have failed : txOutcome ch (s.setInputs rest) = .failure := txOutcome_fails ch fails
  have refused : grantOk (s.setInputs rest).env.txEnd ok = false := grantOk_fails fails ok
  rw [step_txTurn_of_running input running, pollTx_of_ack (s := s.setInputs rest) waiting, failed, refused,
    txSelect_of_failure (by exact waiting) rfl]
  rfl

/-- The turn of a sender in WAIT_CALL at an end that fails: the send returns Failure (R226, R290). -/
theorem step_failing_txTurn_of_call (running : s.tx.status = .running) (call : s.tx.phase = .call)
    (fails : s.env.txEnd.fails = true) (input : s.env.inputs = .txTurn ch ok :: rest) :
    ∃ F, nextFrame block s.tx = .ok F ∧
      step s = .next (((s.setInputs rest).setEnv { (s.setInputs rest).env with
        txPort := { s.env.txPort with sendOk := false }, txEnd := s.env.txEnd.called }).setTx
          { s.tx with pending := F, status := .errChannel, timerArmed := false }) := by
  have refused : grantOk (s.setInputs rest).env.txEnd ok = false := grantOk_fails fails ok
  rw [step_txTurn_of_running input running, pollTx_of_call (s := s.setInputs rest) call, refused,
    txSelect_of_call (by exact call)]
  obtain ⟨F, encoded, ⟨done, -⟩ | ⟨-, failed⟩⟩ := sendChunk_cases ((s.setInputs rest).setEnv { (s.setInputs rest).env with
    txPort := { s.env.txPort with sendOk := false }, txEnd := s.env.txEnd.called })
  · cases done
  · exact ⟨F, encoded, congrArg Host.Outcome.next failed⟩

/-- The turn of a receiver at an end that fails (R266, R290). -/
theorem step_failing_rxTurn (running : s.rx.status = .running) (fails : s.env.rxEnd.fails = true)
    (input : s.env.inputs = .rxTurn ch ok :: rest) :
    step s = .next (enterRxFatal ((s.setInputs rest).setEnv { (s.setInputs rest).env with
      rxPort := ⟨.failure, false⟩, rxEnd := s.env.rxEnd.called })) := by
  have failed : rxOutcome ch (s.setInputs rest) = .failure := rxOutcome_fails ch fails
  have refused : grantOk (s.setInputs rest).env.rxEnd ok = false := grantOk_fails fails ok
  rw [step_rxTurn_of_running input running, pollRx, failed, refused, rxSelect_of_failure rfl]
  rfl

/-- What a sender's turn at an end that fails leaves (R226, R290). -/
theorem step_failing_txTurn (running : s.tx.status = .running) (fails : s.env.txEnd.fails = true)
    (input : s.env.inputs = .txTurn ch ok :: rest) :
    ∃ t, step s = .next t ∧ t.rx = s.rx ∧ t.env.toRx = s.env.toRx ∧ t.env.toTx = s.env.toTx ∧ t.env.sink = s.env.sink ∧
      t.env.txEnd = ⟨s.env.txEnd.closed, false⟩ ∧ t.env.rxEnd = s.env.rxEnd ∧
      t.tx = { s.tx with pending := t.tx.pending, status := .errChannel, timerArmed := false } ∧
      (if s.tx.phase = .ack then t.tx.pending = s.tx.pending else nextFrame block s.tx = .ok t.tx.pending) := by
  cases phase : s.tx.phase with
  | ack => exact ⟨_, step_failing_txTurn_of_ack running phase fails input, rfl, rfl, rfl, rfl, rfl, rfl, rfl, rfl⟩
  | call =>
    obtain ⟨F, encoded, next⟩ := step_failing_txTurn_of_call running phase fails input
    exact ⟨_, next, rfl, rfl, rfl, rfl, rfl, rfl, rfl, encoded⟩

end FailingTurns

/-! A close that no call has seen (R290, D38). -/

/-- A close that was to be seen before is not any more. -/
def Seen (e f : EndState) : Prop := e.abort = true ∧ f.abort = false

theorem not_seen_of_eq {e f : EndState} (same : f.abort = e.abort) : ¬Seen e f := by
  rintro ⟨latched, seen⟩
  rw [same, latched] at seen; cases seen

theorem not_seen_of_latched {e f : EndState} (latched : f.abort = true) : ¬Seen e f := by
  rintro ⟨-, seen⟩
  rw [latched] at seen; cases seen

theorem not_seen_of_ends {s t : State} (ends : t.env.txEnd = s.env.txEnd ∧ t.env.rxEnd = s.env.rxEnd) :
    ¬Seen s.env.txEnd t.env.txEnd ∧ ¬Seen s.env.rxEnd t.env.rxEnd :=
  ⟨not_seen_of_eq (congrArg _ ends.1), not_seen_of_eq (congrArg _ ends.2)⟩

theorem not_seen_onEnd {f : EndState → EndState} (keeps : ∀ e, ¬Seen e (f e)) (s : State) (e : ChannelEnd) :
    ¬Seen s.env.txEnd (s.onEnd e f).env.txEnd ∧ ¬Seen s.env.rxEnd (s.onEnd e f).env.rxEnd := by
  cases e with
  | sender => exact ⟨keeps _, not_seen_of_eq rfl⟩
  | receiver => exact ⟨not_seen_of_eq rfl, keeps _⟩

theorem channelMove_ends (m : ChannelMove) (s : State) :
    (channelMove block m s).env.txEnd = s.env.txEnd ∧ (channelMove block m s).env.rxEnd = s.env.rxEnd := by
  cases m with
  | insert dir d => cases dir <;> exact ⟨rfl, rfl⟩
  | lose dir d => cases dir <;> exact ⟨rfl, rfl⟩
  | duplicate dir d => cases dir <;> exact ⟨rfl, rfl⟩
  | inject dir d => cases dir <;> exact ⟨rfl, rfl⟩
  | setInjector => exact ⟨rfl, rfl⟩

/-- Only the turn of a running shell lets a close be seen, and only at its own end. -/
theorem step_seen {s t : State} (next : step s = .next t) :
    (Seen s.env.txEnd t.env.txEnd → s.tx.status = .running ∧ ∃ ch ok rest, s.env.inputs = .txTurn ch ok :: rest) ∧
      (Seen s.env.rxEnd t.env.rxEnd → s.rx.status = .running ∧ ∃ ch ok rest, s.env.inputs = .rxTurn ch ok :: rest) := by
  suffices turn : (¬Seen s.env.txEnd t.env.txEnd ∧ ¬Seen s.env.rxEnd t.env.rxEnd) ∨
      (s.tx.status = .running ∧ (∃ ch ok rest, s.env.inputs = .txTurn ch ok :: rest) ∧ ¬Seen s.env.rxEnd t.env.rxEnd) ∨
      (s.rx.status = .running ∧ (∃ ch ok rest, s.env.inputs = .rxTurn ch ok :: rest) ∧
        ¬Seen s.env.txEnd t.env.txEnd) by
    obtain ⟨noTx, noRx⟩ | ⟨running, turn, noRx⟩ | ⟨running, turn, noTx⟩ := turn
    · exact ⟨fun seen => absurd seen noTx, fun seen => absurd seen noRx⟩
    · exact ⟨fun _ => ⟨running, turn⟩, fun seen => absurd seen noRx⟩
    · exact ⟨fun seen => absurd seen noTx, fun _ => ⟨running, turn⟩⟩
  cases input : s.env.inputs with
  | nil => rw [step_nil input] at next; cases next; exact .inl (not_seen_of_ends ⟨rfl, rfl⟩)
  | cons x rest =>
    cases x with
    | host code o =>
      obtain ⟨unused, -⟩ | ⟨-, i, decoded, -⟩ := decodeOp_cases code o
      · rw [step_host_unused input unused] at next; cases next
      · rw [step_host input decoded] at next
        exact .inl (not_seen_of_ends (s := s.setInputs rest) (exec_ends next))
    | txTurn ch ok =>
      by_cases running : s.tx.status = .running
      · rw [step_txTurn_of_running input running] at next
        refine .inr (.inl ⟨running, ⟨ch, ok, rest, rfl⟩, not_seen_of_eq ?_⟩)
        rw [(txAction_ends next).2, pollTx_rxEnd]; rfl
      · rw [step_txTurn input, if_neg running] at next; cases next
        exact .inl (not_seen_of_ends ⟨rfl, rfl⟩)
    | rxTurn ch ok =>
      by_cases running : s.rx.status = .running
      · rw [step_rxTurn_of_running input running] at next
        exact .inr (.inr ⟨running, ⟨ch, ok, rest, rfl⟩, not_seen_of_eq (congrArg _ (rxAction_ends next).1)⟩)
      · rw [step_rxTurn input, if_neg running] at next; cases next
        exact .inl (not_seen_of_ends ⟨rfl, rfl⟩)
    | arrive dir d ok =>
      cases dir with
      | toRx =>
        rw [step_arrive_toRx input] at next
        exact .inl (not_seen_of_ends (s := grantSend .toRx ok (s.setInputs rest)) (arriveAtRx_ends next))
      | toTx =>
        rw [step_arrive_toTx input] at next
        exact .inl (not_seen_of_ends (s := grantSend .toTx ok (s.setInputs rest)) (arriveAtTx_ends next))
    | read r => rw [step_read input] at next; cases next; exact .inl (not_seen_of_ends ⟨rfl, rfl⟩)
    | channel m =>
      rw [step_cons input] at next; cases next
      exact .inl (not_seen_of_ends (s := s) (channelMove_ends m (s.setInputs rest)))
    | close e =>
      rw [step_cons input] at next; cases next
      exact .inl (not_seen_onEnd (fun _ => not_seen_of_latched rfl) (s.setInputs rest) e)
    | reopen e =>
      rw [step_cons input] at next; cases next
      exact .inl (not_seen_onEnd (f := EndState.reopen) (fun _ => not_seen_of_eq rfl) (s.setInputs rest) e)

/-- Settles O58: the moves by the category of the draws, the ends by their inputs, the failing turns by their phase. -/
theorem channelMovesAndCloseActOnTheChannel : Obligations.ChannelMovesAndCloseActOnTheChannel := by
  refine ⟨?_, fun s rest => ⟨step_cons, step_cons, step_cons, step_cons⟩,
    fun s ch ok rest => ⟨fun running fails => ?_, fun running fails input => ?_⟩,
    fun s t next => ⟨fun latched seen => ?_, fun latched seen => ?_⟩⟩
  · intro s m rest input j n put
    have moved : step s = .next (channelMove block m (s.setInputs rest)) := step_cons input
    rw [moved]
    cases m with
    | insert dir d => cases dir <;> rfl
    | lose dir d => cases dir <;> rfl
    | duplicate dir d => cases dir <;> rfl
    | setInjector => rfl
    | inject dir d =>
      have category := nextCase_eq Config.randomSource s.env.injector
      dsimp only
      split
      case isTrue loss =>
        rw [if_pos loss] at category
        rw [channelMove_inject (s := s.setInputs rest) category]; cases dir <;> rfl
      case isFalse kept =>
      rw [if_neg kept] at category
      split
      case isTrue dup =>
        rw [if_pos dup] at category
        rw [channelMove_inject (s := s.setInputs rest) category]; cases dir <;> rfl
      case isFalse single =>
      rw [if_neg single] at category
      split
      case isTrue corrupt =>
        rw [if_pos corrupt] at category
        rw [channelMove_inject (s := s.setInputs rest) category]; cases dir <;> rfl
      case isFalse intact =>
        rw [if_neg intact] at category
        rw [channelMove_inject (s := s.setInputs rest) category]; cases dir <;> rfl
  · exact step_failing_txTurn running ((EndState.fails_iff _).mpr fails)
  · exact ⟨_, step_failing_rxTurn running ((EndState.fails_iff _).mpr fails) input, rfl, rfl, rfl, rfl, rfl, rfl, rfl⟩
  · obtain ⟨running, ch, ok, rest, input⟩ := (step_seen next).1 ⟨latched, seen⟩
    obtain ⟨u, failed, -, -, -, -, -, -, regs, -⟩ :=
      step_failing_txTurn running ((EndState.fails_iff _).mpr (.inr latched)) input
    obtain rfl : u = t := Host.Outcome.next.inj (failed.symm.trans next)
    exact ⟨running, ⟨ch, ok, rest, input⟩, by rw [regs]⟩
  · obtain ⟨running, ch, ok, rest, input⟩ := (step_seen next).2 ⟨latched, seen⟩
    have failed := step_failing_rxTurn running ((EndState.fails_iff _).mpr (.inr latched)) input
    obtain rfl := Host.Outcome.next.inj (failed.symm.trans next)
    exact ⟨running, ⟨ch, ok, rest, input⟩, rfl⟩

end Sys2Proof.Machine
end

