-- ==== Sys2Proof/Proofs/Transfer.lean ====
section
/-!
PROOF. A fault-free transfer (R114, R230, R258, R268): what the two shells hold after each chunk, the three steps of a round, and
the run over all rounds.
-/

namespace Sys2Proof.Machine

/-! The chunks of a stream. -/

/-- `ceil(len / CHUNK_MAX)` (R216). -/
def chunksOf (T : Bytes) : Nat := (T.length + 1385) / 1386

section Chunks

variable {T : Bytes} {k : Nat}

theorem chunksOf_bounds (T : Bytes) : T.length ≤ chunksOf T * 1386 ∧ chunksOf T * 1386 < T.length + 1386 := by
  unfold chunksOf; omega

/-- A chunk begins inside the stream. -/
theorem offset_lt (inner : k < chunksOf T) : k * 1386 < T.length := by
  have := chunksOf_bounds T
  omega

/-- A chunk ends the stream exactly where no chunk follows it. -/
theorem ends_iff (inner : k < chunksOf T) : k * 1386 + min 1386 (T.length - k * 1386) = T.length ↔ ¬k + 1 < chunksOf T := by
  have bounds := chunksOf_bounds T
  omega

/-- The bytes of the first chunks, and those after one more. -/
theorem take_chunks_succ (T : Bytes) (k : Nat) :
    T.take ((k + 1) * 1386) = T.take (k * 1386) ++ chunkPayload block T (k * 1386) := by
  rw [chunkPayload_eq_take, Nat.succ_mul, List.take_add]

/-- All chunks are the stream. -/
theorem take_chunksOf (last : ¬k + 1 < chunksOf T) : T.take ((k + 1) * 1386) = T := by
  have := chunksOf_bounds T
  exact List.take_of_length_le (by omega)

end Chunks

/-! What the shells and the Channel hold. -/

/-- The sender with `k` chunks acknowledged, in one of its phases. -/
structure SentChunks (T : Bytes) (k : Nat) (phase : TxPhase) (t : TxRegs) : Prop where
  stream : t.T = T
  bit : t.bit = BitVec.ofNat 1 k
  offset : t.bytesProcessed = min (k * 1386) T.length
  retries : t.retryCount = 0
  status : t.status = if k < chunksOf T then .running else .done
  phase : t.phase = phase

/-- What the receiver has counted since `r₀` after `k` chunks. -/
structure CountedChunks (r₀ : RxRegs) (k : Nat) (r : RxRegs) : Prop where
  running : r.status = .running
  cntOk : r.cntOk = r₀.cntOk + k
  cntCorrupt : r.cntCorrupt = r₀.cntCorrupt
  cntWrongBit : r.cntWrongBit = r₀.cntWrongBit

/-- The receiver's session after `k` chunks of a stream, not all of them. -/
structure Session (T : Bytes) (k : Nat) (r : RxRegs) : Prop where
  bit : r.bit = BitVec.ofNat 1 k
  valid : r.fileNameValid = decide (0 < k)
  name : 0 < k → r.fileName = T.take 20
  buf : r.buf = (T.take (k * 1386)).drop 20

/-- The receiver's session and the FileSink calls after `k` chunks: after the last one the file is handed over (R268). -/
def Delivered (T : Bytes) (sink₀ : List SinkCall) (k : Nat) (r : RxRegs) (sink : List SinkCall) : Prop :=
  if k < chunksOf T then Session T k r ∧ sink = sink₀
  else (r.bit = 0 ∧ r.buf = []) ∧ sink = sink₀ ++ [⟨T.take 20, T.drop 20⟩]

/-- The inputs to come and the Channel's datagrams; both ends are open. -/
structure ChannelAt (e : Env) (inputs : List Input) (toRx toTx : List Datagram) : Prop where
  inputs : e.inputs = inputs
  toRx : e.toRx = toRx
  toTx : e.toTx = toTx
  txOpen : e.txEnd.fails = false
  rxOpen : e.rxEnd.fails = false

theorem called_fails {e : EndState} (isOpen : e.fails = false) : e.called.fails = false := by
  obtain ⟨closed, abort⟩ := e
  cases closed
  · rfl
  · cases isOpen

/-! The three steps of a round. -/

section Round

variable {T : Bytes} {k : Nat} {u : State} {rest : List Input}

/-- SEND (R218). -/
theorem step_round_send (inner : k < chunksOf T) (sent : SentChunks T k .call u.tx)
    (channel : ChannelAt u.env (.txTurn .oldest true :: rest) [] []) :
    ∃ t, step u = .next t ∧ SentChunks T k .ack t.tx ∧ nextFrame block t.tx = .ok t.tx.pending ∧ t.rx = u.rx ∧
      t.env.sink = u.env.sink ∧ ChannelAt t.env rest [t.tx.pending] [] := by
  obtain ⟨stream, bit, offset, retries, status, phase⟩ := sent
  obtain ⟨inputs, toRx, toTx, txOpen, rxOpen⟩ := channel
  rw [if_pos inner] at status
  have granted : grantOk (u.setInputs rest).env.txEnd true = true := grantOk_open txOpen true
  rw [step_txTurn_of_running inputs status, pollTx_of_call (s := u.setInputs rest) phase, granted,
    txSelect_of_call (by exact phase)]
  obtain ⟨F, encoded, ⟨-, done⟩ | ⟨failed, -⟩⟩ := sendChunk_cases ((u.setInputs rest).setEnv { (u.setInputs rest).env with
    txPort := { u.env.txPort with sendOk := true }, txEnd := u.env.txEnd.called })
  · refine ⟨_, congrArg Host.Outcome.next done, ⟨stream, bit, offset, retries, status.trans (if_pos inner).symm, rfl⟩, encoded,
      rfl, rfl, ⟨rfl, ?_, toTx, called_fails txOpen, rxOpen⟩⟩
    exact congrArg (· ++ [F]) toRx
  · cases failed

/-- ACK_OK (R220, R221). -/
theorem step_round_ack {src dst : Nat} (inner : k < chunksOf T) (sent : SentChunks T k .ack u.tx)
    (inFlight : nextFrame block u.tx = .ok u.tx.pending)
    (channel : ChannelAt u.env (.txTurn .oldest true :: rest) [] [encAck block src dst (BitVec.ofNat 1 k)]) :
    ∃ t, step u = .next t ∧ SentChunks T (k + 1) .call t.tx ∧ t.rx = u.rx ∧ t.env.sink = u.env.sink ∧
      ChannelAt t.env rest [] [] := by
  obtain ⟨stream, bit, offset, retries, status, phase⟩ := sent
  obtain ⟨inputs, toRx, toTx, txOpen, rxOpen⟩ := channel
  rw [if_pos inner] at status
  have start := offset_lt inner
  have size := length_of_nextFrame inFlight
  have flag := flag_of_nextFrame inFlight
  rw [stream, offset, Nat.min_eq_left start.le] at size flag
  rw [ends_iff inner] at flag
  have outcome : txOutcome .oldest (u.setInputs rest) = .bytes (encAck block src dst (BitVec.ofNat 1 k)) := by
    rw [txOutcome, grantRecv_open (by exact txOpen)]
    change resolve .oldest u.env.toTx = _
    rw [toTx]; rfl
  rw [step_txTurn_of_running inputs status, pollTx_of_ack (s := u.setInputs rest) phase, outcome,
    txSelect_of_valid_ack (by exact phase) rfl frameOk_encAck (congrArg AckVerdict.header decAck_encAck),
    if_pos (by exact bit.symm)]
  refine ⟨_, acceptAck_next.mpr ⟨?_, rfl⟩, ⟨stream, ?_, ?_, retries, ?_, rfl⟩, rfl, rfl,
    ⟨rfl, toRx, ?_, called_fails txOpen, rxOpen⟩⟩
  · change 12 ≤ u.tx.pending.length
    omega
  · exact (congrArg (1 - ·) bit).trans (one_sub_ofNat_bit k)
  · change u.tx.bytesProcessed + (u.tx.pending.length - 12) = _
    omega
  · change (if byteAt u.tx.pending 5 = 0x02 then TxStatus.done else u.tx.status) = _
    rw [status]
    by_cases follows : k + 1 < chunksOf T
    · rw [if_pos follows, if_neg (fun ends => flag.mp ends follows)]
    · rw [if_neg follows, if_pos (flag.mpr follows)]
  · change u.env.toTx.erase _ = []
    rw [toTx, List.erase_cons_head]

end Round

/-! The receiver's step of a round. -/

section Deliver

variable {T : Bytes} {k : Nat}

/-- The frame in flight is a valid one that carries the chunk, its bit, and LAST where no chunk follows (R216 to R218). -/
theorem frame_in_flight {t : TxRegs} {F : Bytes} (inner : k < chunksOf T) (sent : SentChunks T k .ack t)
    (inFlight : nextFrame block t = .ok F) :
    ∃ h, ValidPacket F h ∧ h.altBit = BitVec.ofNat 1 k ∧ (h.endFlag = .last ↔ ¬k + 1 < chunksOf T) ∧
      (decData block F).payload = chunkPayload block T (k * 1386) := by
  obtain ⟨stream, bit, offset, -, -, -⟩ := sent
  have start := offset_lt inner
  rw [nextFrame_block, Except.ok.injEq, stream, offset, Nat.min_eq_left start.le] at inFlight
  have small : (chunkPayload block T (k * 1386)).length < 65536 := by
    rw [chunkPayload_eq_take, List.length_take]; omega
  have verdict := decData_packData (src := t.srcPort.toNat) (dst := t.dstPort.toNat) (a := t.bit)
    (flag := chunkFlag block T.length (k * 1386)) small
  rw [inFlight] at verdict
  have frameOk : (decData block F).frameOk = true := by rw [verdict]
  refine ⟨_, ⟨allZero_of_decData frameOk, frameOk, by rw [verdict]⟩, bit, ?_, by rw [verdict]⟩
  rw [← ends_iff inner, ← chunkFlag_eq_last_iff]
  exact wireFlagOf_flagByteOf_eq_last_iff _

/-- PACKET_OK's first action on a chunk: the first one brings the name (R258). -/
theorem takePayload_chunk {r : RxRegs} (long : 20 ≤ T.length) (inner : k < chunksOf T) (session : Session T k r) :
    (takePayload block (chunkPayload block T (k * 1386)) r).fileName = T.take 20 ∧
      (takePayload block (chunkPayload block T (k * 1386)) r).buf = (T.take ((k + 1) * 1386)).drop 20 := by
  obtain ⟨-, valid, name, buf⟩ := session
  rw [take_chunks_succ]
  have start := offset_lt inner
  obtain ⟨captured, taken⟩ | ⟨fresh, taken⟩ := takePayload_cases (chunkPayload block T (k * 1386)) r
  · rw [captured] at valid
    have later : 0 < k := of_decide_eq_true valid.symm
    rw [taken, List.drop_append_of_le_length (by rw [List.length_take]; omega)]
    exact ⟨name later, by rw [buf]⟩
  · rw [fresh] at valid
    obtain rfl : k = 0 := Nat.eq_zero_of_not_pos (of_decide_eq_false valid.symm)
    have nameLen : block.nameLen = 20 := rfl
    have size : (chunkPayload block T (0 * 1386)).length = min 1386 (T.length - 0 * 1386) := chunkPayload_length ..
    have whole : min 20 (chunkPayload block T (0 * 1386)).length = 20 := by omega
    rw [taken, buf]
    simp only [capturedName, capturedContent, nameLen, whole]
    rw [chunkPayload_eq_take]
    simp [zeros, List.take_take]

/-- PACKET_OK on the frame of a chunk, with the hand-over after the last one (R258, R268). -/
theorem acceptPacket_chunk {F : Bytes} {h : DataHeader} {v : State} {r₀ : RxRegs} {sink₀ : List SinkCall}
    (long : 20 ≤ T.length) (inner : k < chunksOf T) (port : v.env.rxPort = ⟨.bytes F, true⟩) (valid : ValidPacket F h)
    (last : h.endFlag = .last ↔ ¬k + 1 < chunksOf T) (payload : (decData block F).payload = chunkPayload block T (k * 1386))
    (counted : CountedChunks r₀ k v.rx) (delivered : Delivered T sink₀ k v.rx v.env.sink) :
    (acceptPacket block F v).tx = v.tx ∧ CountedChunks r₀ (k + 1) (acceptPacket block F v).rx ∧
      Delivered T sink₀ (k + 1) (acceptPacket block F v).rx (acceptPacket block F v).env.sink ∧
      (acceptPacket block F v).env =
        { v.env with toTx := v.env.toTx ++ [ackNow block v.rx], sink := (acceptPacket block F v).env.sink } := by
  obtain ⟨running, cntOk, cntCorrupt, cntWrongBit⟩ := counted
  rw [Delivered, if_pos inner] at delivered
  obtain ⟨session, sink⟩ := delivered
  obtain ⟨name, buf⟩ := takePayload_chunk long inner session
  have goesOn := (takePayload_status (chunkPayload block T (k * 1386)) v.rx).trans running
  have ok := congrArg (· + 1) ((takePayload_cntOk block (chunkPayload block T (k * 1386)) v.rx).trans cntOk)
  have corrupt := (takePayload_cntCorrupt (chunkPayload block T (k * 1386)) v.rx).trans cntCorrupt
  have wrongBit := (takePayload_cntWrongBit (chunkPayload block T (k * 1386)) v.rx).trans cntWrongBit
  by_cases follows : k + 1 < chunksOf T
  · rw [acceptPacket_more port valid fun ends => last.mp ends follows, payload, Delivered, if_pos follows]
    refine ⟨rfl, ⟨goesOn, ok, corrupt, wrongBit⟩, ⟨⟨?_, ?_, fun _ => name, buf⟩, sink⟩, rfl⟩
    · have flipped := congrArg (1 - ·) ((takePayload_bit block (chunkPayload block T (k * 1386)) v.rx).trans session.bit)
      exact flipped.trans (one_sub_ofNat_bit k)
    · exact (takePayload_fileNameValid _ _).trans (decide_eq_true k.succ_pos).symm
  · rw [acceptPacket_last port valid (last.mpr follows), payload, Delivered, if_neg follows]
    rw [take_chunksOf follows] at buf
    refine ⟨rfl, ⟨goesOn, ok, corrupt, wrongBit⟩, ⟨⟨rfl, rfl⟩, ?_⟩, rfl⟩
    rw [← name, ← buf, ← sink]; rfl

/-- The receiver's turn of a round. -/
theorem step_round_deliver {u : State} {rest : List Input} {r₀ : RxRegs} {sink₀ : List SinkCall} (long : 20 ≤ T.length)
    (inner : k < chunksOf T) (sent : SentChunks T k .ack u.tx) (inFlight : nextFrame block u.tx = .ok u.tx.pending)
    (counted : CountedChunks r₀ k u.rx) (delivered : Delivered T sink₀ k u.rx u.env.sink)
    (channel : ChannelAt u.env (.rxTurn .oldest true :: rest) [u.tx.pending] []) :
    ∃ t src dst, step u = .next t ∧ t.tx = u.tx ∧ CountedChunks r₀ (k + 1) t.rx ∧
      Delivered T sink₀ (k + 1) t.rx t.env.sink ∧ ChannelAt t.env rest [] [encAck block src dst (BitVec.ofNat 1 k)] := by
  obtain ⟨inputs, toRx, toTx, txOpen, rxOpen⟩ := channel
  obtain ⟨h, valid, bit, last, payload⟩ := frame_in_flight inner sent inFlight
  have awaited : u.rx.bit = BitVec.ofNat 1 k := by
    rw [Delivered, if_pos inner] at delivered
    exact delivered.1.bit
  have outcome : rxOutcome .oldest (u.setInputs rest) = .bytes u.tx.pending := by
    rw [rxOutcome, grantRecv_open (by exact rxOpen)]
    change resolve .oldest u.env.toRx = _
    rw [toRx]; rfl
  have port : (pollRx .oldest true (u.setInputs rest)).env.rxPort = ⟨.bytes u.tx.pending, true⟩ :=
    congrArg₂ ShellPort.mk outcome (grantOk_open rxOpen true)
  have received := congrArg ShellPort.recv port
  have consumed : (pollRx .oldest true (u.setInputs rest)).env.toRx = [] := by
    change consume (rxOutcome .oldest (u.setInputs rest)) u.env.toRx = []
    rw [outcome, toRx]; exact List.erase_cons_head ..
  have next : step u = .next (acceptPacket block u.tx.pending (pollRx .oldest true (u.setInputs rest))) := by
    rw [step_rxTurn_of_running inputs counted.running,
      rxSelect_of_valid_packet received valid.nonzero valid.frameOk valid.header,
      if_pos (by exact bit.trans awaited.symm), rxAction_packetOkRow received]
  obtain ⟨tx, counted, delivered, env⟩ :=
    acceptPacket_chunk (v := pollRx .oldest true (u.setInputs rest)) long inner port valid last payload counted delivered
  refine ⟨_, u.rx.srcPort.toNat, u.rx.dstPort.toNat, next, tx, counted, delivered, ?_⟩
  rw [env]
  refine ⟨rfl, consumed, ?_, txOpen, called_fails rxOpen⟩
  rw [← awaited]
  exact congrArg (· ++ [ackNow block u.rx]) toTx

end Deliver

/-! The run. -/

/-- The inputs of `n` rounds (R114). -/
def roundInputs (n : Nat) : List Input :=
  (List.replicate n [Input.txTurn .oldest true, .rxTurn .oldest true, .txTurn .oldest true]).flatten

theorem roundInputs_succ (n : Nat) :
    roundInputs (n + 1) = .txTurn .oldest true :: .rxTurn .oldest true :: .txTurn .oldest true :: roundInputs n := by
  rw [roundInputs, List.replicate_succ, List.flatten_cons]; rfl

/-- A run whose first step answers goes on from its answer. -/
theorem run_succ_of_step {n : Nat} {s t : State} (next : step s = .next t) :
    Host.Core.run Sys2Proof.core (n + 1) s = Host.Core.run Sys2Proof.core n t := by
  have next : Sys2Proof.core.step s = .next t := next
  simp only [Host.Core.run, next]

/-- Between two rounds, `k` chunks have been sent, received, delivered and acknowledged. -/
structure BetweenRounds (T : Bytes) (r₀ : RxRegs) (sink₀ : List SinkCall) (k : Nat) (inputs : List Input) (u : State) :
    Prop where
  sent : SentChunks T k .call u.tx
  counted : CountedChunks r₀ k u.rx
  delivered : Delivered T sink₀ k u.rx u.env.sink
  channel : ChannelAt u.env inputs [] []

section Run

variable {T : Bytes} {r₀ : RxRegs} {sink₀ : List SinkCall} {rest : List Input}

/-- One round: SEND, PACKET_OK, ACK_OK (R230). -/
theorem run_round {k n : Nat} {u : State} (long : 20 ≤ T.length) (inner : k < chunksOf T)
    (between : BetweenRounds T r₀ sink₀ k (.txTurn .oldest true :: .rxTurn .oldest true :: .txTurn .oldest true :: rest) u) :
    ∃ t, BetweenRounds T r₀ sink₀ (k + 1) rest t ∧
      Host.Core.run Sys2Proof.core (n + 3) u = Host.Core.run Sys2Proof.core n t := by
  obtain ⟨sent, counted, delivered, channel⟩ := between
  obtain ⟨v, send, sent, inFlight, rx, sink, channel⟩ := step_round_send inner sent channel
  rw [← rx] at counted delivered
  rw [← sink] at delivered
  obtain ⟨w, src, dst, deliver, tx, counted, delivered, channel⟩ :=
    step_round_deliver long inner sent inFlight counted delivered channel
  rw [← tx] at sent inFlight
  obtain ⟨t, acknowledge, sent, rx, sink, channel⟩ := step_round_ack inner sent inFlight channel
  rw [← rx] at counted delivered
  rw [← sink] at delivered
  exact ⟨t, ⟨sent, counted, delivered, channel⟩,
    by rw [run_succ_of_step send, run_succ_of_step deliver, run_succ_of_step acknowledge]⟩

/-- All the rounds that are left, by their number. -/
theorem run_rounds (long : 20 ≤ T.length) (n : Nat) : ∀ {k : Nat} {u : State}, k + n = chunksOf T →
    BetweenRounds T r₀ sink₀ k (roundInputs n ++ rest) u →
    ∃ t, Host.Core.run Sys2Proof.core (3 * n) u = .next t ∧ BetweenRounds T r₀ sink₀ (chunksOf T) rest t := by
  induction n with
  | zero =>
    intro k u all between
    obtain rfl : k = chunksOf T := all
    exact ⟨u, rfl, between⟩
  | succ n ih =>
    intro k u left between
    rw [roundInputs_succ] at between
    obtain ⟨v, between, run⟩ := run_round (n := 3 * n) long (by omega) between
    obtain ⟨t, rounds, done⟩ := ih (by omega) between
    exact ⟨t, run.trans rounds, done⟩

end Run

/-! The whole transfer. -/

section Stream

variable {name file : Bytes} (fits : name.length ≤ 20)
include fits

theorem nameField_length : (nameField block name).length = 20 := by
  have nameLen : block.nameLen = 20 := rfl
  rw [nameField, List.length_append, zeros_length, nameLen]; omega

/-- The stream's first 20 bytes are the padded name (R214, R215). -/
theorem take_transferStream : (transferStream block name file).take 20 = nameField block name := by
  rw [transferStream, List.take_append_of_le_length (nameField_length fits).ge,
    List.take_of_length_le (nameField_length fits).le]

theorem drop_transferStream : (transferStream block name file).drop 20 = file := by
  rw [transferStream, ← nameField_length fits, List.drop_left]

end Stream

/-- Settles O57: TX_START gives the state before the first round, and the run of the rounds ends after the last. -/
theorem faultFreeTransferDeliversTheFile : Obligations.FaultFreeTransferDeliversTheFile := by
  intro s name file rest fits stopped running fresh buf bit toRx toTx txOpen rxOpen input K
  have length := transferStream_length (file := file) fits
  have count : chunksOf (transferStream block name file) = K := by rw [chunksOf, length]
  have positive : 0 < chunksOf (transferStream block name file) := by rw [chunksOf]; omega
  have decoded : decodeOp 0b1000 { HostOperands.zero with bytes := name, file := file } = .ok (.txStart name file) := rfl
  have start := (step_host input decoded).trans (exec_txStart_of_fitting_name stopped (Nat.not_lt.mpr fits))
  have between : BetweenRounds (transferStream block name file) s.rx s.env.sink 0
      (roundInputs (chunksOf (transferStream block name file)) ++ rest)
      ((startTx block name file (s.setInputs
        (roundInputs (chunksOf (transferStream block name file)) ++ rest))).answer .commandDone) := by
    refine ⟨⟨rfl, rfl, (Nat.zero_min _).symm, rfl, (if_pos positive).symm, rfl⟩, ⟨running, rfl, rfl, rfl⟩, ?_,
      ⟨rfl, toRx, toTx, txOpen, rxOpen⟩⟩
    rw [Delivered, if_pos positive]
    exact ⟨⟨bit, fresh, fun later => absurd later (Nat.lt_irrefl 0), buf⟩, rfl⟩
  obtain ⟨t, run, ⟨sent, counted, delivered, channel⟩⟩ := run_rounds (by omega) _ (Nat.zero_add _) between
  rw [Delivered, if_neg (Nat.lt_irrefl _), take_transferStream fits, drop_transferStream fits] at delivered
  obtain ⟨⟨lastBit, lastBuf⟩, sink⟩ := delivered
  have done := sent.status
  rw [if_neg (Nat.lt_irrefl _)] at done
  have offset := sent.offset
  rw [Nat.min_eq_right (chunksOf_bounds _).1, length] at offset
  rw [← count]
  refine ⟨t, ?_, channel.inputs, done, offset, sent.retries, sent.bit, counted.cntOk, counted.cntCorrupt,
    counted.cntWrongBit, lastBit, lastBuf, sink⟩
  rw [Nat.add_comm, run_succ_of_step start]
  exact run

end Sys2Proof.Machine
end
